-- ==== Sys2Proof/Word.lean ====
section
/-!
DEFINITION. The values of the hardware (R12): bytes and bits.
-/

namespace Sys2Proof

/-- A byte, an unsigned 8-bit value: every channel value, message, password and payload byte (R12). -/
abbrev Byte := BitVec 8

/-- A bit of a bit sequence, 0 (`false`) or 1 (`true`) (R12). -/
abbrev Bit := Bool

end Sys2Proof
end

