-- ==== Sys2Proof/Syntax.lean ====
section
/-!
DEFINITION. The syntax of the machine: the eight commands of the opcode table (R96) and the lines of a host script (R100,
R173, R174, R178).
-/

namespace Sys2Proof

/-- The commands, one constructor per row of the opcode table (R96). Operands are implicit (R97), so none has an argument. -/
inductive Instr where
  /-- ENCRYPT, code 0x1 (R111). -/
  | encrypt
  /-- DECRYPT, code 0x2 (R112). -/
  | decrypt
  /-- B2BITS, code 0x3 (R122). -/
  | b2bits
  /-- BITS2B, code 0x4 (R123). -/
  | bits2b
  /-- EMBED, code 0x5 (R131). -/
  | embed
  /-- EXTRACT, code 0x6 (R143). -/
  | extract
  /-- HIDE, code 0x7 (R161). -/
  | hide
  /-- REVEAL, code 0x8 (R162). -/
  | reveal
  deriving DecidableEq, Repr

/-- The channels of a pixel (R36). -/
inductive Channel where
  | red
  | green
  | blue
  | alpha
  deriving DecidableEq, Repr

/-- One move of the host: a line of a host script (R100), an access of R173 or R174, or a reset (R200). -/
inductive HostMove where
  /-- `LOAD IBUF, bs` (R31, R174). -/
  | loadIbuf (bs : List Byte)
  /-- `LOAD KEY, bs` (R32, R174). -/
  | loadKey (bs : List Byte)
  /-- `LOAD BBUF, bits`, the first bit first (R35, R174). -/
  | loadBbuf (bits : List Bit)
  /-- `GRID w, h, ...`: the host attaches a grid, its channels in order of n; `alpha` is absent for a three-channel grid. -/
  | attachGrid (w h : Nat) (red green blue : List Byte) (alpha : Option (List Byte))
  /-- The host reads channel `c` of pixel `n` (R174). -/
  | readPixel (c : Channel) (n : Nat)
  /-- The host writes channel `c` of pixel `n` (R174). -/
  | writePixel (c : Channel) (n : Nat) (v : Byte)
  /-- The host reads register `r` (R173). -/
  | readReg (r : Nat)
  /-- The host reads element `k` of OBUF (R174). -/
  | readObuf (k : Nat)
  /-- The host reads element `k` of BBUF (R174). -/
  | readBbuf (k : Nat)
  /-- The host writes `v` to register `r`. Writing CMD, register 0, issues a command and returns with the command done: the
  command level (R8, R170), `CMD v` of R100. -/
  | writeReg (r : Nat) (v : Byte)
  /-- The write of `v` to CMD seen at the step level (R170, R172): the command is only issued, and the sequencer runs it in
  the steps that follow. -/
  | issue (v : Byte)
  /-- The host makes no move: a running core takes its next sequencer step, an idle core waits. -/
  | wait
  /-- A reset of the core (R200). -/
  | reset
  deriving DecidableEq, Repr

end Sys2Proof
end

