-- ==== Sys2Proof/Decode.lean ====
section
/-!
DEFINITION. The decoder and the encoder of the command register (R95, R96, R98).
-/

namespace Sys2Proof

/-- Why a byte written to CMD encodes no command (R98). -/
inductive Illegal where
  /-- Bits 7:4, the field RSV, are not 0. -/
  | rsvNotZero
  /-- OP is 0x0 or 0x9 to 0xF. -/
  | opReserved
  deriving DecidableEq, Repr

/-- What the decoder answers on a byte. -/
inductive Decoded where
  /-- The byte encodes this command. -/
  | command (i : Instr)
  /-- The byte encodes no command (R98). -/
  | illegal (why : Illegal)
  deriving DecidableEq, Repr

/-- CMD.OP, bits 3:0 (R21, R95). -/
def cmdOp (c : Byte) : BitVec 4 := c.extractLsb' 0 4

/-- CMD.RSV, bits 7:4 (R21, R95). -/
def cmdRsv (c : Byte) : BitVec 4 := c.extractLsb' 4 4

/-- The command of an OP value, by the table of R96; `none` where OP is reserved (R98). -/
def decodeOp (op : BitVec 4) : Option Instr :=
  match op.toNat with
  | 0x1 => some .encrypt
  | 0x2 => some .decrypt
  | 0x3 => some .b2bits
  | 0x4 => some .bits2b
  | 0x5 => some .embed
  | 0x6 => some .extract
  | 0x7 => some .hide
  | 0x8 => some .reveal
  | _ => none

/-- The decoder: OP is read when RSV is 0, and every other byte is illegal by name (R95, R98). -/
def decode (c : Byte) : Decoded :=
  if cmdRsv c = 0#4 then
    match decodeOp (cmdOp c) with
    | some i => .command i
    | none => .illegal .opReserved
  else .illegal .rsvNotZero

/-- OP of a command, the column OP of R96. -/
def opOf (i : Instr) : BitVec 4 :=
  match i with
  | .encrypt => 0x1#4
  | .decrypt => 0x2#4
  | .b2bits => 0x3#4
  | .bits2b => 0x4#4
  | .embed => 0x5#4
  | .extract => 0x6#4
  | .hide => 0x7#4
  | .reveal => 0x8#4

/-- The encoder: RSV = 0 over OP (R95), which gives the column "CMD byte" of R96. -/
def encode (i : Instr) : Byte := (opOf i).setWidth 8

/-- The instruction the decoder reads from a table row's bits. A command is one byte (R95, R99), so a row of another length
is none of this hardware's. -/
def decodeTableWord (nbits w : Nat) : Option Instr :=
  if nbits = 8 then
    match decode (BitVec.ofNat 8 w) with
    | .command i => some i
    | .illegal _ => none
  else none

end Sys2Proof
end

