-- ==== Sys2Proof/Config.lean ====
section
/-!
DEFINITION. The parameters the specification leaves open (R11, D8, D11): the capacities of the buffers and of the grid and
the width of the length registers. No value is chosen for them: a machine holds the configuration it was built with, and
every claim is for every configuration (DESIGN CHOICE, log entry 7).
-/

namespace Sys2Proof

/-- The capacities and the register width of R11. -/
structure Caps where
  /-- NIN, the capacity of IBUF in bytes. -/
  nin : Nat
  /-- NKEY, the capacity of KEY in bytes. -/
  nkey : Nat
  /-- NOUT, the capacity of OBUF in bytes. -/
  nout : Nat
  /-- NBIT, the capacity of BBUF in bits. -/
  nbit : Nat
  /-- MAXPIX, the largest W*H the core accepts. -/
  maxpix : Nat
  /-- LENW, the width in bits of every length and dimension register. -/
  lenw : Nat
  deriving DecidableEq, Repr

/-- A legal configuration, constraint by constraint as R11 lists them (the premise LegalConfig of R179). -/
structure Caps.Legal (c : Caps) : Prop where
  out_holds_input : c.nin ≤ c.nout
  out_holds_stream : c.maxpix / 8 ≤ c.nout
  bits_hold_input : 8 * c.nin ≤ c.nbit
  bits_hold_byte : 8 ≤ c.nbit
  key_holds_byte : 1 ≤ c.nkey
  lengths_fit : max (c.nin + 3) (max c.nkey (max c.nout (max c.nbit c.maxpix))) < 2 ^ c.lenw

/-- The test of `Caps.Legal`, which the machine makes before every step (D11, U6). -/
def Caps.isLegal (c : Caps) : Bool :=
  decide (c.nin ≤ c.nout) && decide (c.maxpix / 8 ≤ c.nout) && decide (8 * c.nin ≤ c.nbit) && decide (8 ≤ c.nbit) &&
    decide (1 ≤ c.nkey) && decide (max (c.nin + 3) (max c.nkey (max c.nout (max c.nbit c.maxpix))) < 2 ^ c.lenw)

/-- Whether a machine's configuration is one R11 allows; none, with all six parameters unbounded, is (log entry 7). -/
def configLegal (c : Option Caps) : Bool :=
  match c with
  | none => true
  | some caps => caps.isLegal

/-- Whether a length is within a capacity of a configuration. A machine without a configuration has all six parameters
unbounded, as R11 permits (DESIGN CHOICE, log entry 7). -/
def withinCap (c : Option Caps) (cap : Caps → Nat) (len : Nat) : Bool :=
  match c with
  | none => true
  | some caps => decide (len ≤ cap caps)

end Sys2Proof
end

