-- ==== Sys2Proof/Machine/State.lean ====
section
/-!
DEFINITION. The state of the machine as plain data (R20), the reasons a step can stop, and the state after reset (R40).
-/

namespace Sys2Proof.Machine

/-- A plane of bytes by address, as a list of cells in one canonical form: addresses strictly rising, and no cell that holds
what an unlisted address reads as. -/
abbrev Memory := List Host.Cell

/-- What an address that no cell lists reads as. Every pixel of an attached grid has a value (R36), so this is how the value
0x00 is held and not a value of an unwritten pixel (DESIGN CHOICE, log entry 6). -/
def Memory.blank : Byte := 0x00#8

/-- The canonical form of a memory: addresses strictly rising, no cell equal to what an unlisted address reads as. -/
abbrev Memory.wf (m : Memory) : Prop :=
  m.Pairwise (fun c d => c.1 < d.1) ∧ ∀ c ∈ m, c.2 ≠ Memory.blank

/-- The pixel grid the host attaches (R36): its dimensions, whether its pixels have a fourth channel (R9), and one plane per
channel, addressed by the linear pixel index n = y*W + x (R61). -/
structure Grid where
  /-- W, the width (R9), which register GW shows (R33). -/
  w : Nat
  /-- H, the height (R9), which register GH shows (R33). -/
  h : Nat
  /-- HAS_ALPHA (R9). -/
  hasAlpha : Bool
  /-- The red channel, which no command reads or writes (R62). -/
  red : Memory
  /-- The green channel, which no command reads or writes (R62). -/
  green : Memory
  /-- The blue channel: the address space PIXB (R60, R61). -/
  blue : Memory
  /-- The alpha channel, which no command reads or writes (R62); empty where the grid has none. -/
  alpha : Memory
  deriving DecidableEq, Repr

/-- W*H, the pixel count every capacity and exhaustion test uses (R33). -/
abbrev Grid.pixCount (g : Grid) : Nat := g.w * g.h

/-- A plane is canonical and lists only pixels of a grid of `count` pixels. -/
abbrev Memory.planeOf (m : Memory) (count : Nat) : Prop := m.wf ∧ ∀ c ∈ m, c.1 < count

/-- A well-formed grid (R202, U7): every channel is a canonical plane over exactly the W*H pixels, and a grid without alpha
holds no alpha value. -/
abbrev Grid.wf (g : Grid) : Prop :=
  g.red.planeOf g.pixCount ∧ g.green.planeOf g.pixCount ∧ g.blue.planeOf g.pixCount ∧
    g.alpha.planeOf g.pixCount ∧ (g.hasAlpha = false → g.alpha = [])

/-- PH, the sequencer phase (R30, R172). -/
inductive Phase where
  | idle
  | check
  | run
  | run2
  | done
  deriving DecidableEq, Repr

/-- The state of the machine: the groups (a) to (d) of R20, the configuration of R11, and the host agent's own two fields. The registers ILEN, KLEN,
OLEN, BLEN, GW and GH are no separate state (R23, R33): they are read from the buffers and the grid. -/
structure State where
  /-- CMD, register 0 (R21). -/
  cmd : Byte
  /-- STATUS, register 1 (R22): ERR in bits 2:0, bits 6:3 zero, BUSY in bit 7. -/
  status : Byte
  /-- IBUF, the input byte buffer (R31); ILEN is its length. -/
  ibuf : List Byte
  /-- KEY, the password buffer (R32); KLEN is its length. -/
  key : List Byte
  /-- OBUF, the output byte buffer (R34); OLEN is its length. -/
  obuf : List Byte
  /-- BBUF, the bit buffer, first bit first (R35); BLEN is its length. -/
  bbuf : List Bit
  /-- The attached pixel grid (R36). -/
  grid : Grid
  /-- PH, the sequencer phase (R30). -/
  ph : Phase
  /-- OPL, the latched command code (R30). -/
  opl : BitVec 4
  /-- N, the traversal counter (R24). -/
  n : Nat
  /-- I, the byte index (R25). -/
  i : Nat
  /-- KIDX, the key index (R26). -/
  kidx : Nat
  /-- ACC, the bit accumulator (R27). -/
  acc : Byte
  /-- BCNT, the bit counter (R28). -/
  bcnt : BitVec 4
  /-- Q0, the front of the lookahead queue (R29). -/
  q0 : Byte
  /-- Q1 (R29). -/
  q1 : Byte
  /-- Q2 (R29). -/
  q2 : Byte
  /-- QLEN, the number of valid queue entries (R29). -/
  qlen : BitVec 2
  /-- The result of B2BITS under construction, which R127 keeps apart from BBUF until the command completes and R41
  initialises. The result of the commands whose destination is OBUF is built in OBUF instead (R34). -/
  result : List Bit
  /-- The configuration the machine was built with (R11), which no step changes; `none` has all six parameters unbounded
  (DESIGN CHOICE, log entry 7). -/
  caps : Option Caps
  /-- The host's moves still to come (R7, R100): the model's own field for the host agent. -/
  script : List HostMove
  /-- What the host's reads have returned, newest first (R173, R174): the model's own field for the host agent. -/
  seen : List Nat
  deriving DecidableEq, Repr

/-- Why the machine stops with a fault. Only the step-level sequencer can raise one, and only in a state that no run
reaches. -/
inductive Fault where
  /-- The sequencer addressed an element at or above a buffer's length, or a pixel outside the grid, which R63 says never
  happens. Raised by `coreStep`. Safe: a claim about such a step becomes unprovable. -/
  | noElement
  /-- The sequencer is in RUN or RUN2 with an OPL that has no such phase (R172). Raised by `coreStep`. Safe: as above. -/
  | noCommand
  deriving DecidableEq, Repr

/-- Why the machine refuses a host move, and the mark of an instruction without a meaning. -/
inductive Refusal where
  /-- The instruction has no meaning in the model. Raised by an arm of `exec` alone; no arm raises it now. Safe. -/
  | notModelled (mnemonic : String)
  /-- A host move other than reading STATUS, waiting or a reset between issue and completion (R206, U1). Raised by `step`.
  Unsafe where a real host does interfere: no claim covers such a run (DESIGN CHOICE, log entry 13). -/
  | hostMoveWhileBusy
  /-- A host access to a register number above 7 (R68, U5). Raised by `step`. Safe. -/
  | noSuchRegister
  /-- A host write to one of the read-only registers 1 to 7 (U5). Raised by `step`. Safe. -/
  | readOnlyRegister
  /-- A host read of OBUF or BBUF at or above its length (R42, U4). Raised by `step`. Safe. -/
  | noSuchElement
  /-- A host access to a pixel outside the attached grid (R61). Raised by `step`. Safe (DESIGN CHOICE, log entry 19). -/
  | noSuchPixel
  /-- A host access to the alpha channel of a grid that has none (R9, R36). Raised by `step`. Safe (DESIGN CHOICE, log
  entry 19). -/
  | noSuchChannel
  /-- A configuration that violates the constraints of R11 (D11, U6). Raised by `step`, before any move. Safe (DESIGN CHOICE,
  log entry 21). -/
  | illegalConfiguration
  /-- A load longer than its buffer's capacity, or a grid with W*H > MAXPIX (R174, U6). Raised by `step`. Safe. -/
  | overCapacity
  /-- A grid with fewer or more than W*H values in a channel (R202, U7). Raised by `step`. Safe. -/
  | malformedGrid
  deriving DecidableEq, Repr

/-- The grid that is attached when nothing has attached one: no pixels (DESIGN CHOICE, log entry 4). -/
def Grid.empty : Grid :=
  { w := 0, h := 0, hasAlpha := false, red := [], green := [], blue := [], alpha := [] }

/-- The machine right after reset (R40): CMD and STATUS zero, the buffers empty, the sequencer idle, the working registers
zero. Five are the model's choices: Q0 to Q2 (DESIGN CHOICE, log entry 5), the attached grid (DESIGN CHOICE, log entry 4),
the result under construction, empty (DESIGN CHOICE, log entry 10), the configuration (DESIGN CHOICE, log entry 7) and the host's fields (DESIGN CHOICE, log entry 2). -/
def State.reset : State :=
  { cmd := 0x00#8, status := 0x00#8, ibuf := [], key := [], obuf := [], bbuf := [], grid := Grid.empty,
    ph := .idle, opl := 0#4, n := 0, i := 0, kidx := 0, acc := 0x00#8, bcnt := 0#4,
    q0 := 0x00#8, q1 := 0x00#8, q2 := 0x00#8, qlen := 0#2, result := [], caps := none, script := [], seen := [] }

end Sys2Proof.Machine
end

