-- ==== Sys2Proof/Machine/Flags.lean ====
section
/-!
DEFINITION. STATUS and the error codes. The hardware has no arithmetic flags (R37): STATUS.ERR is the only status a command
leaves, and R180 lists its values.
-/

namespace Sys2Proof.Machine

/-- The result codes of R180, with OK for success. -/
inductive ErrCode where
  /-- OK, code 0. -/
  | ok
  /-- InvalidKeyError, code 1 (R181). -/
  | invalidKey
  /-- CapacityError, code 2 (R182). -/
  | capacity
  /-- TerminatorNotFoundError, code 3 (R183). -/
  | terminatorNotFound
  /-- IllegalOperation, code 4 (R185). -/
  | illegalOperation
  deriving DecidableEq, Repr

/-- The number of a result code (R22, R180). -/
def errNumber (e : ErrCode) : BitVec 3 :=
  match e with
  | .ok => 0#3
  | .invalidKey => 1#3
  | .capacity => 2#3
  | .terminatorNotFound => 3#3
  | .illegalOperation => 4#3

/-- STATUS written whole: ERR in bits 2:0, RSV in bits 6:3 always 0, BUSY in bit 7 (R22). -/
def statusWord (busy : Bool) (e : BitVec 3) : Byte :=
  (if busy then 0x80#8 else 0x00#8) ||| e.setWidth 8

/-- STATUS.ERR, bits 2:0 (R22). -/
def State.err (s : State) : BitVec 3 := s.status.extractLsb' 0 3

/-- STATUS.RSV, bits 6:3 (R22). -/
def State.statusRsv (s : State) : BitVec 4 := s.status.extractLsb' 3 4

/-- STATUS.BUSY, bit 7 (R22). -/
def State.busy (s : State) : Bool := s.status.getLsbD 7

end Sys2Proof.Machine
end

