-- ==== Sys2Proof/Machine/Ops.lean ====
section
/-!
DEFINITION. The operations the meanings share: one element of a plane of memory (R14, R67), the named updates of the state,
issue (R170), raising an error (R184) and completion (R171), and the core's reset (R40, R200).
-/

namespace Sys2Proof.Machine

/-- What address `a` of a plane reads as: `MemRead(S:a, 1)` of R14. -/
def memRead (m : Memory) (a : Nat) : Byte :=
  match m with
  | [] => Memory.blank
  | (b, v) :: rest => if a = b then v else memRead rest a

/-- Put the cell `(a, v)` at its place in a rising list of cells. -/
def memInsert (m : Memory) (a : Nat) (v : Byte) : Memory :=
  match m with
  | [] => [(a, v)]
  | (b, w) :: rest => if a < b then (a, v) :: (b, w) :: rest else (b, w) :: memInsert rest a v

/-- Take every cell of address `a` out of a list of cells. -/
def memErase (m : Memory) (a : Nat) : Memory :=
  match m with
  | [] => []
  | (b, w) :: rest => if a = b then memErase rest a else (b, w) :: memErase rest a

/-- Store `v` at address `a` of a plane: `MemWrite(S:a, 1, v)` of R14. Storing what an unlisted address reads as removes the
cell, so the canonical form is kept. -/
def memWrite (m : Memory) (a : Nat) (v : Byte) : Memory :=
  if v = Memory.blank then memErase m a else memInsert (memErase m a) a v

/-- The plane whose addresses from `a` on read as the listed values. -/
def memOfList (a : Nat) (vs : List Byte) : Memory :=
  match vs with
  | [] => []
  | v :: rest => if v = Memory.blank then memOfList (a + 1) rest else (a, v) :: memOfList (a + 1) rest

/-- TERM, the terminator (R10, R92). -/
def term : List Byte := [0x00#8, 0x00#8, 0x03#8]

/-- OBUF <- o (OLEN follows, R23). -/
def setObuf (o : List Byte) (s : State) : State := { s with obuf := o }

/-- BBUF <- b (BLEN follows, R23). -/
def setBbuf (b : List Bit) (s : State) : State := { s with bbuf := b }

/-- The grid with another blue channel: all a command can change of it (R62). -/
def setBlue (m : Memory) (s : State) : State := { s with grid := { s.grid with blue := m } }

/-- The piece of state a command writes its result to (R17, R97). -/
inductive Dest where
  /-- No destination: a byte that encodes no command. -/
  | nowhere
  | obuf
  | bbuf
  | grid
  deriving DecidableEq, Repr

/-- The destination of each command, the last column of R97. -/
def destOf (i : Instr) : Dest :=
  match i with
  | .encrypt => .obuf
  | .decrypt => .obuf
  | .b2bits => .bbuf
  | .bits2b => .obuf
  | .embed => .grid
  | .extract => .obuf
  | .hide => .grid
  | .reveal => .obuf

/-- How an error treats the destination, by kind (R184): OBUF is emptied, everything else is left as at issue. -/
def clearDest (d : Dest) (s : State) : State :=
  match d with
  | .nowhere => s
  | .obuf => setObuf [] s
  | .bbuf => s
  | .grid => s

/-- Completion (R171): STATUS.ERR takes the result code, STATUS.BUSY falls and PH returns to IDLE. -/
def finish (e : ErrCode) (s : State) : State :=
  { s with status := statusWord false (errNumber e), ph := .idle }

/-- `raise e` in a command with destination `d` (R184): this hardware's taking of an exception. The destination is treated by
kind, ERR takes the code, BUSY falls and PH goes to IDLE; nothing is saved and control goes to no handler. There is no
return from it (R187): the next issue clears ERR. -/
def raiseErr (d : Dest) (e : ErrCode) (s : State) : State := finish e (clearDest d s)

/-- Issue (R170): CMD takes the byte, ERR <- 0, BUSY <- 1, OPL latches OP, the working registers are initialised (R41; Q0 to
Q2 are not, QLEN says they are invalid; the result under construction is emptied) and the sequencer enters CHECK (R172). That
every command byte initialises all of them, also those the command does not use (R41) and, outside EXTRACT and REVEAL, QLEN
(R29), is DEDUCED from R170 (log entry 29; for reserved bytes log entry 16). -/
def issue (c : Byte) (s : State) : State :=
  { s with cmd := c, status := statusWord true (errNumber .ok), opl := cmdOp c, ph := .check,
           n := 0, i := 0, kidx := 0, acc := 0x00#8, bcnt := 0#4, qlen := 0#2, result := [] }

/-- A reset of the core (R40, R200): every piece of core state at its reset value; the grid, which belongs to the host, the
configuration and the host agent's own fields stay. -/
def coreReset (s : State) : State :=
  { State.reset with grid := s.grid, caps := s.caps, script := s.script, seen := s.seen }

/-- The state with its working registers, group (d) of R20 but for PH, at their reset values. At the command level these are
no state at all (R20), so two states with one architectural view are the same to the host (R18). -/
def archView (s : State) : State :=
  { s with opl := 0#4, n := 0, i := 0, kidx := 0, acc := 0x00#8, bcnt := 0#4,
           q0 := 0x00#8, q1 := 0x00#8, q2 := 0x00#8, qlen := 0#2, result := [] }

end Sys2Proof.Machine
end

