-- ==== Sys2Proof/Machine/Operands.lean ====
section
/-!
DEFINITION. The operand forms. Operands are implicit (R97): a command takes them from fixed places. Here are the lengths as
registers (R23, R33), the register space (R68), single elements of the address spaces (R60, R63, R64) and which command reads
or writes which space (R77).
-/

namespace Sys2Proof.Machine

/-- ILEN, register 2 (R23). -/
abbrev State.ilen (s : State) : Nat := s.ibuf.length

/-- KLEN, register 3 (R23). -/
abbrev State.klen (s : State) : Nat := s.key.length

/-- OLEN, register 4 (R23). -/
abbrev State.olen (s : State) : Nat := s.obuf.length

/-- BLEN, register 5 (R23). -/
abbrev State.blen (s : State) : Nat := s.bbuf.length

/-- GW, register 6 (R33), the grid's W as a whole number, also where LENW bits do not hold it (DESIGN CHOICE, log
entry 27). -/
abbrev State.gw (s : State) : Nat := s.grid.w

/-- GH, register 7 (R33), the grid's H as a whole number (DESIGN CHOICE, log entry 27). -/
abbrev State.gh (s : State) : Nat := s.grid.h

/-- The value of register `r`, read whole (R65, R173); `none` where no register has the number (R68). GW and GH of a grid
without pixels may exceed LENW bits and are read whole all the same (DESIGN CHOICE, log entry 27). -/
def regValue (s : State) (r : Nat) : Option Nat :=
  match r with
  | 0 => some s.cmd.toNat
  | 1 => some s.status.toNat
  | 2 => some s.ilen
  | 3 => some s.klen
  | 4 => some s.olen
  | 5 => some s.blen
  | 6 => some s.gw
  | 7 => some s.gh
  | _ => none

/-- The linear index of the pixel at column `x` and row `y` of a grid of width `w` (R61). -/
def pixelIndex (w x y : Nat) : Nat := y * w + x

/-- `PixReadB(n)`: the blue byte of pixel `n`, where the grid has that pixel (R14, R60). -/
def pixReadB (s : State) (n : Nat) : Option Byte :=
  if n < s.grid.pixCount then some (memRead s.grid.blue n) else none

/-- `PixWriteB(n, v)` (R14, R60). -/
def pixWriteB (s : State) (n : Nat) (v : Byte) : Option State :=
  if n < s.grid.pixCount then some (setBlue (memWrite s.grid.blue n v) s) else none

/-- The plane of a channel; `none` for the alpha channel of a grid without one (R9, R36). -/
def channelOf (g : Grid) (c : Channel) : Option Memory :=
  match c with
  | .red => some g.red
  | .green => some g.green
  | .blue => some g.blue
  | .alpha => if g.hasAlpha then some g.alpha else none

/-- The grid with another plane for a channel. -/
def withChannel (g : Grid) (c : Channel) (m : Memory) : Grid :=
  match c with
  | .red => { g with red := m }
  | .green => { g with green := m }
  | .blue => { g with blue := m }
  | .alpha => { g with alpha := m }

/-- The address spaces a command may reach, the columns of R77. -/
inductive Space where
  | ibuf
  | key
  | obuf
  | bbuf
  | pixb
  deriving DecidableEq, Repr

/-- The spaces a command reads (R77). -/
def readsOf (i : Instr) : List Space :=
  match i with
  | .encrypt => [.ibuf, .key]
  | .decrypt => [.ibuf, .key]
  | .b2bits => [.ibuf]
  | .bits2b => [.bbuf]
  | .embed => [.ibuf, .pixb]
  | .extract => [.pixb]
  | .hide => [.ibuf, .key, .pixb]
  | .reveal => [.key, .pixb]

/-- The space a command writes (R77). -/
def writesOf (i : Instr) : List Space :=
  match destOf i with
  | .nowhere => []
  | .obuf => [.obuf]
  | .bbuf => [.bbuf]
  | .grid => [.pixb]

/-- Two states hold the same in a space; a grid also shows its W and H (R33, R77). -/
def agreeOn (sp : Space) (s t : State) : Prop :=
  match sp with
  | .ibuf => s.ibuf = t.ibuf
  | .key => s.key = t.key
  | .obuf => s.obuf = t.obuf
  | .bbuf => s.bbuf = t.bbuf
  | .pixb => s.grid.w = t.grid.w ∧ s.grid.h = t.grid.h ∧ s.grid.blue = t.grid.blue

end Sys2Proof.Machine
end

