-- ==== Sys2Proof/Machine/BitPacker.lean ====
section
/-!
DEFINITION. The BitPacker unit: B2BITS and BITS2B (42_bit_packer.md).
-/

namespace Sys2Proof.Machine

/-- The bits of one byte, bit 7 first (R120). -/
def byteBits (v : Byte) : List Bit :=
  [v.getLsbD 7, v.getLsbD 6, v.getLsbD 5, v.getLsbD 4, v.getLsbD 3, v.getLsbD 2, v.getLsbD 1, v.getLsbD 0]

/-- `bytesToBits(bs)` (R120). -/
def bytesToBits (bs : List Byte) : List Bit :=
  match bs with
  | [] => []
  | v :: rest => byteBits v ++ bytesToBits rest

/-- Bit `k` of a bit sequence as 0 or 1. -/
def bitAt (b : List Bit) (k : Nat) : Nat := (b.getD k false).toNat

/-- `bitsToByte(b)` for a sequence of eight bits: the weights 128 to 1 applied in input order (R121). -/
def bitsToByte (b : List Bit) : Byte :=
  BitVec.ofNat 8 (128 * bitAt b 0 + 64 * bitAt b 1 + 32 * bitAt b 2 + 16 * bitAt b 3 +
    8 * bitAt b 4 + 4 * bitAt b 5 + 2 * bitAt b 6 + 1 * bitAt b 7)

/-- B2BITS (R122). It has no error. -/
def execB2bits (s : State) : Host.Outcome State Fault Refusal :=
  .next (finish .ok (setBbuf (bytesToBits s.ibuf) s))

/-- BITS2B (R123): IllegalOperation when BLEN is not 8. -/
def execBits2b (s : State) : Host.Outcome State Fault Refusal :=
  if s.blen = 8 then .next (finish .ok (setObuf [bitsToByte s.bbuf] s))
  else .next (raiseErr .obuf .illegalOperation s)

end Sys2Proof.Machine
end

