-- ==== Sys2Proof/Machine/Embedder.lean ====
section
/-!
DEFINITION. The Embedder unit: EMBED (43_embedder.md).
-/

namespace Sys2Proof.Machine

/-- The byte whose bit 0 is `b` and whose other bits are 0 (`zext_8` of R12). -/
def zextBit (b : Bit) : Byte := (BitVec.ofBool b).setWidth 8

/-- The LSB write of R132: `(old & 0xFE) | bit`. -/
def lsbWrite (old : Byte) (b : Bit) : Byte := (old &&& 0xFE#8) ||| zextBit b

/-- Write one bit into each pixel of a blue channel from pixel `pos` on, in increasing n (the loop of R131). -/
def embedFrom (m : Memory) (pos : Nat) (bits : List Bit) : Memory :=
  match bits with
  | [] => m
  | b :: rest => embedFrom (memWrite m pos (lsbWrite (memRead m pos) b)) (pos + 1) rest

/-- The blue channel of `EmbedFn(g, p)` (R135). -/
def embedFn (g : Grid) (p : List Byte) : Memory := embedFrom g.blue 0 (bytesToBits p)

/-- The capacity test (R130): a payload of `len` bytes is refused exactly when its bits exceed the pixels. -/
def overCapacity (g : Grid) (len : Nat) : Bool := decide (8 * len > g.pixCount)

/-- EMBED (R131): CapacityError before any pixel is written, or IBUF's bits into the blue LSBs. -/
def execEmbed (s : State) : Host.Outcome State Fault Refusal :=
  if overCapacity s.grid s.ilen then .next (raiseErr .grid .capacity s)
  else .next (finish .ok (setBlue (embedFn s.grid s.ibuf) s))

end Sys2Proof.Machine
end

