-- ==== Sys2Proof/Machine/Extractor.lean ====
section
/-!
DEFINITION. The Extractor unit: EXTRACT, and the equivalent match detector of R151 (44_extractor.md).
-/

namespace Sys2Proof.Machine

/-- Bit 0 of the blue byte of pixel `n`. -/
def blueLsb (g : Grid) (n : Nat) : Bit := (memRead g.blue n).getLsbD 0

/-- `B[j]`, the byte at index j of a grid's byte stream (R140). -/
def streamByte (g : Grid) (j : Nat) : Byte :=
  bitsToByte [blueLsb g (8 * j), blueLsb g (8 * j + 1), blueLsb g (8 * j + 2), blueLsb g (8 * j + 3),
    blueLsb g (8 * j + 4), blueLsb g (8 * j + 5), blueLsb g (8 * j + 6), blueLsb g (8 * j + 7)]

/-- A grid's byte stream, of (W*H) div 8 bytes (R140). -/
def byteStream (g : Grid) : List Byte := (List.range (g.pixCount / 8)).map (streamByte g)

/-- The loop of R141 from a lookahead queue `q` and an output accumulator `out`: push, pop when more than 3, compare; `none`
when the stream is exhausted. -/
def scan (q out stream : List Byte) : Option (List Byte) :=
  match stream with
  | [] => none
  | b :: rest =>
    let pushed := q ++ [b]
    let queue := if 3 < pushed.length then pushed.drop 1 else pushed
    let output := if 3 < pushed.length then out ++ pushed.take 1 else out
    if queue = term then some output else scan queue output rest

/-- `ExtractFn(g)` (R141): the bytes before the terminator, `none` for TerminatorNotFoundError. -/
def extractFn (g : Grid) : Option (List Byte) := scan [] [] (byteStream g)

/-- EXTRACT (R143). -/
def execExtract (s : State) : Host.Outcome State Fault Refusal :=
  match extractFn s.grid with
  | some out => .next (finish .ok (setObuf out s))
  | none => .next (raiseErr .obuf .terminatorNotFound s)

/-- The equivalent detector's compare (R151): `match = (Z = 2 and v = 0x03)`. -/
def zMatch (z : BitVec 2) (v : Byte) : Bool := z == 2#2 && v == 0x03#8

/-- The equivalent detector's register Z after a byte (R151): `(v = 0x00) ? min(Z + 1, 2) : 0`, the zero bytes that end the
stream so far, capped at 2. -/
def zNext (z : BitVec 2) (v : Byte) : BitVec 2 :=
  if v = 0x00#8 then BitVec.ofNat 2 (min (z.toNat + 1) 2) else 0#2

/-- The stream index at which the equivalent detector first matches, counted from `j` (R151). -/
def zFirst (z : BitVec 2) (j : Nat) (stream : List Byte) : Option Nat :=
  match stream with
  | [] => none
  | v :: rest => if zMatch z v then some j else zFirst (zNext z v) (j + 1) rest

end Sys2Proof.Machine
end

