-- ==== Sys2Proof/Machine/StreamCipher.lean ====
section
/-!
DEFINITION. The StreamCipher unit: ENCRYPT and DECRYPT (41_stream_cipher.md).
-/

namespace Sys2Proof.Machine

/-- The keystream XOR of `bs`, whose first byte stands at stream position `pos` (R110: the password byte at
`pos mod |p|`). -/
def xorFrom (p : List Byte) (pos : Nat) (bs : List Byte) : List Byte :=
  match bs with
  | [] => []
  | b :: rest => (b ^^^ p.getD (pos % p.length) 0x00#8) :: xorFrom p (pos + 1) rest

/-- `XorStream(bs, p)` (R110). The commands test for an empty password before they evaluate it (R111). -/
def xorStream (bs p : List Byte) : List Byte := xorFrom p 0 bs

/-- The one operation of ENCRYPT and DECRYPT (R111): IBUF ciphered with KEY into OBUF. -/
def cipherBuffer (s : State) : Host.Outcome State Fault Refusal :=
  if s.klen = 0 then .next (raiseErr .obuf .invalidKey s)
  else .next (finish .ok (setObuf (xorStream s.ibuf s.key) s))

/-- ENCRYPT (R111). -/
def execEncrypt (s : State) : Host.Outcome State Fault Refusal := cipherBuffer s

/-- DECRYPT (R112): the same operation. -/
def execDecrypt (s : State) : Host.Outcome State Fault Refusal := cipherBuffer s

end Sys2Proof.Machine
end

