-- ==== Sys2Proof/Machine/MessageCodec.lean ====
section
/-!
DEFINITION. The MessageCodec: HIDE and REVEAL (45_message_codec.md).
-/

namespace Sys2Proof.Machine

/-- `Payload(M, P)` (R160): the ciphertext followed by the terminator, which is never encrypted. -/
def payload (m p : List Byte) : List Byte := xorStream m p ++ term

/-- HIDE (R161): InvalidKeyError first, then CapacityError, then the payload into the blue LSBs. -/
def execHide (s : State) : Host.Outcome State Fault Refusal :=
  if s.klen = 0 then .next (raiseErr .grid .invalidKey s)
  else if overCapacity s.grid (s.ilen + 3) then .next (raiseErr .grid .capacity s)
  else .next (finish .ok (setBlue (embedFn s.grid (payload s.ibuf s.key)) s))

/-- REVEAL (R162): TerminatorNotFoundError first, then InvalidKeyError, then the deciphered bytes in OBUF. -/
def execReveal (s : State) : Host.Outcome State Fault Refusal :=
  match extractFn s.grid with
  | none => .next (raiseErr .obuf .terminatorNotFound s)
  | some c =>
    if s.klen = 0 then .next (raiseErr .obuf .invalidKey s)
    else .next (finish .ok (setObuf (xorStream c s.key) s))

end Sys2Proof.Machine
end

