-- ==== Sys2Proof/Machine/Dispatch.lean ====
section
/-!
DEFINITION. The command-level meaning of every command (R8, R96): one arm per row of the opcode table.
-/

namespace Sys2Proof.Machine

def exec (i : Instr) (s : State) : Host.Outcome State Fault Refusal :=
  match i with
  | .encrypt => Sys2Proof.Machine.execEncrypt s
  | .decrypt => Sys2Proof.Machine.execDecrypt s
  | .b2bits => Sys2Proof.Machine.execB2bits s
  | .bits2b => Sys2Proof.Machine.execBits2b s
  | .embed => Sys2Proof.Machine.execEmbed s
  | .extract => Sys2Proof.Machine.execExtract s
  | .hide => Sys2Proof.Machine.execHide s
  | .reveal => Sys2Proof.Machine.execReveal s

end Sys2Proof.Machine
end

