-- ==== Sys2Proof/Machine/Sequencer.lean ====
section
/-!
DEFINITION. The step level (R8, R172): the sequencer that runs an issued command one element at a time over the working
registers of R24 to R30. The rows of R172 are `checkStep`, `runStep`, `run2Step` and `doneStep`; the element steps are those
of R116, R127, R134, R144 to R147 and R165. The result of a command whose destination is OBUF is built in OBUF (R34; when it
is emptied is DEDUCED, log entry 10), and RUN to DONE is a step of its own (DEDUCED, log entry 12).
-/

namespace Sys2Proof.Machine

/-- To DONE with a result code (R172, R184): the destination is treated by kind and ERR takes the code, while BUSY is 1 until
the sequencer is IDLE again (R30; DEDUCED, log entry 11). -/
def toDone (d : Dest) (e : ErrCode) (s : State) : State :=
  { clearDest d s with status := statusWord true (errNumber e), ph := .done }

/-- To DONE with success: the destination holds its result already. -/
def succeed (s : State) : State := toDone .nowhere .ok s

/-- The preconditions the CHECK phase tests, in the order of R172 and R186. -/
def precheck (i : Instr) (s : State) : Option ErrCode :=
  match i with
  | .encrypt => if s.klen = 0 then some .invalidKey else none
  | .decrypt => if s.klen = 0 then some .invalidKey else none
  | .b2bits => none
  | .bits2b => if s.blen = 8 then none else some .illegalOperation
  | .embed => if overCapacity s.grid s.ilen then some .capacity else none
  | .extract => none
  | .hide =>
    if s.klen = 0 then some .invalidKey
    else if overCapacity s.grid (s.ilen + 3) then some .capacity else none
  | .reveal => none

/-- A result that is built in OBUF (R34) starts empty, before the first element step (R41; DEDUCED, log entry 10). BBUF and
the grid keep what they hold until the command writes them (R35, R127, R134). -/
def clearResult (d : Dest) (s : State) : State :=
  match d with
  | .nowhere => s
  | .obuf => setObuf [] s
  | .bbuf => s
  | .grid => s

/-- CHECK to RUN (R172). -/
def startRun (i : Instr) (s : State) : State := { clearResult (destOf i) s with ph := .run }

/-- The CHECK phase (R172): an illegal byte or a failed precondition goes to DONE with its error, anything else to RUN. -/
def checkStep (s : State) : State :=
  match decode s.cmd with
  | .illegal _ => toDone .nowhere .illegalOperation s
  | .command i =>
    match precheck i s with
    | some e => toDone (destOf i) e s
    | none => startRun i s

/-- `(KIDX + 1 = KLEN) ? 0 : KIDX + 1` (R26). -/
def kidxNext (s : State) : Nat := if s.kidx + 1 = s.klen then 0 else s.kidx + 1

/-- One byte step of ENCRYPT or DECRYPT (R116). -/
def cipherStep (s : State) : Host.Outcome State Fault Refusal :=
  if s.i < s.ilen then
    match s.ibuf[s.i]?, s.key[s.kidx]? with
    | some b, some k => .next { s with obuf := s.obuf ++ [b ^^^ k], kidx := kidxNext s, i := s.i + 1 }
    | _, _ => .fault .noElement
  else .next (succeed s)

/-- `BCNT + 1`, and 0 when that makes 8: the number of bits of the current byte already handled (R28). -/
def bcntNext (s : State) : BitVec 4 := if s.bcnt + 1#4 = 8#4 then 0#4 else s.bcnt + 1#4

/-- One bit leaves ACC at bit 7 for the result (R27, R126), and BCNT counts it (R28). -/
def shiftToResult (s : State) : State :=
  { s with result := s.result ++ [s.acc.getLsbD 7], acc := s.acc <<< 1, bcnt := bcntNext s }

/-- `k` bits leave ACC for the result, one after another. -/
def serialise (k : Nat) (s : State) : State :=
  match k with
  | 0 => s
  | k + 1 => serialise k (shiftToResult s)

/-- One byte step of B2BITS (R127): ACC takes byte I and its eight bits are shifted out to the result (R27); at I = ILEN BBUF
takes the result. That ACC and BCNT work within the one byte step is DEDUCED (log entry 23). -/
def b2bitsStep (s : State) : Host.Outcome State Fault Refusal :=
  if s.i < s.ilen then
    match s.ibuf[s.i]? with
    | some b => .next { serialise 8 { s with acc := b } with i := s.i + 1 }
    | none => .fault .noElement
  else .next (succeed (setBbuf s.result s))

/-- The single step of BITS2B (R127; DEDUCED, log entry 24). -/
def bits2bStep (s : State) : Host.Outcome State Fault Refusal :=
  if s.blen = 8 then .next (succeed (setObuf [bitsToByte s.bbuf] s)) else .fault .noElement

/-- Shift one bit out of ACC into the blue LSB of pixel N (R134); BCNT counts it (R28; R134 does not name BCNT: DEDUCED, log
entry 23). -/
def shiftOut (s : State) : Host.Outcome State Fault Refusal :=
  match pixReadB s s.n with
  | none => .fault .noElement
  | some old =>
    match pixWriteB s s.n (lsbWrite old (s.acc.getLsbD 7)) with
    | none => .fault .noElement
    | some t => .next { t with acc := s.acc <<< 1, bcnt := bcntNext s, n := s.n + 1 }

/-- At a byte boundary EMBED loads ACC from IBUF (R134). -/
def loadEmbed (s : State) : Option State :=
  if s.n % 8 = 0 then
    match s.ibuf[s.n / 8]? with
    | some v => some { s with acc := v }
    | none => none
  else some s

/-- At a byte boundary HIDE loads ACC with a ciphered byte of IBUF, or after those with a byte of TERM (R165). I advances with
KIDX, so that KIDX = I mod KLEN (R26); R165 and the list of R25 do not name I in HIDE (DEDUCED, log entry 28). -/
def loadHide (s : State) : Option State :=
  if s.n % 8 = 0 then
    if s.n / 8 < s.ilen then
      match s.ibuf[s.n / 8]?, s.key[s.kidx]? with
      | some b, some k => some { s with acc := b ^^^ k, kidx := kidxNext s, i := s.i + 1 }
      | _, _ => none
    else
      match term[s.n / 8 - s.ilen]? with
      | some v => some { s with acc := v }
      | none => none
  else some s

/-- One pixel step of EMBED or HIDE over `bitCount` bits, with the command's byte load (R134, R165). -/
def pixelOut (load : State → Option State) (bitCount : Nat) (s : State) : Host.Outcome State Fault Refusal :=
  if s.n < bitCount then
    match load s with
    | some t => shiftOut t
    | none => .fault .noElement
  else .next (succeed s)

/-- The byte step of the terminator detector (R146): a full queue gives its front to the output and takes `v` at the back; a
queue still filling takes `v` at its end. -/
def byteStep (v : Byte) (s : State) : State :=
  match s.qlen.toNat with
  | 0 => { s with q0 := v, qlen := 1#2 }
  | 1 => { s with q1 := v, qlen := 2#2 }
  | 2 => { s with q2 := v, qlen := 3#2 }
  | _ => { s with obuf := s.obuf ++ [s.q0], i := s.i + 1, q0 := s.q1, q1 := s.q2, q2 := v }

/-- The compare of R146: the queue holds exactly the terminator. -/
def found (s : State) : Bool :=
  s.qlen == 3#2 && s.q0 == 0x00#8 && s.q1 == 0x00#8 && s.q2 == 0x03#8

/-- ACC with the next bit shifted in at its low end (R126, R145). -/
def shiftIn (acc : Byte) (b : Bit) : Byte := (acc <<< 1) ||| zextBit b

/-- The pixel step of the terminator detector (R145). -/
def pixelIn (s : State) : Host.Outcome State Fault Refusal :=
  match pixReadB s s.n with
  | none => .fault .noElement
  | some v =>
    let acc := shiftIn s.acc (v.getLsbD 0)
    if s.bcnt + 1#4 = 8#4 then
      .next (byteStep acc { s with acc := 0x00#8, bcnt := 0#4, n := s.n + 1 })
    else .next { s with acc := acc, bcnt := s.bcnt + 1#4, n := s.n + 1 }

/-- RUN of EXTRACT (R147, R172): `found` first, then a pixel step, then exhaustion. -/
def extractStep (s : State) : Host.Outcome State Fault Refusal :=
  if found s then .next (succeed s)
  else if s.n < s.grid.pixCount then pixelIn s
  else .next (toDone .obuf .terminatorNotFound s)

/-- RUN of REVEAL (R165, R172): as EXTRACT, but on `found` the password is tested and RUN2 follows. -/
def revealStep (s : State) : Host.Outcome State Fault Refusal :=
  if found s then
    if s.klen = 0 then .next (toDone .obuf .invalidKey s)
    else .next { s with ph := .run2, i := 0, kidx := 0 }
  else if s.n < s.grid.pixCount then pixelIn s
  else .next (toDone .obuf .terminatorNotFound s)

/-- The RUN phase (R172): one element step of the command OPL holds. -/
def runStep (s : State) : Host.Outcome State Fault Refusal :=
  match decodeOp s.opl with
  | some .encrypt => cipherStep s
  | some .decrypt => cipherStep s
  | some .b2bits => b2bitsStep s
  | some .bits2b => bits2bStep s
  | some .embed => pixelOut loadEmbed (8 * s.ilen) s
  | some .extract => extractStep s
  | some .hide => pixelOut loadHide (8 * (s.ilen + 3)) s
  | some .reveal => revealStep s
  | none => .fault .noCommand

/-- The RUN2 phase (R165, R172): REVEAL deciphers OBUF in place. -/
def run2Step (s : State) : Host.Outcome State Fault Refusal :=
  if s.opl = opOf .reveal then
    if s.i < s.olen then
      match s.obuf[s.i]?, s.key[s.kidx]? with
      | some b, some k => .next { s with obuf := s.obuf.set s.i (b ^^^ k), kidx := kidxNext s, i := s.i + 1 }
      | _, _ => .fault .noElement
    else .next (succeed s)
  else .fault .noCommand

/-- DONE to IDLE (R171, R172): BUSY falls, ERR stays. -/
def doneStep (s : State) : State := { s with status := statusWord false s.err, ph := .idle }

/-- One step of the sequencer (R172); an idle core waits (R200). -/
def coreStep (s : State) : Host.Outcome State Fault Refusal :=
  match s.ph with
  | .idle => .next s
  | .check => .next (checkStep s)
  | .run => runStep s
  | .run2 => run2Step s
  | .done => .next (doneStep s)

end Sys2Proof.Machine
end

