-- ==== Sys2Proof/WellFormed.lean ====
section
/-!
DEFINITION. The checks on what the host hands over. A command has no operands (R97), so every command is well formed; a load
must fit its buffer, a grid must have exactly W*H pixels, a register must exist (R68, R174, R202, U5, U6, U7).
-/

namespace Sys2Proof

/-- A command carries no operand bits (R97), so there is nothing a command could get wrong. -/
def Instr.wellFormed (i : Instr) : Bool :=
  match i with
  | .encrypt => true
  | .decrypt => true
  | .b2bits => true
  | .bits2b => true
  | .embed => true
  | .extract => true
  | .hide => true
  | .reveal => true

/-- A grid of `w` by `h` pixels has exactly `w * h` values in each of its channels (R202, U7). -/
def gridShapeOk (w h : Nat) (red green blue : List Byte) (alpha : Option (List Byte)) : Bool :=
  red.length == w * h && green.length == w * h && blue.length == w * h &&
    (match alpha with
     | none => true
     | some a => a.length == w * h)

/-- Register numbers are 0 to 7 (R68). -/
def registerExists (r : Nat) : Bool := decide (r < 8)

/-- The only register a host may write is CMD, register 0 (10_state.md, table of section 2). -/
def registerWritable (r : Nat) : Bool := decide (r = 0)

/-- A host move is well formed for a configuration `c`: everything the specification asks of it that does not depend on the
state it meets (the premises LoadsFit and WellFormedGrid of R179). -/
def HostMove.wellFormed (c : Option Caps) (m : HostMove) : Bool :=
  match m with
  | .loadIbuf bs => withinCap c Caps.nin bs.length
  | .loadKey bs => withinCap c Caps.nkey bs.length
  | .loadBbuf bits => withinCap c Caps.nbit bits.length
  | .attachGrid w h red green blue alpha => gridShapeOk w h red green blue alpha && withinCap c Caps.maxpix (w * h)
  | .readPixel _ _ => true
  | .writePixel _ _ _ => true
  | .readReg r => registerExists r
  | .readObuf _ => true
  | .readBbuf _ => true
  | .writeReg r _ => registerWritable r
  | .issue _ => true
  | .wait => true
  | .reset => true

end Sys2Proof
end

