-- ==== Sys2Proof/Machine/HostMoves.lean ====
section
/-!
DEFINITION. The host's moves (R100, R170, R173, R174, R178, R200, R206). A move the specification puts outside its rules is
refused by name (U1, U4 to U7).
-/

namespace Sys2Proof.Machine

/-- A machine whose configuration violates R11 is refused, whatever it would do next (D11, U6; DESIGN CHOICE, log entry 21). -/
def underLegalConfig (s : State) (o : Host.Outcome State Fault Refusal) : Host.Outcome State Fault Refusal :=
  if configLegal s.caps then o else .refused .illegalConfiguration

/-- A move the host may make only while STATUS.BUSY = 0 (R174, R206, U1). -/
def whileIdle (s : State) (o : Host.Outcome State Fault Refusal) : Host.Outcome State Fault Refusal :=
  if s.busy then .refused .hostMoveWhileBusy else o

/-- A load of `len` elements that must fit a capacity (R100, R174, U6). -/
def loadIfFits (cap : Caps → Nat) (len : Nat) (s : State) : Host.Outcome State Fault Refusal :=
  if withinCap s.caps cap len then .next s else .refused .overCapacity

/-- The grid of a `GRID` line (R100): channel values in order of n (R61). -/
def gridOf (w h : Nat) (red green blue : List Byte) (alpha : Option (List Byte)) : Grid :=
  { w := w, h := h, hasAlpha := alpha.isSome, red := memOfList 0 red, green := memOfList 0 green,
    blue := memOfList 0 blue, alpha := memOfList 0 (alpha.getD []) }

/-- The host attaches a grid (R174, R202): malformed or too large, it is refused (U6, U7). Only W*H is tested: a grid with W or
H equal to 0 is attached whatever its other dimension, also one that LENW bits do not hold, which the spec leaves open
(R9, R33; DESIGN CHOICE, log entry 27). -/
def attach (w h : Nat) (red green blue : List Byte) (alpha : Option (List Byte)) (s : State) :
    Host.Outcome State Fault Refusal :=
  if gridShapeOk w h red green blue alpha then
    loadIfFits Caps.maxpix (w * h) { s with grid := gridOf w h red green blue alpha }
  else .refused .malformedGrid

/-- The host gets a value back; a read changes nothing of the machine (R67, R173). -/
def answer (v : Nat) (s : State) : Host.Outcome State Fault Refusal := .next { s with seen := v :: s.seen }

/-- The host reads a channel of a pixel (R174). -/
def readPixel (c : Channel) (n : Nat) (s : State) : Host.Outcome State Fault Refusal :=
  match channelOf s.grid c with
  | none => .refused .noSuchChannel
  | some m => if n < s.grid.pixCount then answer (memRead m n).toNat s else .refused .noSuchPixel

/-- The host writes a channel of a pixel (R174). -/
def writePixel (c : Channel) (n : Nat) (v : Byte) (s : State) : Host.Outcome State Fault Refusal :=
  match channelOf s.grid c with
  | none => .refused .noSuchChannel
  | some m =>
    if n < s.grid.pixCount then .next { s with grid := withChannel s.grid c (memWrite m n v) }
    else .refused .noSuchPixel

/-- The host reads a register (R173): while BUSY = 1 only STATUS. -/
def readRegister (r : Nat) (s : State) : Host.Outcome State Fault Refusal :=
  if s.busy && r != 1 then .refused .hostMoveWhileBusy
  else
    match regValue s r with
    | some v => answer v s
    | none => .refused .noSuchRegister

/-- The host reads an element of OBUF (R42, R174, U4). -/
def readObufAt (k : Nat) (s : State) : Host.Outcome State Fault Refusal :=
  match s.obuf[k]? with
  | some v => answer v.toNat s
  | none => .refused .noSuchElement

/-- The host reads an element of BBUF (R42, R174, U4). -/
def readBbufAt (k : Nat) (s : State) : Host.Outcome State Fault Refusal :=
  match s.bbuf[k]? with
  | some b => answer b.toNat s
  | none => .refused .noSuchElement

/-- The command level (R8, R170): the write of a byte to CMD is the issue and the completion of the command it encodes. A
byte that encodes none completes at once with IllegalOperation (R98). -/
def runCommand (c : Byte) (s : State) : Host.Outcome State Fault Refusal :=
  match decode c with
  | .command i => exec i (issue c s)
  | .illegal _ => .next (raiseErr .nowhere .illegalOperation (issue c s))

/-- The host writes a register: CMD issues a command (R21), registers 1 to 7 are read-only, others do not exist (U5). -/
def writeRegister (r : Nat) (v : Byte) (s : State) : Host.Outcome State Fault Refusal :=
  if registerWritable r then runCommand v s
  else if registerExists r then .refused .readOnlyRegister
  else .refused .noSuchRegister

/-- One move of the host. -/
def hostMove (m : HostMove) (s : State) : Host.Outcome State Fault Refusal :=
  match m with
  | .loadIbuf bs => whileIdle s (loadIfFits Caps.nin bs.length { s with ibuf := bs })
  | .loadKey bs => whileIdle s (loadIfFits Caps.nkey bs.length { s with key := bs })
  | .loadBbuf bits => whileIdle s (loadIfFits Caps.nbit bits.length { s with bbuf := bits })
  | .attachGrid w h red green blue alpha => whileIdle s (attach w h red green blue alpha s)
  | .readPixel c n => whileIdle s (readPixel c n s)
  | .writePixel c n v => whileIdle s (writePixel c n v s)
  | .readReg r => readRegister r s
  | .readObuf k => whileIdle s (readObufAt k s)
  | .readBbuf k => whileIdle s (readBbufAt k s)
  | .writeReg r v => whileIdle s (writeRegister r v s)
  | .issue v => whileIdle s (.next (issue v s))
  | .wait => coreStep s
  | .reset => .next (coreReset s)

end Sys2Proof.Machine
end

