-- ==== Sys2Proof/Machine/Step.lean ====
section
/-!
DEFINITION. One step of the whole machine (R7): the host makes its next move, and where it has none to make the core runs on,
or waits when it is idle (R200). A machine with an illegal configuration makes no step (U6).
-/

namespace Sys2Proof.Machine

/-- One step: the next host move of the script, or a step of the core when the script is empty (DESIGN CHOICE, log
entry 2); an illegal configuration is refused (DESIGN CHOICE, log entry 21). -/
def step (s : State) : Host.Outcome State Fault Refusal :=
  underLegalConfig s
    (match s.script with
    | [] => coreStep s
    | m :: rest => hostMove m { s with script := rest })

/-- `s` with the command byte `w` where the next step fetches it: the host's next move writes it to CMD, and the core is idle
to take it (R170). A command is one byte (R95), so no bits stand above the `nbits` of a table row (DESIGN CHOICE, log entry 3). -/
def State.withFetchWord (s : State) (nbits w : Nat) : State :=
  { s with script := .writeReg 0 (BitVec.ofNat 8 (w % 2 ^ nbits)) :: s.script,
           status := statusWord false s.err, ph := .idle }

end Sys2Proof.Machine
end

