-- ==== Sys2Proof/Safety.lean ====
section
/-!
DEFINITION. What the statements take as a safe machine: the named premises of R179, the capacities (R11), and the invariant
that every step keeps, with the loop invariants of the step level (R24 to R30, R116, R148, R165).
-/

namespace Sys2Proof.Machine

/-- The premise Idle of R179. -/
def Idle (s : State) : Prop := s.busy = false ∧ s.ph = .idle

/-- The premise LegalConfig of R179: the machine's configuration, where it has one, satisfies R11. -/
def LegalConfig (s : State) : Prop := ∀ c, s.caps = some c → c.Legal

/-- STATUS is what R22 and R30 let it be: BUSY exactly when the sequencer is not IDLE, RSV zero, ERR one of 0 to 4. -/
structure StatusOk (s : State) : Prop where
  busy_iff_not_idle : s.busy = decide (s.ph ≠ .idle)
  rsv_zero : s.statusRsv = 0#4
  err_listed : s.err.toNat ≤ 4

/-- Before the first element step the working registers hold what the issue gave them (R41). -/
structure CheckOk (s : State) : Prop where
  n_zero : s.n = 0
  i_zero : s.i = 0
  kidx_zero : s.kidx = 0
  acc_zero : s.acc = 0x00#8
  bcnt_zero : s.bcnt = 0#4
  qlen_zero : s.qlen = 0#2
  result_empty : s.result = []

/-- ENCRYPT and DECRYPT between two byte steps: KIDX = I mod KLEN (R26, R116), and OBUF holds the I bytes ciphered so far. -/
structure CipherOk (s : State) : Prop where
  key_nonempty : s.klen ≠ 0
  i_le : s.i ≤ s.ilen
  kidx_eq : s.kidx = s.i % s.klen
  out_eq : s.obuf = xorStream (s.ibuf.take s.i) s.key

/-- B2BITS between two byte steps (R127): the result holds the bits of the I bytes serialised so far, and the last byte has
left ACC whole (R27, R28; DEDUCED, log entry 23). -/
structure B2bitsOk (s : State) : Prop where
  i_le : s.i ≤ s.ilen
  out_eq : s.result = bytesToBits (s.ibuf.take s.i)
  acc_zero : s.acc = 0x00#8
  bcnt_zero : s.bcnt = 0#4

/-- EMBED between two pixel steps: the payload fits, N has not passed its bits (R24, R134) and BCNT = N mod 8 (R28; DEDUCED,
log entry 23). -/
structure EmbedOk (s : State) : Prop where
  fits : 8 * s.ilen ≤ s.grid.pixCount
  n_le : s.n ≤ 8 * s.ilen
  bcnt_eq : s.bcnt.toNat = s.n % 8

/-- HIDE between two pixel steps: as EMBED, and I and KIDX stand at the next byte to cipher (R26, R165; DEDUCED, log
entry 28): (N + 7) div 8 bytes have been loaded, of which at most ILEN were ciphered. -/
structure HideOk (s : State) : Prop where
  key_nonempty : s.klen ≠ 0
  fits : 8 * (s.ilen + 3) ≤ s.grid.pixCount
  n_le : s.n ≤ 8 * (s.ilen + 3)
  bcnt_eq : s.bcnt.toNat = s.n % 8
  i_eq : s.i = min ((s.n + 7) / 8) s.ilen
  kidx_eq : s.kidx = s.i % s.klen

/-- `TERM` stands at index `k` of a byte sequence (R149). -/
abbrev termAt (c : List Byte) (k : Nat) : Prop := (c.drop k).take 3 = term

/-- The valid entries of the lookahead queue, front first (R29). -/
def queueOf (s : State) : List Byte := [s.q0, s.q1, s.q2].take s.qlen.toNat

/-- The terminator detector between two pixel steps, with j = N div 8 bytes completed (R148). -/
structure ScanOk (s : State) : Prop where
  n_le : s.n ≤ s.grid.pixCount
  bcnt_eq : s.bcnt.toNat = s.n % 8
  qlen_eq : s.qlen.toNat = min (s.n / 8) 3
  i_eq : s.i = s.olen
  /-- Every byte read so far is delivered or pending: `out ++ queue = B[0 .. j)`. -/
  bytes_eq : s.obuf ++ queueOf s = (byteStream s.grid).take (s.n / 8)
  /-- ACC holds the BCNT bits read since the last byte boundary in its low bits, earliest highest, and 0 above them. -/
  acc_bits : ∀ k, k < 8 → s.acc.getLsbD k = (decide (k < s.n % 8) && blueLsb s.grid (s.n - 1 - k))
  /-- No pixel was read after a match: a window whose last pixel lies before the newest one is not the terminator (R147). -/
  no_match_before : ∀ k, 8 * (k + 3) < s.n → ¬ termAt (byteStream s.grid) k

/-- REVEAL's second phase between two byte steps (R26, R165): KIDX = I mod KLEN, and OBUF holds the bytes the scan gave, the
first I of them deciphered. -/
structure Run2Ok (s : State) : Prop where
  opl_reveal : s.opl = opOf .reveal
  key_nonempty : s.klen ≠ 0
  i_le : s.i ≤ s.olen
  kidx_eq : s.kidx = s.i % s.klen
  out_eq : ∃ out, extractFn s.grid = some out ∧ s.obuf = xorStream (out.take s.i) s.key ++ out.drop s.i

/-- The loop invariant of the command OPL holds, in the RUN phase. -/
def RunOk (s : State) : Prop :=
  match decodeOp s.opl with
  | some .encrypt => CipherOk s
  | some .decrypt => CipherOk s
  | some .b2bits => B2bitsOk s
  | some .bits2b => s.blen = 8
  | some .embed => EmbedOk s
  | some .extract => ScanOk s
  | some .hide => HideOk s
  | some .reveal => ScanOk s
  | none => False

/-- The invariant of the machine: STATUS agrees with PH, OPL with CMD, the grid is well formed (R179, WellFormedGrid), and
each phase has its loop invariant. -/
structure Inv (s : State) : Prop where
  status : StatusOk s
  opl : s.ph ≠ .idle → s.opl = cmdOp s.cmd
  grid : s.grid.wf
  check : s.ph = .check → CheckOk s
  run : s.ph = .run → RunOk s
  run2 : s.ph = .run2 → Run2Ok s

/-- Every buffer and the grid are within the capacities `c` (R31, R32, R34, R35, R174). -/
structure Fits (c : Caps) (s : State) : Prop where
  ibuf : s.ilen ≤ c.nin
  key : s.klen ≤ c.nkey
  obuf : s.olen ≤ c.nout
  bbuf : s.blen ≤ c.nbit
  grid : s.grid.pixCount ≤ c.maxpix

/-- `B` is the byte stream of a grid, bit by bit (R94, R140): the blue LSB of pixel 8j + k is bit 7 - k of `B j`. -/
def IsStream (g : Grid) (B : Nat → Byte) : Prop :=
  ∀ j k, k < 8 → (B j).getLsbD (7 - k) = (memRead g.blue (8 * j + k)).getLsbD 0

/-- The three stream bytes that end at index `t` are the terminator (R142). -/
def WindowAt (B : Nat → Byte) (t : Nat) : Prop := B (t - 2) = 0x00#8 ∧ B (t - 1) = 0x00#8 ∧ B t = 0x03#8

/-- `t` is the least stream index of R142. -/
def FirstWindow (g : Grid) (B : Nat → Byte) (t : Nat) : Prop :=
  2 ≤ t ∧ t < g.pixCount / 8 ∧ WindowAt B t ∧ ∀ j, 2 ≤ j → j < t → ¬ WindowAt B j

/-- No stream index is one R142 asks for. -/
def NoWindow (g : Grid) (B : Nat → Byte) : Prop := ∀ t, 2 ≤ t → t < g.pixCount / 8 → ¬ WindowAt B t

end Sys2Proof.Machine
end

