-- ==== Sys2Proof/Certificates/Slice0/Obligations.lean ====
section
/-!
DEFINITION. The statements about the machine. Each docstring names the rules of the specification it formalises.
-/

open Sys2Proof Sys2Proof.Machine

/-! ### The command register -/

/-- R96, by the words of its column "CMD byte". -/
def Obligations.DecoderReadsTheEightCommandBytes : Prop :=
  decode 0b00000001#8 = .command .encrypt ∧ decode 0b00000010#8 = .command .decrypt ∧
  decode 0b00000011#8 = .command .b2bits ∧ decode 0b00000100#8 = .command .bits2b ∧
  decode 0b00000101#8 = .command .embed ∧ decode 0b00000110#8 = .command .extract ∧
  decode 0b00000111#8 = .command .hide ∧ decode 0b00001000#8 = .command .reveal

/-- R95: a byte decodes to a command exactly when it is that command's encoding; every other byte is illegal by name, by RSV
or by OP. -/
def Obligations.DecodeAndEncodeAgree : Prop :=
  (∀ (c : Byte) (i : Instr), decode c = .command i ↔ c = encode i) ∧
  (∀ c : Byte, decode c = .illegal .rsvNotZero ↔ c.extractLsb' 4 4 ≠ 0#4) ∧
  (∀ c : Byte, decode c = .illegal .opReserved ↔
    c.extractLsb' 4 4 = 0#4 ∧ (c.extractLsb' 0 4 = 0#4 ∨ 9 ≤ (c.extractLsb' 0 4).toNat))

/-- R98: a byte that encodes no command completes at once with IllegalOperation, BUSY stays 0, and no buffer, no length and
no pixel changes; exactly the bytes 1 to 8 encode commands, no two of them the same one; DECRYPT has a code of its own
although it computes what ENCRYPT computes. -/
def Obligations.IllegalByteOnlySetsErr4 : Prop :=
  (∀ c d : Byte, ∀ i, decode c = .command i → decode d = .command i → c = d) ∧
  (decode 0x01#8 = .command .encrypt ∧ decode 0x02#8 = .command .decrypt ∧ ∀ s, exec .decrypt s = exec .encrypt s) ∧
  (∀ c : Byte, (∃ i, decode c = .command i) ↔ 1 ≤ c.toNat ∧ c.toNat ≤ 8) ∧
  ∀ (s : State) (c : Byte) (rest : List HostMove),
    LegalConfig s → s.busy = false → s.script = .writeReg 0 c :: rest → (c.toNat = 0 ∨ 9 ≤ c.toNat) →
    ∃ t, step s = .next t ∧ t.err = 4#3 ∧ t.busy = false ∧ t.statusRsv = 0#4 ∧ t.cmd = c ∧ t.ph = .idle ∧
      t.ibuf = s.ibuf ∧ t.key = s.key ∧ t.obuf = s.obuf ∧ t.bbuf = s.bbuf ∧ t.grid = s.grid ∧
      t.script = rest ∧ t.seen = s.seen

/-- R8, R21: the write of a command's byte to CMD runs that command, issued, in one step. That the issue initialises every
working register whatever the command is the model's reading of R170 (log entry 29). -/
def Obligations.StepRunsTheDecodedCommand : Prop :=
  (∀ (s : State) (c : Byte) (i : Instr) (rest : List HostMove),
    LegalConfig s → s.busy = false → s.script = .writeReg 0 c :: rest → decode c = .command i →
    step s = exec i (issue c { s with script := rest })) ∧
  ∀ (s : State) (w : Nat) (i : Instr), LegalConfig s → w < 256 → decodeTableWord 8 w = some i →
    step (s.withFetchWord 8 w) =
      exec i (issue (encode i) { s with status := statusWord false s.err, ph := .idle })

/-- R170, R41: issue writes CMD, clears ERR, sets BUSY, latches OPL, initialises the working registers and the result under
construction and starts the command in CHECK, on the operands as they stand. R170, R171: at the command level the same write
returns with the command done, BUSY = 0 and PH = IDLE, IBUF and KEY as they were; that OPL then still holds c[3:0] is the
model's choice (log entry 1), since R20 says that OPL is no state at that level. That OBUF still holds what it held right
after the step-level issue is the model's reading of R34 and R41 (log entry 10), and that a byte which encodes no command is
issued like any other, working registers and OPL among it, its reading of R98 and R170 (log entry 16). That the issue
initialises every working register, also those the command does not use and QLEN outside EXTRACT and REVEAL, is its reading of
R170 beside R29 and R41 (log entry 29). -/
def Obligations.IssueLatchesAndCommandCompletes : Prop :=
  ∀ (s : State) (c : Byte) (rest : List HostMove), LegalConfig s → s.busy = false →
    (s.script = .issue c :: rest →
      ∃ t, step s = .next t ∧ t.cmd = c ∧ t.err = 0#3 ∧ t.busy = true ∧ t.opl = c.extractLsb' 0 4 ∧
        t.n = 0 ∧ t.i = 0 ∧ t.kidx = 0 ∧ t.acc = 0x00#8 ∧ t.bcnt = 0#4 ∧ t.qlen = 0#2 ∧ t.result = [] ∧
        t.ph = .check ∧ t.ibuf = s.ibuf ∧ t.key = s.key ∧ t.obuf = s.obuf ∧ t.bbuf = s.bbuf ∧ t.grid = s.grid ∧
        t.script = rest ∧ t.seen = s.seen) ∧
    (s.script = .writeReg 0 c :: rest →
      ∃ t, step s = .next t ∧ t.cmd = c ∧ t.opl = c.extractLsb' 0 4 ∧ t.busy = false ∧ t.ph = .idle ∧
        t.ibuf = s.ibuf ∧ t.key = s.key ∧ t.script = rest ∧ t.seen = s.seen)

/-! ### The StreamCipher -/

/-- R110, R111: ENCRYPT. With a password, byte k of OBUF is byte k of IBUF XOR byte k mod KLEN of KEY, ERR = 0, and nothing
else changes (every byte of the grid reads as before, since the grid is unchanged); with an empty password it is
InvalidKeyError and an empty OBUF. -/
def Obligations.EncryptXorsIbufWithCyclingKey : Prop :=
  decode 0x01#8 = .command .encrypt ∧
  ∀ s : State,
    (s.key ≠ [] → ∃ o : List Byte,
      exec .encrypt s = .next { s with obuf := o, status := 0x00#8, ph := .idle } ∧
      o.length = s.ibuf.length ∧
      ∀ k, k < s.ibuf.length → o[k]? = some (s.ibuf.getD k 0x00#8 ^^^ s.key.getD (k % s.key.length) 0x00#8)) ∧
    (s.key = [] → exec .encrypt s = .next { s with obuf := [], status := 0x01#8, ph := .idle })

/-- R110, R112: DECRYPT, the same operation under its own code. -/
def Obligations.DecryptXorsIbufWithCyclingKey : Prop :=
  decode 0x02#8 = .command .decrypt ∧
  ∀ s : State,
    (s.key ≠ [] → ∃ o : List Byte,
      exec .decrypt s = .next { s with obuf := o, status := 0x00#8, ph := .idle } ∧
      o.length = s.ibuf.length ∧
      ∀ k, k < s.ibuf.length → o[k]? = some (s.ibuf.getD k 0x00#8 ^^^ s.key.getD (k % s.key.length) 0x00#8)) ∧
    (s.key = [] → exec .decrypt s = .next { s with obuf := [], status := 0x01#8, ph := .idle })

/-- R113: ENCRYPT, then LOAD IBUF with the resulting OBUF, then DECRYPT with the same KEY leaves OBUF equal to the original
IBUF. -/
def Obligations.DecryptUndoesEncrypt : Prop :=
  (∀ bs p : List Byte, p ≠ [] → xorStream (xorStream bs p) p = bs) ∧
  ∀ s : State, s.key ≠ [] →
    ∃ t u, exec .encrypt s = .next t ∧ exec .decrypt { t with ibuf := t.obuf } = .next u ∧
      u.obuf = s.ibuf ∧ u.err = 0#3

/-- R205: a message ciphered in two pieces gets the keystream of the whole when the first piece's length is a multiple of
KLEN. -/
def Obligations.AlignedPiecesCipherAsTheWhole : Prop :=
  ∀ (s : State) (a b : List Byte), s.key ≠ [] → s.ibuf = a ++ b → a.length % s.key.length = 0 →
    ∃ t u v, exec .encrypt s = .next t ∧ exec .encrypt { s with ibuf := a } = .next u ∧
      exec .encrypt { s with ibuf := b } = .next v ∧ t.obuf = u.obuf ++ v.obuf

/-! ### The BitPacker -/

/-- R120, R122: B2BITS. Bit k of BBUF is bit 7 - (k mod 8) of byte k div 8 of IBUF, there are 8*ILEN of them, and under a
legal configuration they fit. -/
def Obligations.B2bitsEmitsBitsMsbFirst : Prop :=
  decode 0x03#8 = .command .b2bits ∧
  ∀ s : State, ∃ b : List Bit,
    exec .b2bits s = .next { s with bbuf := b, status := 0x00#8, ph := .idle } ∧
    b.length = 8 * s.ibuf.length ∧
    (∀ c : Caps, c.Legal → s.ibuf.length ≤ c.nin → b.length ≤ c.nbit) ∧
    ∀ k, k < 8 * s.ibuf.length → b[k]? = some ((s.ibuf.getD (k / 8) 0x00#8).getLsbD (7 - k % 8))

/-- R121, R123: BITS2B. Eight bits give the byte of the weights 128 to 1; any other BLEN is IllegalOperation and an empty
OBUF. -/
def Obligations.Bits2bAppliesTheWeights : Prop :=
  decode 0x04#8 = .command .bits2b ∧
  ∀ s : State,
    (∀ b0 b1 b2 b3 b4 b5 b6 b7 : Bit, s.bbuf = [b0, b1, b2, b3, b4, b5, b6, b7] →
      ∃ v : Byte, exec .bits2b s = .next { s with obuf := [v], status := 0x00#8, ph := .idle } ∧
        v.toNat = 128 * b0.toNat + 64 * b1.toNat + 32 * b2.toNat + 16 * b3.toNat + 8 * b4.toNat + 4 * b5.toNat +
          2 * b6.toNat + 1 * b7.toNat) ∧
    (s.bbuf.length ≠ 8 → exec .bits2b s = .next { s with obuf := [], status := 0x04#8, ph := .idle })

/-- R124: the inverse laws of the BitPacker. -/
def Obligations.BitPackerInverseLaws : Prop :=
  (∀ v : Byte, bitsToByte (bytesToBits [v]) = v) ∧
  (∀ b : List Bit, b.length = 8 → bytesToBits [bitsToByte b] = b) ∧
  (∀ bs cs : List Byte, bytesToBits (bs ++ cs) = bytesToBits bs ++ bytesToBits cs)

/-- R126: eight bits shifted in at the low end of ACC from 0 give bitsToByte of the bits in arrival order, and bytesToBits is
what a left-shifting ACC gives at bit 7. -/
def Obligations.ShiftRegisterPacksAndUnpacks : Prop :=
  (∀ b : List Bit, b.length = 8 → b.foldl shiftIn 0x00#8 = bitsToByte b) ∧
  ∀ (bs : List Byte) (k : Nat), k < 8 * bs.length →
    (bytesToBits bs)[k]? = some (((bs.getD (k / 8) 0x00#8) <<< (k % 8)).getLsbD 7)

/-! ### The Embedder -/

/-- R130, R131, R135: EMBED. When the bits fit, the LSB of pixel n takes bit 7 - (n mod 8) of byte n div 8 of IBUF for every
n below 8*ILEN, every other pixel reads as before, and red, green, alpha, W and H stay; otherwise it is CapacityError and
nothing is written. -/
def Obligations.EmbedWritesThePayloadBits : Prop :=
  decode 0x05#8 = .command .embed ∧
  ∀ s : State,
    (8 * s.ibuf.length ≤ s.grid.w * s.grid.h → ∃ m : Memory,
      exec .embed s = .next { s with grid := { s.grid with blue := m }, status := 0x00#8, ph := .idle } ∧
      ∀ n, memRead m n =
        if n < 8 * s.ibuf.length then
          (memRead s.grid.blue n &&& 0xFE#8) |||
            (if (s.ibuf.getD (n / 8) 0x00#8).getLsbD (7 - n % 8) then 0x01#8 else 0x00#8)
        else memRead s.grid.blue n) ∧
    (s.grid.w * s.grid.h < 8 * s.ibuf.length →
      exec .embed s = .next { s with status := 0x02#8, ph := .idle })

/-- R132: the LSB write keeps bits 7 to 1, sets bit 0, and moves the value by at most 1 without carry or wrap. -/
def Obligations.LsbWriteChangesOnlyBitZero : Prop :=
  ∀ (old : Byte) (b : Bit),
    lsbWrite old b = (old &&& 0xFE#8) ||| (if b then 0x01#8 else 0x00#8) ∧
    (lsbWrite old b).getLsbD 0 = b ∧ (∀ k, 1 ≤ k → (lsbWrite old b).getLsbD k = old.getLsbD k) ∧
    (lsbWrite old b).toNat =
      if old.getLsbD 0 = b then old.toNat else if b then old.toNat + 1 else old.toNat - 1

/-! ### The Extractor -/

/-- R140, R142, R143: EXTRACT. With the grid's byte stream B and the least t of R142, OBUF takes the t - 2 bytes before the
terminator, which fit OBUF under a legal configuration; where no such t exists it is TerminatorNotFoundError and an empty
OBUF. -/
def Obligations.ExtractReturnsBytesBeforeFirstTerminator : Prop :=
  decode 0x06#8 = .command .extract ∧
  ∀ (s : State) (B : Nat → Byte), IsStream s.grid B →
    (∀ t, FirstWindow s.grid B t →
      exec .extract s = .next { s with obuf := (List.range (t - 2)).map B, status := 0x00#8, ph := .idle } ∧
      t - 2 ≤ s.grid.w * s.grid.h / 8 - 3 ∧
      ∀ c : Caps, c.Legal → s.grid.w * s.grid.h ≤ c.maxpix → t - 2 < c.nout) ∧
    (NoWindow s.grid B → exec .extract s = .next { s with obuf := [], status := 0x03#8, ph := .idle })

/-- R140, R203: what EXTRACT and REVEAL answer depends on the number of pixels and the blue LSBs alone: not on W by itself,
not on bits 7 to 1 of blue, not on red, green or alpha, not on the up to 7 last pixels that complete no byte. -/
def Obligations.ExtractionDependsOnlyOnBlueLsbs : Prop :=
  ∀ s u : State, s.grid.w * s.grid.h = u.grid.w * u.grid.h → s.key = u.key →
    (∀ n, n < 8 * (s.grid.w * s.grid.h / 8) →
      (memRead s.grid.blue n).getLsbD 0 = (memRead u.grid.blue n).getLsbD 0) →
    ∃ a b c d, exec .extract s = .next a ∧ exec .extract u = .next b ∧ a.obuf = b.obuf ∧ a.err = b.err ∧
      exec .reveal s = .next c ∧ exec .reveal u = .next d ∧ c.obuf = d.obuf ∧ c.err = d.err

/-- R149: with a stream c ++ TERM ++ anything, EXTRACT returns c exactly when c contains no TERM; otherwise the bytes before
the least occurrence, with ERR = 0. -/
def Obligations.ExtractTruncatesAtFirstTermInside : Prop :=
  ∀ (s : State) (c tail : List Byte), byteStream s.grid = c ++ term ++ tail →
    ((∀ k, ¬ termAt c k) → exec .extract s = .next { s with obuf := c, status := 0x00#8, ph := .idle }) ∧
    ∀ k, termAt c k → (∀ j, j < k → ¬ termAt c j) →
      exec .extract s = .next { s with obuf := c.take k, status := 0x00#8, ph := .idle } ∧ c.take k ≠ c

/-- R151: the two-bit detector matches at exactly the byte at which the queue of R141 holds the terminator; and after any
byte steps of R146 from an empty queue, the next byte step says `found` exactly when the detector matches on its byte. -/
def Obligations.ZeroCounterDetectorAgreesWithQueue : Prop :=
  (∀ (s : State) (stream : List Byte) (v : Byte), s.qlen = 0#2 →
    found (byteStep v (stream.foldl (fun t b => byteStep b t) s)) = zMatch (stream.foldl zNext 0#2) v) ∧
  ∀ stream : List Byte,
    scan [] [] stream = (zFirst 0#2 0 stream).map (fun t => stream.take (t - 2)) ∧
    ∀ t, zFirst 0#2 0 stream = some t ↔
      2 ≤ t ∧ termAt stream (t - 2) ∧ ∀ j, j < t - 2 → ¬ termAt stream j

/-- R150: a grid whose blue channel is even below pixel 24 but for pixels 22 and 23 gives an empty result with ERR = 0. -/
def Obligations.NeverEmbeddedGridCanSucceed : Prop :=
  ∀ s : State, 24 ≤ s.grid.w * s.grid.h →
    (∀ n, n < 24 → (memRead s.grid.blue n).getLsbD 0 = decide (22 ≤ n)) →
    exec .extract s = .next { s with obuf := [], status := 0x00#8, ph := .idle }

/-! ### The MessageCodec -/

/-- R160, R161: HIDE. InvalidKeyError first, then CapacityError, both with the grid unchanged; otherwise pixel n below
8*(ILEN+3) takes its bit of the payload, ciphertext then the plain terminator, and every other pixel reads as before. -/
def Obligations.HideEmbedsCiphertextThenTerminator : Prop :=
  decode 0x07#8 = .command .hide ∧
  ∀ s : State,
    (s.key = [] → exec .hide s = .next { s with status := 0x01#8, ph := .idle }) ∧
    (s.key ≠ [] → s.grid.w * s.grid.h < 8 * (s.ibuf.length + 3) →
      exec .hide s = .next { s with status := 0x02#8, ph := .idle }) ∧
    (s.key ≠ [] → 8 * (s.ibuf.length + 3) ≤ s.grid.w * s.grid.h → ∃ m : Memory,
      exec .hide s = .next { s with grid := { s.grid with blue := m }, status := 0x00#8, ph := .idle } ∧
      ∀ (n : Nat) (p : Byte),
        p = (if n / 8 < s.ibuf.length then
              s.ibuf.getD (n / 8) 0x00#8 ^^^ s.key.getD ((n / 8) % s.key.length) 0x00#8
            else if n / 8 = s.ibuf.length + 2 then 0x03#8 else 0x00#8) →
        memRead m n =
          if n < 8 * (s.ibuf.length + 3) then
            (memRead s.grid.blue n &&& 0xFE#8) ||| (if p.getLsbD (7 - n % 8) then 0x01#8 else 0x00#8)
          else memRead s.grid.blue n)

/-- R162: REVEAL. TerminatorNotFoundError first, then InvalidKeyError, both with an empty OBUF; otherwise OBUF takes the t - 2
stream bytes before the terminator, byte k XORed with byte k mod KLEN of KEY. That a grid without terminator gives 3 also
when KEY is empty is the spec's own reading of the source's composition (R186, D15), where U12 admits 1 as well; the model
takes that reading (log entry 9). -/
def Obligations.RevealDeciphersTheExtractedBytes : Prop :=
  decode 0x08#8 = .command .reveal ∧
  ∀ (s : State) (B : Nat → Byte), IsStream s.grid B →
    (NoWindow s.grid B → exec .reveal s = .next { s with obuf := [], status := 0x03#8, ph := .idle }) ∧
    ∀ t, FirstWindow s.grid B t →
      (s.key = [] → exec .reveal s = .next { s with obuf := [], status := 0x01#8, ph := .idle }) ∧
      (s.key ≠ [] → exec .reveal s = .next
        { s with
          obuf := (List.range (t - 2)).map (fun k => B k ^^^ s.key.getD (k % s.key.length) 0x00#8)
          status := 0x00#8
          ph := .idle })

/-- R163: REVEAL after HIDE with the same KEY gives the message back when its ciphertext holds no terminator, and otherwise
the message up to the least index at which one stands, a proper prefix; ERR = 0 either way. -/
def Obligations.RevealAfterHideRoundTrip : Prop :=
  ∀ s : State, s.key ≠ [] → 8 * (s.ibuf.length + 3) ≤ s.grid.w * s.grid.h →
    ∃ t, exec .hide s = .next t ∧ t.err = 0#3 ∧
      ((∀ k, ¬ termAt (xorStream s.ibuf s.key) k) →
        exec .reveal t = .next { t with obuf := s.ibuf, status := 0x00#8, ph := .idle }) ∧
      ∀ k, termAt (xorStream s.ibuf s.key) k → (∀ j, j < k → ¬ termAt (xorStream s.ibuf s.key) j) →
        exec .reveal t = .next { t with obuf := s.ibuf.take k, status := 0x00#8, ph := .idle } ∧
        s.ibuf.take k ≠ s.ibuf

/-- R164: REVEAL with another password P' returns the ciphertext XORed with P', of the message's length, with ERR = 0. -/
def Obligations.WrongPasswordRevealsSilently : Prop :=
  ∀ (s : State) (p : List Byte), s.key ≠ [] → p ≠ [] → 8 * (s.ibuf.length + 3) ≤ s.grid.w * s.grid.h →
    (∀ k, ¬ termAt (xorStream s.ibuf s.key) k) →
    ∃ t, exec .hide s = .next t ∧
      exec .reveal { t with key := p } = .next
        { t with key := p, obuf := xorStream (xorStream s.ibuf s.key) p, status := 0x00#8, ph := .idle } ∧
      (xorStream (xorStream s.ibuf s.key) p).length = s.ibuf.length

/-- R101 (b) for HIDE: it leaves the grid and the error that ENCRYPT, LOAD IBUF with OBUF and the terminator, EMBED leave, a
host stopping at the first failing command. -/
def Obligations.HideEqualsEncryptThenEmbed : Prop :=
  ∀ s : State, ∃ a b h, exec .encrypt s = .next a ∧
    exec .embed { a with ibuf := a.obuf ++ [0x00#8, 0x00#8, 0x03#8] } = .next b ∧ exec .hide s = .next h ∧
    (a.err = 0#3 → h.grid = b.grid ∧ h.err = b.err) ∧ (a.err ≠ 0#3 → h.grid = s.grid ∧ h.err = a.err)

/-- R101 (b) for REVEAL: it leaves the OBUF and the error that EXTRACT, LOAD IBUF with OBUF, DECRYPT leave, a host stopping
at the first failing command. That REVEAL reports EXTRACT's failure also when KEY is empty is the spec's own reading of the
source's composition (R186, D15), where U12 admits 1 as well; the model takes that reading (log entry 9). -/
def Obligations.RevealEqualsExtractThenDecrypt : Prop :=
  ∀ s : State, ∃ a b r, exec .extract s = .next a ∧ exec .decrypt { a with ibuf := a.obuf } = .next b ∧
    exec .reveal s = .next r ∧
    (a.err = 0#3 → r.obuf = b.obuf ∧ r.err = b.err) ∧ (a.err ≠ 0#3 → r.obuf = [] ∧ r.err = a.err)

/-! ### Every command -/

/-- R18, R171, R77: every command completes, from every state, with BUSY = 0, PH = IDLE and one of the five codes, and what
is not its destination or STATUS has the value it had: the frame of all eight commands. -/
def Obligations.CommandChangesOnlyItsDestination : Prop :=
  ∀ (i : Instr) (s : State), ∃ t, exec i s = .next t ∧
    t.busy = false ∧ t.ph = .idle ∧ t.statusRsv = 0#4 ∧ t.err.toNat ≤ 4 ∧
    (i ≠ .encrypt → i ≠ .decrypt → i ≠ .bits2b → i ≠ .extract → i ≠ .reveal → t.obuf = s.obuf) ∧
    (i ≠ .b2bits → t.bbuf = s.bbuf) ∧
    (i ≠ .embed → i ≠ .hide → t.grid = s.grid) ∧
    (t.grid.w = s.grid.w ∧ t.grid.h = s.grid.h ∧ t.grid.hasAlpha = s.grid.hasAlpha ∧ t.grid.red = s.grid.red ∧
      t.grid.green = s.grid.green ∧ t.grid.alpha = s.grid.alpha) ∧
    (∀ n k, 1 ≤ k → (memRead t.grid.blue n).getLsbD k = (memRead s.grid.blue n).getLsbD k) ∧
    (t.cmd = s.cmd ∧ t.ibuf = s.ibuf ∧ t.key = s.key ∧ t.opl = s.opl ∧ t.n = s.n ∧ t.i = s.i ∧ t.kidx = s.kidx ∧
      t.acc = s.acc ∧ t.bcnt = s.bcnt ∧ t.q0 = s.q0 ∧ t.q1 = s.q1 ∧ t.q2 = s.q2 ∧ t.qlen = s.qlen ∧
      t.result = s.result ∧ t.caps = s.caps ∧ t.script = s.script ∧ t.seen = s.seen)

/-- R184, R192: a command that ends in an error leaves an empty OBUF if that is its destination, and otherwise its
destination as at issue: no partial result. -/
def Obligations.FailedCommandLeavesNoPartialResult : Prop :=
  ∀ (i : Instr) (s : State), ∃ t, exec i s = .next t ∧
    (t.err ≠ 0#3 → t.grid = s.grid ∧ t.bbuf = s.bbuf ∧
      ((i = .encrypt ∨ i = .decrypt ∨ i = .bits2b ∨ i = .extract ∨ i = .reveal) → t.obuf = []) ∧
      ((i = .embed ∨ i = .hide) → t.obuf = s.obuf))

/-- R180 to R183, R185, R186: which error each command reports and when, and the two priorities. With the grid's byte stream B,
EXTRACT reports TerminatorNotFoundError exactly when no t of R142 exists. The order of REVEAL's two errors is the spec's own
reading of the source's composition (R186, D15), which the model takes (log entry 9); the source's tests pin HIDE's. -/
def Obligations.ErrorKindsAndPriorities : Prop :=
  ∀ s : State, ∃ enc dec b2b b2y emb ext hid rev,
    exec .encrypt s = .next enc ∧ exec .decrypt s = .next dec ∧ exec .b2bits s = .next b2b ∧
    exec .bits2b s = .next b2y ∧ exec .embed s = .next emb ∧ exec .extract s = .next ext ∧
    exec .hide s = .next hid ∧ exec .reveal s = .next rev ∧
    enc.err = (if s.key = [] then 1#3 else 0#3) ∧ dec.err = (if s.key = [] then 1#3 else 0#3) ∧
    b2b.err = 0#3 ∧ b2y.err = (if s.bbuf.length = 8 then 0#3 else 4#3) ∧
    emb.err = (if s.grid.w * s.grid.h < 8 * s.ibuf.length then 2#3 else 0#3) ∧
    (∀ B : Nat → Byte, IsStream s.grid B →
      (ext.err = 3#3 ↔ NoWindow s.grid B) ∧ (ext.err = 0#3 ↔ ∃ t, FirstWindow s.grid B t)) ∧
    (ext.err = 0#3 ∨ ext.err = 3#3) ∧
    hid.err = (if s.key = [] then 1#3
      else if s.grid.w * s.grid.h < 8 * (s.ibuf.length + 3) then 2#3 else 0#3) ∧
    rev.err = (if ext.err = 3#3 then 3#3 else if s.key = [] then 1#3 else 0#3)

/-- R37, R41, R77: a command's result and error depend only on the spaces R77 says it reads: not on STATUS, on CMD, on any
working register, on what its destination held (unless it reads it), or on red, green and alpha. -/
def Obligations.CommandReadsOnlyItsOperands : Prop :=
  ∀ (i : Instr) (s u : State), (∀ sp, sp ∈ readsOf i → agreeOn sp s u) →
    ∃ t v, exec i s = .next t ∧ exec i u = .next v ∧ t.status = v.status ∧
      (t.err = 0#3 → ∀ sp, sp ∈ writesOf i → agreeOn sp t v)

/-- R11: under a legal configuration no result exceeds its buffer. R11's constraints admit NOUT = 0, which the one byte of
BITS2B would exceed; that case is left to the premise 1 <= NOUT (log entry 7). -/
def Obligations.CommandsKeepWithinCapacities : Prop :=
  ∀ (c : Caps) (i : Instr) (s : State), c.Legal → (i = .bits2b → 1 ≤ c.nout) → Fits c s →
    ∃ t, exec i s = .next t ∧ Fits c t

/-! ### Reset -/

/-- R40: the values after reset that the specification gives (Q0 to Q2 and the attached grid are the model's choices, log
entries 5 and 4, and are not stated). -/
def Obligations.ResetStateHoldsTheListedValues : Prop :=
  State.reset.cmd = 0x00#8 ∧ State.reset.status = 0x00#8 ∧ State.reset.err = 0#3 ∧ State.reset.busy = false ∧
  State.reset.ibuf = [] ∧ State.reset.key = [] ∧ State.reset.obuf = [] ∧ State.reset.bbuf = [] ∧
  State.reset.ph = .idle ∧ State.reset.opl = 0#4 ∧ State.reset.n = 0 ∧ State.reset.i = 0 ∧ State.reset.kidx = 0 ∧
  State.reset.acc = 0x00#8 ∧ State.reset.bcnt = 0#4 ∧ State.reset.qlen = 0#2 ∧ step State.reset = .next State.reset

/-- R40, R200: a reset of the core puts the core state at the listed values, leaves the grid, and then the core waits. That this
holds at any moment, also while BUSY = 1, is the spec's own reading (R211, D19), which the model takes at the step level (log
entry 14). -/
def Obligations.CoreResetKeepsTheGridAndWaits : Prop :=
  ∀ (s : State) (rest : List HostMove), LegalConfig s → s.script = .reset :: rest →
    ∃ t, step s = .next t ∧ t.cmd = 0x00#8 ∧ t.status = 0x00#8 ∧ t.ibuf = [] ∧ t.key = [] ∧ t.obuf = [] ∧
      t.bbuf = [] ∧ (∀ r, 2 ≤ r → r ≤ 5 → regValue t r = some 0) ∧ t.ph = .idle ∧ t.opl = 0#4 ∧ t.n = 0 ∧ t.i = 0 ∧
      t.kidx = 0 ∧ t.acc = 0x00#8 ∧ t.bcnt = 0#4 ∧ t.qlen = 0#2 ∧ t.grid = s.grid ∧
      regValue t 6 = some s.grid.w ∧ regValue t 7 = some s.grid.h ∧ t.script = rest ∧
      step { t with script := [] } = .next { t with script := [] }

/-- R134, R211: a reset after k pixel steps of an EMBED leaves pixels below k with their new LSBs and all others as they
were, and every core register and buffer at its reset value. That a reset can stand between any two steps of a command is
the spec's own reading (R211, D19; log entry 14). R40 leaves Q0 to Q2 unspecified and does not list the result under
construction: that they equal those of State.reset is the model's choice (log entries 5 and 10). -/
def Obligations.ResetDuringEmbedLeavesAPrefix : Prop :=
  ∀ (s : State) (k : Nat), LegalConfig s → s.busy = false → k ≤ 8 * s.ibuf.length → 8 * s.ibuf.length ≤ s.grid.w * s.grid.h →
    s.script = .issue 0x05#8 :: (List.replicate (k + 1) .wait ++ [.reset]) →
    ∃ m : Memory,
      Host.Core.run Sys2Proof.core (k + 3) s =
        .next { State.reset with grid := { s.grid with blue := m }, caps := s.caps, seen := s.seen } ∧
      ∀ n, memRead m n =
        if n < k then lsbWrite (memRead s.grid.blue n) ((s.ibuf.getD (n / 8) 0x00#8).getLsbD (7 - n % 8))
        else memRead s.grid.blue n

/-- R165, R211: a reset after k pixel steps of a HIDE leaves pixels below k with their new LSBs, the bits of the ciphertext and
then of the terminator, all others as they were, and every core register and buffer at its reset value. That a reset can
stand between any two steps of a command is the spec's own reading (R211, D19; log entry 14). R40 leaves Q0 to Q2 unspecified
and does not list the result under construction: that they equal those of State.reset is the model's choice (log entries 5
and 10). -/
def Obligations.ResetDuringHideLeavesAPrefix : Prop :=
  ∀ (s : State) (k : Nat), LegalConfig s → s.busy = false → s.key ≠ [] → k ≤ 8 * (s.ibuf.length + 3) →
    8 * (s.ibuf.length + 3) ≤ s.grid.w * s.grid.h →
    s.script = .issue 0x07#8 :: (List.replicate (k + 1) .wait ++ [.reset]) →
    ∃ m : Memory,
      Host.Core.run Sys2Proof.core (k + 3) s =
        .next { State.reset with grid := { s.grid with blue := m }, caps := s.caps, seen := s.seen } ∧
      ∀ (n : Nat) (p : Byte),
        p = (if n / 8 < s.ibuf.length then
              s.ibuf.getD (n / 8) 0x00#8 ^^^ s.key.getD ((n / 8) % s.key.length) 0x00#8
            else if n / 8 = s.ibuf.length + 2 then 0x03#8 else 0x00#8) →
        memRead m n =
          if n < k then lsbWrite (memRead s.grid.blue n) (p.getLsbD (7 - n % 8)) else memRead s.grid.blue n

/-! ### The host's accesses -/

/-- R174: the loads replace a whole buffer, attaching a grid replaces the grid, each within its capacity and while BUSY = 0;
the length registers follow and nothing else of the machine changes. -/
def Obligations.HostLoadsReplaceBufferOrGrid : Prop :=
  ∀ (s : State) (rest : List HostMove), LegalConfig s → s.busy = false →
    (∀ bs, s.script = .loadIbuf bs :: rest → (∀ c, s.caps = some c → bs.length ≤ c.nin) →
      step s = .next { s with ibuf := bs, script := rest }) ∧
    (∀ bs, s.script = .loadKey bs :: rest → (∀ c, s.caps = some c → bs.length ≤ c.nkey) →
      step s = .next { s with key := bs, script := rest }) ∧
    (∀ bits, s.script = .loadBbuf bits :: rest → (∀ c, s.caps = some c → bits.length ≤ c.nbit) →
      step s = .next { s with bbuf := bits, script := rest }) ∧
    (∀ w h red green blue alpha, s.script = .attachGrid w h red green blue alpha :: rest →
      red.length = w * h → green.length = w * h → blue.length = w * h → (∀ a, alpha = some a → a.length = w * h) →
      (∀ c, s.caps = some c → w * h ≤ c.maxpix) →
      ∃ g : Grid, step s = .next { s with grid := g, script := rest } ∧ g.wf ∧ g.w = w ∧ g.h = h ∧
        g.hasAlpha = alpha.isSome ∧
        ∀ n, memRead g.red n = red.getD n 0x00#8 ∧ memRead g.green n = green.getD n 0x00#8 ∧
          memRead g.blue n = blue.getD n 0x00#8 ∧ memRead g.alpha n = (alpha.getD []).getD n 0x00#8)

/-- R67, R174: pixels are plain storage: after the host wrote a value to a channel of a pixel, reading any channel of any
pixel gives that value there and what it gave before elsewhere, and the grid's dimensions stay. -/
def Obligations.PixelReadAfterPixelWrite : Prop :=
  ∀ (s : State) (rest : List HostMove) (c d : Channel) (n k : Nat) (v : Byte) (m : Memory),
    LegalConfig s → s.busy = false → s.script = .writePixel c n v :: .readPixel d k :: rest →
    n < s.grid.w * s.grid.h → k < s.grid.w * s.grid.h → (c = .alpha → s.grid.hasAlpha = true) →
    channelOf s.grid d = some m →
    ∃ t, Host.Core.run Sys2Proof.core 2 s = .next t ∧
      t.seen = (if d = c ∧ k = n then v.toNat else (memRead m k).toNat) :: s.seen ∧
      t.grid.w = s.grid.w ∧ t.grid.h = s.grid.h ∧ t.script = rest ∧ t.obuf = s.obuf ∧ t.status = s.status

/-- R173: a host read of register r returns its current value and changes nothing; while BUSY = 1 only STATUS may be read. -/
def Obligations.RegisterReadsReturnCurrentValues : Prop :=
  ∀ (s : State) (rest : List HostMove) (r : Nat), LegalConfig s → s.script = .readReg r :: rest →
    (s.busy = false → r < 8 →
      step s = .next { s with
        script := rest
        seen := [s.cmd.toNat, s.status.toNat, s.ibuf.length, s.key.length, s.obuf.length, s.bbuf.length,
          s.grid.w, s.grid.h].getD r 0 :: s.seen }) ∧
    (s.busy = true → r = 1 → step s = .next { s with script := rest, seen := s.status.toNat :: s.seen }) ∧
    (s.busy = true → r ≠ 1 → step s = .refused .hostMoveWhileBusy)

/-- R206 with U1: between issue and completion every host move but reading STATUS, waiting and a reset is refused. -/
def Obligations.HostMoveDuringCommandIsRefused : Prop :=
  ∀ (s : State) (m : HostMove) (rest : List HostMove), LegalConfig s → s.busy = true → s.script = m :: rest →
    m ≠ .readReg 1 → m ≠ .wait → m ≠ .reset → step s = .refused .hostMoveWhileBusy

/-- R42, R61, R68, R173, R174 with U4 and U5: an idle machine refuses, by name, a read of OBUF or BBUF at or above its
length, any access to a register above 7, a write to a read-only register, and the read or write of a pixel at or above W*H
or of the alpha channel of a three-channel grid; and a read of OBUF or BBUF below the length returns the element. The
refusals are the model's choice within U4 and U5 (log entries 19 and 22). -/
def Obligations.AccessesOutsideTheRulesAreRefused : Prop :=
  ∀ (s : State) (rest : List HostMove), LegalConfig s → s.busy = false →
    (∀ k, s.script = .readObuf k :: rest →
      (∀ v, s.obuf[k]? = some v → step s = .next { s with script := rest, seen := v.toNat :: s.seen }) ∧
      (s.obuf.length ≤ k → step s = .refused .noSuchElement)) ∧
    (∀ k, s.script = .readBbuf k :: rest →
      (∀ b, s.bbuf[k]? = some b → step s = .next { s with script := rest, seen := b.toNat :: s.seen }) ∧
      (s.bbuf.length ≤ k → step s = .refused .noSuchElement)) ∧
    (∀ r, s.script = .readReg r :: rest → 8 ≤ r → step s = .refused .noSuchRegister) ∧
    (∀ r v, s.script = .writeReg r v :: rest → 1 ≤ r → r ≤ 7 → step s = .refused .readOnlyRegister) ∧
    (∀ r v, s.script = .writeReg r v :: rest → 8 ≤ r → step s = .refused .noSuchRegister) ∧
    (∀ c n, s.script = .readPixel c n :: rest →
      (c = .alpha → s.grid.hasAlpha = false → step s = .refused .noSuchChannel) ∧
      ((c = .alpha → s.grid.hasAlpha = true) → s.grid.w * s.grid.h ≤ n → step s = .refused .noSuchPixel)) ∧
    (∀ c n v, s.script = .writePixel c n v :: rest →
      (c = .alpha → s.grid.hasAlpha = false → step s = .refused .noSuchChannel) ∧
      ((c = .alpha → s.grid.hasAlpha = true) → s.grid.w * s.grid.h ≤ n → step s = .refused .noSuchPixel))

/-- R11, R174, R202 with U6 and U7: a load over its buffer's capacity, a grid with a wrong number of values in any of its
channels and a grid of either kind with W*H above MAXPIX are refused, by name, by an idle machine; a machine with an illegal
configuration is refused whatever it would do next. That the refusal of a configuration comes at every step is the model's
choice within U6 (log entry 21). -/
def Obligations.LoadsAndConfigurationsOutsideTheRulesAreRefused : Prop :=
  (∀ (s : State) (c : Caps), s.caps = some c → ¬ c.Legal → step s = .refused .illegalConfiguration) ∧
  ∀ (s : State) (rest : List HostMove), LegalConfig s → s.busy = false →
    (∀ bs c, s.script = .loadIbuf bs :: rest → s.caps = some c → c.nin < bs.length →
      step s = .refused .overCapacity) ∧
    (∀ bs c, s.script = .loadKey bs :: rest → s.caps = some c → c.nkey < bs.length →
      step s = .refused .overCapacity) ∧
    (∀ bits c, s.script = .loadBbuf bits :: rest → s.caps = some c → c.nbit < bits.length →
      step s = .refused .overCapacity) ∧
    ∀ w h red green blue alpha, s.script = .attachGrid w h red green blue alpha :: rest →
      (red.length ≠ w * h ∨ green.length ≠ w * h ∨ blue.length ≠ w * h ∨ (∃ a, alpha = some a ∧ a.length ≠ w * h) →
        step s = .refused .malformedGrid) ∧
      (red.length = w * h → green.length = w * h → blue.length = w * h → (∀ a, alpha = some a → a.length = w * h) →
        ∀ c, s.caps = some c → c.maxpix < w * h → step s = .refused .overCapacity)

/-- R61: the linear index n = y*W + x runs over 0 to W*H - 1 and gives x and y back. -/
def Obligations.PixelIndexIsRowMajor : Prop :=
  (∀ w h x y, x < w → y < h →
    pixelIndex w x y < w * h ∧ pixelIndex w x y % w = x ∧ pixelIndex w x y / w = y) ∧
  ∀ w h n, n < w * h → n % w < w ∧ n / w < h ∧ pixelIndex w (n % w) (n / w) = n

/-! ### Rules of the whole machine -/

/-- R22, R34, R174: while the core is idle, nothing but a write of CMD or a reset changes CMD, STATUS, OBUF or any working
register. -/
def Obligations.OnlyIssueOrResetChangesStatusAndObuf : Prop :=
  ∀ s t : State, s.busy = false → s.ph = .idle → step s = .next t →
    (∀ m rest, s.script = m :: rest → (∀ v, m ≠ .writeReg 0 v) ∧ (∀ v, m ≠ .issue v) ∧ m ≠ .reset) →
    t.status = s.status ∧ t.cmd = s.cmd ∧ t.obuf = s.obuf ∧ t.ph = s.ph ∧ t.opl = s.opl ∧ t.n = s.n ∧ t.i = s.i ∧
      t.kidx = s.kidx ∧ t.acc = s.acc ∧ t.bcnt = s.bcnt ∧ t.q0 = s.q0 ∧ t.q1 = s.q1 ∧ t.q2 = s.q2 ∧ t.qlen = s.qlen ∧
      t.result = s.result

/-- R31, R32: IBUF and KEY are written only by the host's loads (and emptied by a reset): no command and no step of the
sequencer writes them. -/
def Obligations.OnlyLoadsWriteIbufAndKey : Prop :=
  ∀ s t : State, step s = .next t →
    (t.ibuf ≠ s.ibuf → ∃ rest, (∃ bs, s.script = .loadIbuf bs :: rest) ∨ s.script = .reset :: rest) ∧
    (t.key ≠ s.key → ∃ rest, (∃ bs, s.script = .loadKey bs :: rest) ∨ s.script = .reset :: rest)

/-- R36, R62, R133: whatever a step does, unless the host attaches a grid or writes a pixel, the grid's dimensions, red,
green, alpha and bits 7 to 1 of every blue byte stay as they were. -/
def Obligations.CoreChangesOnlyBlueLsbs : Prop :=
  ∀ s t : State, step s = .next t →
    (∀ m rest, s.script = m :: rest →
      (∀ w h red green blue alpha, m ≠ .attachGrid w h red green blue alpha) ∧ (∀ c n v, m ≠ .writePixel c n v)) →
    t.grid.w = s.grid.w ∧ t.grid.h = s.grid.h ∧ t.grid.hasAlpha = s.grid.hasAlpha ∧ t.grid.red = s.grid.red ∧
      t.grid.green = s.grid.green ∧ t.grid.alpha = s.grid.alpha ∧
      ∀ n k, 1 ≤ k → (memRead t.grid.blue n).getLsbD k = (memRead s.grid.blue n).getLsbD k

/-- R36, R202: every step keeps the grid well formed, its planes in their canonical form over exactly its pixels. -/
def Obligations.StepKeepsGridCanonical : Prop :=
  ∀ s t : State, s.grid.wf → step s = .next t → t.grid.wf

/-- The invariant of the machine holds after reset (R40). -/
def Obligations.InvariantHoldsAtReset : Prop := Inv State.reset

/-- R22, R24 to R30, R116, R127, R147, R148, R165: every step keeps the invariant: BUSY = (PH != IDLE), RSV zero, ERR listed, OPL the
OP of CMD, the grid well formed, and the loop invariant of each phase of each command. Five of its clauses are the model's:
when OBUF starts empty (log entry 10), that ERR is written on entry to DONE (log entry 11), ACC and BCNT in B2BITS and BCNT
in EMBED and HIDE (log entry 23), I in HIDE (log entry 28), and that in CHECK every working register is initialised, also those
the command does not use (log entry 29; for reserved bytes log entry 16). -/
def Obligations.StepKeepsInvariant : Prop :=
  ∀ s t : State, Inv s → step s = .next t → Inv t

/-- R11, R31, R32, R34, R35, R174: under a configuration that gives OBUF a byte (log entry 7), every step of a machine that
meets the invariant keeps every buffer and the grid within its capacity, at the command level and between the steps of a command;
no step changes the configuration, and only under a legal one does the machine step at all (log entry 21). -/
def Obligations.StepKeepsWithinCapacities : Prop :=
  (∀ s t : State, step s = .next t → t.caps = s.caps ∧ LegalConfig s) ∧
  ∀ (s t : State) (c : Caps), s.caps = some c → 1 ≤ c.nout → Inv s → Fits c s → step s = .next t → Fits c t

/-- R63: in a state that meets the invariant no step addresses an element that does not exist, or stops the sequencer
otherwise. -/
def Obligations.NoStepFaults : Prop :=
  ∀ (s : State) (r : Fault), Inv s → step s ≠ .fault r

/-! ### The step level -/

/-- R172: the rows CHECK and DONE of the sequencer's table: an illegal byte or a failed precondition goes to DONE with its
error, every command whose preconditions hold goes to RUN, and DONE goes to IDLE. R172 gives the way to RUN no action: that
OBUF, where a result is built in it, is emptied there is the model's reading of R34 and R41 (log entry 10), and that ERR is
written on entry to DONE is its reading of R184 (log entry 11). That REVEAL tests KEY after its scan and not in CHECK is the
spec's own reading of the source's composition (R186, D15; log entry 9). -/
def Obligations.CheckAndDonePhases : Prop :=
  ∀ s : State,
    (s.ph = .check → ∀ why, decode s.cmd = .illegal why →
      coreStep s = .next { s with status := 0x84#8, ph := .done }) ∧
    (s.ph = .check → ∀ i, decode s.cmd = .command i → (i = .encrypt ∨ i = .decrypt) →
      (s.key = [] → coreStep s = .next { s with obuf := [], status := 0x81#8, ph := .done }) ∧
      (s.key ≠ [] → coreStep s = .next { s with obuf := [], ph := .run })) ∧
    (s.ph = .check → decode s.cmd = .command .b2bits → coreStep s = .next { s with ph := .run }) ∧
    (s.ph = .check → decode s.cmd = .command .bits2b →
      (s.bbuf.length ≠ 8 → coreStep s = .next { s with obuf := [], status := 0x84#8, ph := .done }) ∧
      (s.bbuf.length = 8 → coreStep s = .next { s with obuf := [], ph := .run })) ∧
    (s.ph = .check → decode s.cmd = .command .embed →
      (s.grid.w * s.grid.h < 8 * s.ibuf.length → coreStep s = .next { s with status := 0x82#8, ph := .done }) ∧
      (8 * s.ibuf.length ≤ s.grid.w * s.grid.h → coreStep s = .next { s with ph := .run })) ∧
    (s.ph = .check → decode s.cmd = .command .hide →
      (s.key = [] → coreStep s = .next { s with status := 0x81#8, ph := .done }) ∧
      (s.key ≠ [] → s.grid.w * s.grid.h < 8 * (s.ibuf.length + 3) →
        coreStep s = .next { s with status := 0x82#8, ph := .done }) ∧
      (s.key ≠ [] → 8 * (s.ibuf.length + 3) ≤ s.grid.w * s.grid.h → coreStep s = .next { s with ph := .run })) ∧
    (s.ph = .check → decode s.cmd = .command .extract ∨ decode s.cmd = .command .reveal →
      coreStep s = .next { s with obuf := [], ph := .run }) ∧
    (s.ph = .done → ∃ t, coreStep s = .next t ∧ t.ph = .idle ∧ t.busy = false ∧ t.err = s.err ∧ t.obuf = s.obuf ∧
      t.bbuf = s.bbuf ∧ t.grid = s.grid)

/-- R116: in RUN of ENCRYPT or DECRYPT with the loop invariant, one step ciphers byte I and keeps it; at I = ILEN the result
is complete and the step goes to DONE with ERR = 0. -/
def Obligations.CipherByteStepKeepsKeystreamIndex : Prop :=
  ∀ s : State, s.ph = .run → (s.opl = 0x1#4 ∨ s.opl = 0x2#4) → CipherOk s →
    (s.i < s.ibuf.length → ∃ t, coreStep s = .next t ∧ t.ph = .run ∧ t.i = s.i + 1 ∧ CipherOk t) ∧
    (s.i = s.ibuf.length → ∃ t, coreStep s = .next t ∧ t.ph = .done ∧ t.err = 0#3 ∧
      t.obuf = xorStream s.ibuf s.key)

/-- R127, R35: in RUN of B2BITS with the loop invariant, one step takes the eight bits of byte I into the result and keeps the
invariant, and BBUF is as it was; at I = ILEN the step puts the whole result into BBUF and goes to DONE with ERR = 0. That
ACC and BCNT are back at 0 after each byte step is the model's reading (log entry 23). BITS2B is a single step: with BLEN = 8
OBUF takes the byte and the step goes to DONE (log entry 24). -/
def Obligations.BitPackerByteStepsBuildTheResult : Prop :=
  (∀ s : State, s.ph = .run → s.opl = 0x3#4 → B2bitsOk s →
    (s.i < s.ibuf.length → ∃ t, coreStep s = .next t ∧ t.ph = .run ∧ t.i = s.i + 1 ∧ t.bbuf = s.bbuf ∧
      t.result = s.result ++ bytesToBits [s.ibuf.getD s.i 0x00#8] ∧ B2bitsOk t) ∧
    (s.i = s.ibuf.length → ∃ t, coreStep s = .next t ∧ t.ph = .done ∧ t.err = 0#3 ∧ t.bbuf = bytesToBits s.ibuf)) ∧
  ∀ s : State, s.ph = .run → s.opl = 0x4#4 → s.bbuf.length = 8 →
    ∃ t, coreStep s = .next t ∧ t.ph = .done ∧ t.err = 0#3 ∧ t.obuf = [bitsToByte s.bbuf] ∧ t.bbuf = s.bbuf

/-- R24, R28, R134, R165: in RUN of EMBED or HIDE with the loop invariant and bits left, one pixel step loads ACC with
payload byte N div 8 where N mod 8 = 0, writes its bit 7 into bit 0 of the blue byte of pixel N, shifts ACC left, leaves
every other pixel, advances N by one and keeps the invariant; at the bit count the step goes to DONE with ERR = 0. BCNT (log entry 23) and, in
HIDE, I (log entry 28) advance as the model reads R28 and R26. -/
def Obligations.PixelOutStepWritesPixelN : Prop :=
  ∀ (s : State) (bits : Nat), s.ph = .run →
    (s.opl = 0x5#4 ∧ EmbedOk s ∧ bits = 8 * s.ibuf.length ∨ s.opl = 0x7#4 ∧ HideOk s ∧ bits = 8 * (s.ibuf.length + 3)) →
    (s.n < bits → ∃ t, coreStep s = .next t ∧ t.ph = .run ∧ t.n = s.n + 1 ∧ t.bcnt.toNat = (s.n + 1) % 8 ∧
      (s.opl = 0x5#4 → EmbedOk t) ∧ (s.opl = 0x7#4 → HideOk t) ∧
      (∀ k, k ≠ s.n → memRead t.grid.blue k = memRead s.grid.blue k) ∧
      ∃ v : Byte, t.acc = v <<< 1 ∧ memRead t.grid.blue s.n = lsbWrite (memRead s.grid.blue s.n) (v.getLsbD 7) ∧
        (s.n % 8 ≠ 0 → v = s.acc) ∧
        (s.n % 8 = 0 → s.opl = 0x5#4 → v = s.ibuf.getD (s.n / 8) 0x00#8) ∧
        (s.n % 8 = 0 → s.opl = 0x7#4 → s.n / 8 < s.ibuf.length →
          v = s.ibuf.getD (s.n / 8) 0x00#8 ^^^ s.key.getD (s.n / 8 % s.key.length) 0x00#8) ∧
        (s.n % 8 = 0 → s.opl = 0x7#4 → s.ibuf.length ≤ s.n / 8 →
          v = if s.n / 8 = s.ibuf.length + 2 then 0x03#8 else 0x00#8)) ∧
    (s.n = bits → ∃ t, coreStep s = .next t ∧ t.ph = .done ∧ t.err = 0#3 ∧ t.grid = s.grid)

/-- R145, R146, R148: in RUN of EXTRACT or REVEAL, not found and with pixels left, one pixel step advances N by one and keeps
the invariants of R148. -/
def Obligations.DetectorPixelStepKeepsScanInvariant : Prop :=
  ∀ s : State, s.ph = .run → (s.opl = 0x6#4 ∨ s.opl = 0x8#4) → ScanOk s → found s = false →
    s.n < s.grid.w * s.grid.h →
    ∃ t, coreStep s = .next t ∧ t.ph = .run ∧ t.opl = s.opl ∧ t.n = s.n + 1 ∧ t.grid = s.grid ∧ ScanOk t

/-- R147, R165, R172: the rows that end the scan of EXTRACT and REVEAL, from a state of the scan with the invariants of R148.
On `found`, which is tested before exhaustion, OBUF holds what R141 gives and exactly the pixels up to the terminator's last
bit were read: EXTRACT goes to DONE with success, REVEAL with an empty KEY to DONE with error 1 and an empty OBUF, REVEAL with
a password to RUN2 with I = KIDX = 0. With every pixel read and nothing found, R141 gives no result, and both go to DONE with
error 3 and an empty OBUF; that REVEAL does so also with an empty KEY is the spec's own reading (R186, D15; log entry 9). That
ERR is written on entry to DONE and that these rows are steps of their own are the model's
readings (log entries 11 and 12). -/
def Obligations.DetectorScanEndsByTheTable : Prop :=
  ∀ s : State, s.ph = .run → (s.opl = 0x6#4 ∨ s.opl = 0x8#4) → ScanOk s →
    (found s = true →
      extractFn s.grid = some s.obuf ∧ s.n = 8 * (s.obuf.length + 3) ∧
      (s.opl = 0x6#4 → coreStep s = .next { s with status := 0x80#8, ph := .done }) ∧
      (s.opl = 0x8#4 → s.key = [] → coreStep s = .next { s with obuf := [], status := 0x81#8, ph := .done }) ∧
      (s.opl = 0x8#4 → s.key ≠ [] → coreStep s = .next { s with ph := .run2, i := 0, kidx := 0 } ∧
        Run2Ok { s with ph := .run2, i := 0, kidx := 0 })) ∧
    (found s = false → s.n = s.grid.w * s.grid.h →
      extractFn s.grid = none ∧ coreStep s = .next { s with obuf := [], status := 0x83#8, ph := .done })

/-- R26, R165, R172: the two rows of RUN2. With I < OLEN the step replaces OBUF[I] by OBUF[I] xor KEY[KIDX], leaves every other
element, advances I by one and KIDX to I mod KLEN, changes nothing else and keeps the invariant of the phase; with I = OLEN
it goes to DONE with ERR = 0, and OBUF is the whole extracted sequence, deciphered. That ERR is written on entry to DONE and
that this row is a step of its own are the model's readings (log entries 11 and 12). -/
def Obligations.RevealSecondPhaseDeciphersInPlace : Prop :=
  ∀ s : State, s.ph = .run2 → Run2Ok s →
    (s.i < s.obuf.length → ∃ o : List Byte,
      coreStep s = .next { s with obuf := o, kidx := (s.i + 1) % s.key.length, i := s.i + 1 } ∧
      o.length = s.obuf.length ∧
      (∀ k, o.getD k 0x00#8 =
        if k = s.i then s.obuf.getD k 0x00#8 ^^^ s.key.getD s.kidx 0x00#8 else s.obuf.getD k 0x00#8) ∧
      Run2Ok { s with obuf := o, kidx := (s.i + 1) % s.key.length, i := s.i + 1 }) ∧
    (s.i = s.obuf.length → coreStep s = .next { s with status := 0x80#8, ph := .done } ∧
      ∃ out, extractFn s.grid = some out ∧ s.obuf = xorStream out s.key)

/-- R176: for every command byte and every state at issue, the step-level run reaches IDLE after finitely many steps, in the
state the command level gives, but for the working registers, which are no state at the command level (R20). -/
def Obligations.StepLevelReachesTheCommandLevelState : Prop :=
  ∀ (s : State) (c : Byte), LegalConfig s → s.busy = false →
    ∃ t, step { s with script := [.writeReg 0 c] } = .next t ∧
      ∃ k u, Host.Core.run Sys2Proof.core k { s with script := [.issue c] } = .next u ∧ u.ph = .idle ∧
        archView u = archView t

/-- R171, R210: an issued command is complete after at least one and at most 8*(ILEN+3) + 2*W*H + 5 steps, the issue among
them: the host's issue has been taken, CMD holds the byte, and the machine is idle again. The bound is the model's own count
over the loops of R171. -/
def Obligations.IssuedCommandCompletesWithinBound : Prop :=
  ∀ (s : State) (c : Byte), LegalConfig s → s.busy = false →
    ∃ k u, 1 ≤ k ∧ k ≤ 8 * (s.ibuf.length + 3) + 2 * (s.grid.w * s.grid.h) + 5 ∧
      Host.Core.run Sys2Proof.core k { s with script := [.issue c] } = .next u ∧ u.ph = .idle ∧ u.busy = false ∧
      u.cmd = c ∧ u.script = []
end

