-- ==== Sys2Proof/Laws/Memory.lean ====
section
/-!
SUPPORT. The laws of memory: reading after a write, and every memory operation keeps the canonical form and the bound of a
plane.
-/

namespace Sys2Proof.Machine

theorem memRead_memErase (m : Memory) (a b : Nat) :
    memRead (memErase m a) b = if b = a then Memory.blank else memRead m b := by
  induction m with
  | nil => simp [memErase, memRead]
  | cons c rest ih =>
    obtain ⟨k, w⟩ := c
    by_cases h : a = k
    · subst h
      simp only [memErase, memRead, if_true, ih]
      by_cases hb : b = a <;> simp [hb]
    · by_cases hb : b = k
      · subst hb
        simp [memErase, memRead, h, Ne.symm h]
      · simp [memErase, memRead, h, hb, ih]

theorem memRead_memInsert_other (m : Memory) (a b : Nat) (v : Byte) (h : b ≠ a) :
    memRead (memInsert m a v) b = memRead m b := by
  induction m with
  | nil => simp [memInsert, memRead, h]
  | cons c rest ih =>
    obtain ⟨k, w⟩ := c
    by_cases hk : a < k
    · simp [memInsert, memRead, hk, h]
    · by_cases hb : b = k <;> simp [memInsert, memRead, hk, hb, ih]

theorem memRead_memInsert_same (m : Memory) (a : Nat) (v : Byte) (h : ∀ c ∈ m, c.1 ≠ a) :
    memRead (memInsert m a v) a = v := by
  induction m with
  | nil => simp [memInsert, memRead]
  | cons c rest ih =>
    obtain ⟨k, w⟩ := c
    have hk : a ≠ k := fun e => h (k, w) (by simp) e.symm
    by_cases hlt : a < k
    · simp [memInsert, memRead, hlt]
    · simp [memInsert, memRead, hlt, hk]
      exact ih (fun c hc => h c (by simp [hc]))

theorem mem_memErase {m : Memory} {a : Nat} {c : Host.Cell} (h : c ∈ memErase m a) : c ∈ m ∧ c.1 ≠ a := by
  induction m with
  | nil => simp [memErase] at h
  | cons d rest ih =>
    obtain ⟨k, w⟩ := d
    by_cases hk : a = k
    · simp only [memErase, hk, if_true] at h
      subst hk
      exact ⟨List.mem_cons_of_mem _ (ih h).1, (ih h).2⟩
    · simp only [memErase, hk, if_false, List.mem_cons] at h
      rcases h with rfl | h
      · exact ⟨by simp, fun e => hk e.symm⟩
      · exact ⟨List.mem_cons_of_mem _ (ih h).1, (ih h).2⟩

theorem mem_memInsert {m : Memory} {a : Nat} {v : Byte} {c : Host.Cell} (h : c ∈ memInsert m a v) :
    c = (a, v) ∨ c ∈ m := by
  induction m with
  | nil => simpa [memInsert] using h
  | cons d rest ih =>
    obtain ⟨k, w⟩ := d
    by_cases hk : a < k
    · simpa [memInsert, hk] using h
    · simp only [memInsert, hk, if_false, List.mem_cons] at h
      rcases h with rfl | h
      · simp
      · rcases ih h with h | h <;> simp [h]

theorem memErase_wf {m : Memory} (a : Nat) (h : m.wf) : (memErase m a).wf := by
  refine ⟨?_, fun c hc => h.2 c (mem_memErase hc).1⟩
  have hp := h.1
  clear h
  induction m with
  | nil => simp [memErase]
  | cons d rest ih =>
    obtain ⟨k, w⟩ := d
    rw [List.pairwise_cons] at hp
    by_cases hk : a = k
    · simpa only [memErase, hk, if_true] using hk ▸ ih hp.2
    · simp only [memErase, hk, if_false, List.pairwise_cons]
      exact ⟨fun c hc => hp.1 c (mem_memErase hc).1, ih hp.2⟩

theorem memInsert_pairwise {m : Memory} {a : Nat} (v : Byte) (h : m.Pairwise (fun c d => c.1 < d.1))
    (hne : ∀ c ∈ m, c.1 ≠ a) : (memInsert m a v).Pairwise (fun c d => c.1 < d.1) := by
  induction m with
  | nil => simp [memInsert]
  | cons d rest ih =>
    obtain ⟨k, w⟩ := d
    have hk : k ≠ a := hne (k, w) (by simp)
    have hp := List.pairwise_cons.mp h
    by_cases hlt : a < k
    · simp only [memInsert, hlt, if_true, List.pairwise_cons]
      refine ⟨fun c hc => ?_, hp.1, hp.2⟩
      rcases List.mem_cons.mp hc with rfl | hc
      · exact hlt
      · exact hlt.trans (hp.1 c hc)
    · simp only [memInsert, hlt, if_false, List.pairwise_cons]
      refine ⟨fun c hc => ?_, ih hp.2 (fun c hc => hne c (by simp [hc]))⟩
      rcases mem_memInsert hc with rfl | hc
      · show k < a
        omega
      · exact hp.1 c hc

/-- Reading after a write: the written address gives the written value, every other address what it gave before. -/
theorem memRead_memWrite (m : Memory) (a b : Nat) (v : Byte) :
    memRead (memWrite m a v) b = if b = a then v else memRead m b := by
  unfold memWrite
  by_cases hv : v = Memory.blank
  · simp [hv, memRead_memErase]
  · by_cases hb : b = a
    · subst hb
      simp [hv, memRead_memInsert_same _ _ _ (fun c hc => (mem_memErase hc).2)]
    · simp [hv, hb, memRead_memInsert_other _ _ _ _ hb, memRead_memErase]

/-- A write keeps the canonical form. -/
theorem memWrite_wf {m : Memory} (a : Nat) (v : Byte) (h : m.wf) : (memWrite m a v).wf := by
  unfold memWrite
  split
  · exact memErase_wf a h
  · rename_i hv
    refine ⟨memInsert_pairwise v (memErase_wf a h).1 (fun c hc => (mem_memErase hc).2), fun c hc => ?_⟩
    rcases mem_memInsert hc with rfl | hc
    · exact hv
    · exact h.2 c (mem_memErase hc).1

/-- A write inside a plane keeps it a plane. -/
theorem memWrite_planeOf {m : Memory} {count a : Nat} (v : Byte) (h : m.planeOf count) (ha : a < count) :
    (memWrite m a v).planeOf count := by
  refine ⟨memWrite_wf a v h.1, fun c hc => ?_⟩
  unfold memWrite at hc
  split at hc
  · exact h.2 c (mem_memErase hc).1
  · rcases mem_memInsert hc with rfl | hc
    · exact ha
    · exact h.2 c (mem_memErase hc).1

theorem mem_memOfList {a : Nat} {vs : List Byte} {c : Host.Cell} (h : c ∈ memOfList a vs) :
    a ≤ c.1 ∧ c.1 < a + vs.length ∧ c.2 ≠ Memory.blank := by
  induction vs generalizing a with
  | nil => simp [memOfList] at h
  | cons v rest ih =>
    by_cases hv : v = Memory.blank
    · simp only [memOfList, hv, if_true] at h
      obtain ⟨h1, h2, h3⟩ := ih h
      exact ⟨by omega, by simp; omega, h3⟩
    · simp only [memOfList, hv, if_false, List.mem_cons] at h
      rcases h with rfl | h
      · exact ⟨by simp, by simp, hv⟩
      · obtain ⟨h1, h2, h3⟩ := ih h
        exact ⟨by omega, by simp; omega, h3⟩

/-- A loaded plane is canonical and lists only its own addresses. -/
theorem memOfList_planeOf (vs : List Byte) : (memOfList 0 vs).planeOf vs.length := by
  refine ⟨⟨?_, fun c hc => (mem_memOfList hc).2.2⟩, fun c hc => by simpa using (mem_memOfList hc).2.1⟩
  generalize 0 = a
  induction vs generalizing a with
  | nil => simp [memOfList]
  | cons v rest ih =>
    by_cases hv : v = Memory.blank
    · simpa [memOfList, hv] using ih (a + 1)
    · simp only [memOfList, hv, if_false, List.pairwise_cons]
      exact ⟨fun c hc => (mem_memOfList hc).1, ih (a + 1)⟩

/-- A loaded plane reads as the listed values. -/
theorem memRead_memOfList (vs : List Byte) (a k : Nat) :
    memRead (memOfList a vs) (a + k) = vs.getD k Memory.blank := by
  induction vs generalizing a k with
  | nil => simp [memOfList, memRead]
  | cons v rest ih =>
    have below : ∀ m : Memory, (∀ c ∈ m, a < c.1) → memRead m a = Memory.blank := by
      intro m hm
      induction m with
      | nil => rfl
      | cons c r ihm =>
        obtain ⟨b, w⟩ := c
        have hb : a < b := hm (b, w) (by simp)
        simp [memRead, Nat.ne_of_lt hb, ihm (fun c hc => hm c (by simp [hc]))]
    have hrest : memRead (memOfList (a + 1) rest) a = Memory.blank :=
      below _ (fun c hc => (mem_memOfList hc).1)
    cases k with
    | zero => by_cases hv : v = Memory.blank <;> simp [memOfList, memRead, hv, hrest]
    | succ k =>
      have := ih (a + 1) k
      rw [show a + 1 + k = a + (k + 1) by omega] at this
      by_cases hv : v = Memory.blank
      · simpa [memOfList, hv] using this
      · simpa [memOfList, memRead, hv] using this

/-- The embedding loop keeps a plane a plane while its bits fit (R131). -/
theorem embedFrom_planeOf {m : Memory} {count pos : Nat} {bits : List Bit} (h : m.planeOf count)
    (hfit : pos + bits.length ≤ count) : (embedFrom m pos bits).planeOf count := by
  induction bits generalizing m pos with
  | nil => exact h
  | cons b rest ih =>
    simp only [List.length_cons] at hfit
    exact ih (memWrite_planeOf _ h (by omega)) (by omega)

/-- What the embedding loop leaves in each pixel (R131, R135): the bit of its own pixel in the LSB, every other pixel as it
was. -/
theorem memRead_embedFrom (m : Memory) (pos : Nat) (bits : List Bit) (k : Nat) :
    memRead (embedFrom m pos bits) k =
      if pos ≤ k ∧ k < pos + bits.length then lsbWrite (memRead m k) (bits.getD (k - pos) false) else memRead m k := by
  induction bits generalizing m pos with
  | nil =>
    rw [if_neg (by simp)]
    rfl
  | cons b rest ih =>
    simp only [embedFrom, ih, memRead_memWrite, List.length_cons]
    by_cases hk : k = pos
    · subst hk
      simp
    · by_cases hin : pos + 1 ≤ k ∧ k < pos + 1 + rest.length
      · have h' : pos ≤ k ∧ k < pos + (rest.length + 1) := ⟨by omega, by omega⟩
        obtain ⟨d, rfl⟩ : ∃ d, k = pos + 1 + d := ⟨k - pos - 1, by omega⟩
        have e : pos + 1 + d - pos = d + 1 := by omega
        simp [hin.2, hk, h'.2, e]
        omega
      · have h' : ¬ (pos ≤ k ∧ k < pos + (rest.length + 1)) := by omega
        rw [if_neg hin, if_neg hk, if_neg h']

end Sys2Proof.Machine
end

