-- ==== Sys2Proof/Laws/PerInstr.lean ====
section
/-!
SUPPORT. The statements made once per command: the word of every command has RSV = 0 over its own OP (R95, R96) and is read
back as that command.
-/

/-- What the encoding of a command is: a well-formed command's byte has RSV zero and the command's OP, and the decoder reads
that command from it as a table word. -/
def Sys2Proof.Laws.EncodedWord.Statement (i : Sys2Proof.Instr) : Prop :=
  i.wellFormed = true ∧ Sys2Proof.cmdRsv (Sys2Proof.encode i) = 0#4 ∧
    Sys2Proof.cmdOp (Sys2Proof.encode i) = Sys2Proof.opOf i ∧
    Sys2Proof.decodeTableWord 8 (Sys2Proof.encode i).toNat = some i

theorem Sys2Proof.Laws.EncodedWord.encrypt : Sys2Proof.Laws.EncodedWord.Statement .encrypt := by
  unfold Sys2Proof.Laws.EncodedWord.Statement; decide

theorem Sys2Proof.Laws.EncodedWord.decrypt : Sys2Proof.Laws.EncodedWord.Statement .decrypt := by
  unfold Sys2Proof.Laws.EncodedWord.Statement; decide

theorem Sys2Proof.Laws.EncodedWord.b2bits : Sys2Proof.Laws.EncodedWord.Statement .b2bits := by
  unfold Sys2Proof.Laws.EncodedWord.Statement; decide

theorem Sys2Proof.Laws.EncodedWord.bits2b : Sys2Proof.Laws.EncodedWord.Statement .bits2b := by
  unfold Sys2Proof.Laws.EncodedWord.Statement; decide

theorem Sys2Proof.Laws.EncodedWord.embed : Sys2Proof.Laws.EncodedWord.Statement .embed := by
  unfold Sys2Proof.Laws.EncodedWord.Statement; decide

theorem Sys2Proof.Laws.EncodedWord.extract : Sys2Proof.Laws.EncodedWord.Statement .extract := by
  unfold Sys2Proof.Laws.EncodedWord.Statement; decide

theorem Sys2Proof.Laws.EncodedWord.hide : Sys2Proof.Laws.EncodedWord.Statement .hide := by
  unfold Sys2Proof.Laws.EncodedWord.Statement; decide

theorem Sys2Proof.Laws.EncodedWord.reveal : Sys2Proof.Laws.EncodedWord.Statement .reveal := by
  unfold Sys2Proof.Laws.EncodedWord.Statement; decide
end

