-- ==== Sys2Proof/Laws/State.lean ====
section
/-!
SUPPORT. One lemma per field per named update of the state, so that no proof unfolds a record update.
-/

namespace Sys2Proof.Machine

@[simp] theorem setObuf_cmd (o : List Byte) (s : State) : (setObuf o s).cmd = s.cmd := rfl
@[simp] theorem setObuf_status (o : List Byte) (s : State) : (setObuf o s).status = s.status := rfl
@[simp] theorem setObuf_ibuf (o : List Byte) (s : State) : (setObuf o s).ibuf = s.ibuf := rfl
@[simp] theorem setObuf_key (o : List Byte) (s : State) : (setObuf o s).key = s.key := rfl
@[simp] theorem setObuf_obuf (o : List Byte) (s : State) : (setObuf o s).obuf = o := rfl
@[simp] theorem setObuf_bbuf (o : List Byte) (s : State) : (setObuf o s).bbuf = s.bbuf := rfl
@[simp] theorem setObuf_grid (o : List Byte) (s : State) : (setObuf o s).grid = s.grid := rfl
@[simp] theorem setObuf_ph (o : List Byte) (s : State) : (setObuf o s).ph = s.ph := rfl
@[simp] theorem setObuf_opl (o : List Byte) (s : State) : (setObuf o s).opl = s.opl := rfl
@[simp] theorem setObuf_n (o : List Byte) (s : State) : (setObuf o s).n = s.n := rfl
@[simp] theorem setObuf_i (o : List Byte) (s : State) : (setObuf o s).i = s.i := rfl
@[simp] theorem setObuf_kidx (o : List Byte) (s : State) : (setObuf o s).kidx = s.kidx := rfl
@[simp] theorem setObuf_acc (o : List Byte) (s : State) : (setObuf o s).acc = s.acc := rfl
@[simp] theorem setObuf_bcnt (o : List Byte) (s : State) : (setObuf o s).bcnt = s.bcnt := rfl
@[simp] theorem setObuf_q0 (o : List Byte) (s : State) : (setObuf o s).q0 = s.q0 := rfl
@[simp] theorem setObuf_q1 (o : List Byte) (s : State) : (setObuf o s).q1 = s.q1 := rfl
@[simp] theorem setObuf_q2 (o : List Byte) (s : State) : (setObuf o s).q2 = s.q2 := rfl
@[simp] theorem setObuf_qlen (o : List Byte) (s : State) : (setObuf o s).qlen = s.qlen := rfl
@[simp] theorem setObuf_result (o : List Byte) (s : State) : (setObuf o s).result = s.result := rfl
@[simp] theorem setObuf_script (o : List Byte) (s : State) : (setObuf o s).script = s.script := rfl
@[simp] theorem setObuf_caps (o : List Byte) (s : State) : (setObuf o s).caps = s.caps := rfl
@[simp] theorem setObuf_seen (o : List Byte) (s : State) : (setObuf o s).seen = s.seen := rfl

@[simp] theorem setBbuf_cmd (b : List Bit) (s : State) : (setBbuf b s).cmd = s.cmd := rfl
@[simp] theorem setBbuf_status (b : List Bit) (s : State) : (setBbuf b s).status = s.status := rfl
@[simp] theorem setBbuf_ibuf (b : List Bit) (s : State) : (setBbuf b s).ibuf = s.ibuf := rfl
@[simp] theorem setBbuf_key (b : List Bit) (s : State) : (setBbuf b s).key = s.key := rfl
@[simp] theorem setBbuf_obuf (b : List Bit) (s : State) : (setBbuf b s).obuf = s.obuf := rfl
@[simp] theorem setBbuf_bbuf (b : List Bit) (s : State) : (setBbuf b s).bbuf = b := rfl
@[simp] theorem setBbuf_grid (b : List Bit) (s : State) : (setBbuf b s).grid = s.grid := rfl
@[simp] theorem setBbuf_ph (b : List Bit) (s : State) : (setBbuf b s).ph = s.ph := rfl
@[simp] theorem setBbuf_opl (b : List Bit) (s : State) : (setBbuf b s).opl = s.opl := rfl
@[simp] theorem setBbuf_n (b : List Bit) (s : State) : (setBbuf b s).n = s.n := rfl
@[simp] theorem setBbuf_i (b : List Bit) (s : State) : (setBbuf b s).i = s.i := rfl
@[simp] theorem setBbuf_kidx (b : List Bit) (s : State) : (setBbuf b s).kidx = s.kidx := rfl
@[simp] theorem setBbuf_acc (b : List Bit) (s : State) : (setBbuf b s).acc = s.acc := rfl
@[simp] theorem setBbuf_bcnt (b : List Bit) (s : State) : (setBbuf b s).bcnt = s.bcnt := rfl
@[simp] theorem setBbuf_q0 (b : List Bit) (s : State) : (setBbuf b s).q0 = s.q0 := rfl
@[simp] theorem setBbuf_q1 (b : List Bit) (s : State) : (setBbuf b s).q1 = s.q1 := rfl
@[simp] theorem setBbuf_q2 (b : List Bit) (s : State) : (setBbuf b s).q2 = s.q2 := rfl
@[simp] theorem setBbuf_qlen (b : List Bit) (s : State) : (setBbuf b s).qlen = s.qlen := rfl
@[simp] theorem setBbuf_result (b : List Bit) (s : State) : (setBbuf b s).result = s.result := rfl
@[simp] theorem setBbuf_script (b : List Bit) (s : State) : (setBbuf b s).script = s.script := rfl
@[simp] theorem setBbuf_caps (b : List Bit) (s : State) : (setBbuf b s).caps = s.caps := rfl
@[simp] theorem setBbuf_seen (b : List Bit) (s : State) : (setBbuf b s).seen = s.seen := rfl

@[simp] theorem setBlue_cmd (m : Memory) (s : State) : (setBlue m s).cmd = s.cmd := rfl
@[simp] theorem setBlue_status (m : Memory) (s : State) : (setBlue m s).status = s.status := rfl
@[simp] theorem setBlue_ibuf (m : Memory) (s : State) : (setBlue m s).ibuf = s.ibuf := rfl
@[simp] theorem setBlue_key (m : Memory) (s : State) : (setBlue m s).key = s.key := rfl
@[simp] theorem setBlue_obuf (m : Memory) (s : State) : (setBlue m s).obuf = s.obuf := rfl
@[simp] theorem setBlue_bbuf (m : Memory) (s : State) : (setBlue m s).bbuf = s.bbuf := rfl
@[simp] theorem setBlue_grid (m : Memory) (s : State) : (setBlue m s).grid = { s.grid with blue := m } := rfl
@[simp] theorem setBlue_ph (m : Memory) (s : State) : (setBlue m s).ph = s.ph := rfl
@[simp] theorem setBlue_opl (m : Memory) (s : State) : (setBlue m s).opl = s.opl := rfl
@[simp] theorem setBlue_n (m : Memory) (s : State) : (setBlue m s).n = s.n := rfl
@[simp] theorem setBlue_i (m : Memory) (s : State) : (setBlue m s).i = s.i := rfl
@[simp] theorem setBlue_kidx (m : Memory) (s : State) : (setBlue m s).kidx = s.kidx := rfl
@[simp] theorem setBlue_acc (m : Memory) (s : State) : (setBlue m s).acc = s.acc := rfl
@[simp] theorem setBlue_bcnt (m : Memory) (s : State) : (setBlue m s).bcnt = s.bcnt := rfl
@[simp] theorem setBlue_q0 (m : Memory) (s : State) : (setBlue m s).q0 = s.q0 := rfl
@[simp] theorem setBlue_q1 (m : Memory) (s : State) : (setBlue m s).q1 = s.q1 := rfl
@[simp] theorem setBlue_q2 (m : Memory) (s : State) : (setBlue m s).q2 = s.q2 := rfl
@[simp] theorem setBlue_qlen (m : Memory) (s : State) : (setBlue m s).qlen = s.qlen := rfl
@[simp] theorem setBlue_result (m : Memory) (s : State) : (setBlue m s).result = s.result := rfl
@[simp] theorem setBlue_script (m : Memory) (s : State) : (setBlue m s).script = s.script := rfl
@[simp] theorem setBlue_caps (m : Memory) (s : State) : (setBlue m s).caps = s.caps := rfl
@[simp] theorem setBlue_seen (m : Memory) (s : State) : (setBlue m s).seen = s.seen := rfl

@[simp] theorem finish_cmd (e : ErrCode) (s : State) : (finish e s).cmd = s.cmd := rfl
@[simp] theorem finish_status (e : ErrCode) (s : State) : (finish e s).status = statusWord false (errNumber e) := rfl
@[simp] theorem finish_ibuf (e : ErrCode) (s : State) : (finish e s).ibuf = s.ibuf := rfl
@[simp] theorem finish_key (e : ErrCode) (s : State) : (finish e s).key = s.key := rfl
@[simp] theorem finish_obuf (e : ErrCode) (s : State) : (finish e s).obuf = s.obuf := rfl
@[simp] theorem finish_bbuf (e : ErrCode) (s : State) : (finish e s).bbuf = s.bbuf := rfl
@[simp] theorem finish_grid (e : ErrCode) (s : State) : (finish e s).grid = s.grid := rfl
@[simp] theorem finish_ph (e : ErrCode) (s : State) : (finish e s).ph = .idle := rfl
@[simp] theorem finish_opl (e : ErrCode) (s : State) : (finish e s).opl = s.opl := rfl
@[simp] theorem finish_n (e : ErrCode) (s : State) : (finish e s).n = s.n := rfl
@[simp] theorem finish_i (e : ErrCode) (s : State) : (finish e s).i = s.i := rfl
@[simp] theorem finish_kidx (e : ErrCode) (s : State) : (finish e s).kidx = s.kidx := rfl
@[simp] theorem finish_acc (e : ErrCode) (s : State) : (finish e s).acc = s.acc := rfl
@[simp] theorem finish_bcnt (e : ErrCode) (s : State) : (finish e s).bcnt = s.bcnt := rfl
@[simp] theorem finish_q0 (e : ErrCode) (s : State) : (finish e s).q0 = s.q0 := rfl
@[simp] theorem finish_q1 (e : ErrCode) (s : State) : (finish e s).q1 = s.q1 := rfl
@[simp] theorem finish_q2 (e : ErrCode) (s : State) : (finish e s).q2 = s.q2 := rfl
@[simp] theorem finish_qlen (e : ErrCode) (s : State) : (finish e s).qlen = s.qlen := rfl
@[simp] theorem finish_result (e : ErrCode) (s : State) : (finish e s).result = s.result := rfl
@[simp] theorem finish_script (e : ErrCode) (s : State) : (finish e s).script = s.script := rfl
@[simp] theorem finish_caps (e : ErrCode) (s : State) : (finish e s).caps = s.caps := rfl
@[simp] theorem finish_seen (e : ErrCode) (s : State) : (finish e s).seen = s.seen := rfl

@[simp] theorem issue_cmd (c : Byte) (s : State) : (issue c s).cmd = c := rfl
@[simp] theorem issue_status (c : Byte) (s : State) : (issue c s).status = statusWord true (errNumber .ok) := rfl
@[simp] theorem issue_ibuf (c : Byte) (s : State) : (issue c s).ibuf = s.ibuf := rfl
@[simp] theorem issue_key (c : Byte) (s : State) : (issue c s).key = s.key := rfl
@[simp] theorem issue_obuf (c : Byte) (s : State) : (issue c s).obuf = s.obuf := rfl
@[simp] theorem issue_bbuf (c : Byte) (s : State) : (issue c s).bbuf = s.bbuf := rfl
@[simp] theorem issue_grid (c : Byte) (s : State) : (issue c s).grid = s.grid := rfl
@[simp] theorem issue_ph (c : Byte) (s : State) : (issue c s).ph = .check := rfl
@[simp] theorem issue_opl (c : Byte) (s : State) : (issue c s).opl = cmdOp c := rfl
@[simp] theorem issue_n (c : Byte) (s : State) : (issue c s).n = 0 := rfl
@[simp] theorem issue_i (c : Byte) (s : State) : (issue c s).i = 0 := rfl
@[simp] theorem issue_kidx (c : Byte) (s : State) : (issue c s).kidx = 0 := rfl
@[simp] theorem issue_acc (c : Byte) (s : State) : (issue c s).acc = 0x00#8 := rfl
@[simp] theorem issue_bcnt (c : Byte) (s : State) : (issue c s).bcnt = 0#4 := rfl
@[simp] theorem issue_q0 (c : Byte) (s : State) : (issue c s).q0 = s.q0 := rfl
@[simp] theorem issue_q1 (c : Byte) (s : State) : (issue c s).q1 = s.q1 := rfl
@[simp] theorem issue_q2 (c : Byte) (s : State) : (issue c s).q2 = s.q2 := rfl
@[simp] theorem issue_qlen (c : Byte) (s : State) : (issue c s).qlen = 0#2 := rfl
@[simp] theorem issue_result (c : Byte) (s : State) : (issue c s).result = [] := rfl
@[simp] theorem issue_script (c : Byte) (s : State) : (issue c s).script = s.script := rfl
@[simp] theorem issue_caps (c : Byte) (s : State) : (issue c s).caps = s.caps := rfl
@[simp] theorem issue_seen (c : Byte) (s : State) : (issue c s).seen = s.seen := rfl

@[simp] theorem coreReset_cmd (s : State) : (coreReset s).cmd = 0x00#8 := rfl
@[simp] theorem coreReset_status (s : State) : (coreReset s).status = 0x00#8 := rfl
@[simp] theorem coreReset_ibuf (s : State) : (coreReset s).ibuf = [] := rfl
@[simp] theorem coreReset_key (s : State) : (coreReset s).key = [] := rfl
@[simp] theorem coreReset_obuf (s : State) : (coreReset s).obuf = [] := rfl
@[simp] theorem coreReset_bbuf (s : State) : (coreReset s).bbuf = [] := rfl
@[simp] theorem coreReset_grid (s : State) : (coreReset s).grid = s.grid := rfl
@[simp] theorem coreReset_ph (s : State) : (coreReset s).ph = .idle := rfl
@[simp] theorem coreReset_opl (s : State) : (coreReset s).opl = 0#4 := rfl
@[simp] theorem coreReset_n (s : State) : (coreReset s).n = 0 := rfl
@[simp] theorem coreReset_i (s : State) : (coreReset s).i = 0 := rfl
@[simp] theorem coreReset_kidx (s : State) : (coreReset s).kidx = 0 := rfl
@[simp] theorem coreReset_acc (s : State) : (coreReset s).acc = 0x00#8 := rfl
@[simp] theorem coreReset_bcnt (s : State) : (coreReset s).bcnt = 0#4 := rfl
@[simp] theorem coreReset_q0 (s : State) : (coreReset s).q0 = 0x00#8 := rfl
@[simp] theorem coreReset_q1 (s : State) : (coreReset s).q1 = 0x00#8 := rfl
@[simp] theorem coreReset_q2 (s : State) : (coreReset s).q2 = 0x00#8 := rfl
@[simp] theorem coreReset_qlen (s : State) : (coreReset s).qlen = 0#2 := rfl
@[simp] theorem coreReset_result (s : State) : (coreReset s).result = [] := rfl
@[simp] theorem coreReset_script (s : State) : (coreReset s).script = s.script := rfl
@[simp] theorem coreReset_caps (s : State) : (coreReset s).caps = s.caps := rfl
@[simp] theorem coreReset_seen (s : State) : (coreReset s).seen = s.seen := rfl

@[simp] theorem archView_cmd (s : State) : (archView s).cmd = s.cmd := rfl
@[simp] theorem archView_status (s : State) : (archView s).status = s.status := rfl
@[simp] theorem archView_ibuf (s : State) : (archView s).ibuf = s.ibuf := rfl
@[simp] theorem archView_key (s : State) : (archView s).key = s.key := rfl
@[simp] theorem archView_obuf (s : State) : (archView s).obuf = s.obuf := rfl
@[simp] theorem archView_bbuf (s : State) : (archView s).bbuf = s.bbuf := rfl
@[simp] theorem archView_grid (s : State) : (archView s).grid = s.grid := rfl
@[simp] theorem archView_ph (s : State) : (archView s).ph = s.ph := rfl
@[simp] theorem archView_opl (s : State) : (archView s).opl = 0#4 := rfl
@[simp] theorem archView_n (s : State) : (archView s).n = 0 := rfl
@[simp] theorem archView_i (s : State) : (archView s).i = 0 := rfl
@[simp] theorem archView_kidx (s : State) : (archView s).kidx = 0 := rfl
@[simp] theorem archView_acc (s : State) : (archView s).acc = 0x00#8 := rfl
@[simp] theorem archView_bcnt (s : State) : (archView s).bcnt = 0#4 := rfl
@[simp] theorem archView_q0 (s : State) : (archView s).q0 = 0x00#8 := rfl
@[simp] theorem archView_q1 (s : State) : (archView s).q1 = 0x00#8 := rfl
@[simp] theorem archView_q2 (s : State) : (archView s).q2 = 0x00#8 := rfl
@[simp] theorem archView_qlen (s : State) : (archView s).qlen = 0#2 := rfl
@[simp] theorem archView_result (s : State) : (archView s).result = [] := rfl
@[simp] theorem archView_script (s : State) : (archView s).script = s.script := rfl
@[simp] theorem archView_caps (s : State) : (archView s).caps = s.caps := rfl
@[simp] theorem archView_seen (s : State) : (archView s).seen = s.seen := rfl

@[simp] theorem doneStep_cmd (s : State) : (doneStep s).cmd = s.cmd := rfl
@[simp] theorem doneStep_status (s : State) : (doneStep s).status = statusWord false s.err := rfl
@[simp] theorem doneStep_ibuf (s : State) : (doneStep s).ibuf = s.ibuf := rfl
@[simp] theorem doneStep_key (s : State) : (doneStep s).key = s.key := rfl
@[simp] theorem doneStep_obuf (s : State) : (doneStep s).obuf = s.obuf := rfl
@[simp] theorem doneStep_bbuf (s : State) : (doneStep s).bbuf = s.bbuf := rfl
@[simp] theorem doneStep_grid (s : State) : (doneStep s).grid = s.grid := rfl
@[simp] theorem doneStep_ph (s : State) : (doneStep s).ph = .idle := rfl
@[simp] theorem doneStep_opl (s : State) : (doneStep s).opl = s.opl := rfl
@[simp] theorem doneStep_n (s : State) : (doneStep s).n = s.n := rfl
@[simp] theorem doneStep_i (s : State) : (doneStep s).i = s.i := rfl
@[simp] theorem doneStep_kidx (s : State) : (doneStep s).kidx = s.kidx := rfl
@[simp] theorem doneStep_acc (s : State) : (doneStep s).acc = s.acc := rfl
@[simp] theorem doneStep_bcnt (s : State) : (doneStep s).bcnt = s.bcnt := rfl
@[simp] theorem doneStep_q0 (s : State) : (doneStep s).q0 = s.q0 := rfl
@[simp] theorem doneStep_q1 (s : State) : (doneStep s).q1 = s.q1 := rfl
@[simp] theorem doneStep_q2 (s : State) : (doneStep s).q2 = s.q2 := rfl
@[simp] theorem doneStep_qlen (s : State) : (doneStep s).qlen = s.qlen := rfl
@[simp] theorem doneStep_result (s : State) : (doneStep s).result = s.result := rfl
@[simp] theorem doneStep_script (s : State) : (doneStep s).script = s.script := rfl
@[simp] theorem doneStep_caps (s : State) : (doneStep s).caps = s.caps := rfl
@[simp] theorem doneStep_seen (s : State) : (doneStep s).seen = s.seen := rfl

@[simp] theorem setBlue_grid_w (m : Memory) (s : State) : (setBlue m s).grid.w = s.grid.w := rfl
@[simp] theorem setBlue_grid_h (m : Memory) (s : State) : (setBlue m s).grid.h = s.grid.h := rfl
@[simp] theorem setBlue_grid_hasAlpha (m : Memory) (s : State) : (setBlue m s).grid.hasAlpha = s.grid.hasAlpha := rfl
@[simp] theorem setBlue_grid_red (m : Memory) (s : State) : (setBlue m s).grid.red = s.grid.red := rfl
@[simp] theorem setBlue_grid_green (m : Memory) (s : State) : (setBlue m s).grid.green = s.grid.green := rfl
@[simp] theorem setBlue_grid_alpha (m : Memory) (s : State) : (setBlue m s).grid.alpha = s.grid.alpha := rfl
@[simp] theorem setBlue_grid_pixCount (m : Memory) (s : State) : (setBlue m s).grid.pixCount = s.grid.pixCount := rfl
@[simp] theorem setBlue_grid_blue (m : Memory) (s : State) : (setBlue m s).grid.blue = m := rfl

@[simp] theorem clearDest_nowhere (s : State) : clearDest .nowhere s = s := rfl
@[simp] theorem clearDest_obuf (s : State) : clearDest .obuf s = setObuf [] s := rfl
@[simp] theorem clearDest_bbuf (s : State) : clearDest .bbuf s = s := rfl
@[simp] theorem clearDest_grid (s : State) : clearDest .grid s = s := rfl
@[simp] theorem clearResult_nowhere (s : State) : clearResult .nowhere s = s := rfl
@[simp] theorem clearResult_obuf (s : State) : clearResult .obuf s = setObuf [] s := rfl
@[simp] theorem clearResult_bbuf (s : State) : clearResult .bbuf s = s := rfl
@[simp] theorem clearResult_grid (s : State) : clearResult .grid s = s := rfl

@[simp] theorem clearDest_cmd (d : Dest) (s : State) : (clearDest d s).cmd = s.cmd := by cases d <;> rfl
@[simp] theorem clearDest_status (d : Dest) (s : State) : (clearDest d s).status = s.status := by cases d <;> rfl
@[simp] theorem clearDest_ibuf (d : Dest) (s : State) : (clearDest d s).ibuf = s.ibuf := by cases d <;> rfl
@[simp] theorem clearDest_key (d : Dest) (s : State) : (clearDest d s).key = s.key := by cases d <;> rfl
theorem clearDest_obuf_eq (d : Dest) (s : State) : (clearDest d s).obuf = if d = .obuf then [] else s.obuf := by
  cases d <;> rfl
@[simp] theorem clearDest_keeps_bbuf (d : Dest) (s : State) : (clearDest d s).bbuf = s.bbuf := by cases d <;> rfl
@[simp] theorem clearDest_keeps_grid (d : Dest) (s : State) : (clearDest d s).grid = s.grid := by cases d <;> rfl
@[simp] theorem clearDest_ph (d : Dest) (s : State) : (clearDest d s).ph = s.ph := by cases d <;> rfl
@[simp] theorem clearDest_opl (d : Dest) (s : State) : (clearDest d s).opl = s.opl := by cases d <;> rfl
@[simp] theorem clearDest_n (d : Dest) (s : State) : (clearDest d s).n = s.n := by cases d <;> rfl
@[simp] theorem clearDest_i (d : Dest) (s : State) : (clearDest d s).i = s.i := by cases d <;> rfl
@[simp] theorem clearDest_kidx (d : Dest) (s : State) : (clearDest d s).kidx = s.kidx := by cases d <;> rfl
@[simp] theorem clearDest_acc (d : Dest) (s : State) : (clearDest d s).acc = s.acc := by cases d <;> rfl
@[simp] theorem clearDest_bcnt (d : Dest) (s : State) : (clearDest d s).bcnt = s.bcnt := by cases d <;> rfl
@[simp] theorem clearDest_q0 (d : Dest) (s : State) : (clearDest d s).q0 = s.q0 := by cases d <;> rfl
@[simp] theorem clearDest_q1 (d : Dest) (s : State) : (clearDest d s).q1 = s.q1 := by cases d <;> rfl
@[simp] theorem clearDest_q2 (d : Dest) (s : State) : (clearDest d s).q2 = s.q2 := by cases d <;> rfl
@[simp] theorem clearDest_qlen (d : Dest) (s : State) : (clearDest d s).qlen = s.qlen := by cases d <;> rfl
@[simp] theorem clearDest_result (d : Dest) (s : State) : (clearDest d s).result = s.result := by cases d <;> rfl
@[simp] theorem clearDest_script (d : Dest) (s : State) : (clearDest d s).script = s.script := by cases d <;> rfl
@[simp] theorem clearDest_caps (d : Dest) (s : State) : (clearDest d s).caps = s.caps := by cases d <;> rfl
@[simp] theorem clearDest_seen (d : Dest) (s : State) : (clearDest d s).seen = s.seen := by cases d <;> rfl

@[simp] theorem toDone_cmd (d : Dest) (e : ErrCode) (s : State) : (toDone d e s).cmd = s.cmd := by cases d <;> rfl
@[simp] theorem toDone_status (d : Dest) (e : ErrCode) (s : State) : (toDone d e s).status = statusWord true (errNumber e) := rfl
@[simp] theorem toDone_ibuf (d : Dest) (e : ErrCode) (s : State) : (toDone d e s).ibuf = s.ibuf := by cases d <;> rfl
@[simp] theorem toDone_key (d : Dest) (e : ErrCode) (s : State) : (toDone d e s).key = s.key := by cases d <;> rfl
theorem toDone_obuf (d : Dest) (e : ErrCode) (s : State) :
    (toDone d e s).obuf = if d = .obuf then [] else s.obuf := clearDest_obuf_eq d s
@[simp] theorem toDone_bbuf (d : Dest) (e : ErrCode) (s : State) : (toDone d e s).bbuf = s.bbuf := by cases d <;> rfl
@[simp] theorem toDone_grid (d : Dest) (e : ErrCode) (s : State) : (toDone d e s).grid = s.grid := by cases d <;> rfl
@[simp] theorem toDone_ph (d : Dest) (e : ErrCode) (s : State) : (toDone d e s).ph = .done := rfl
@[simp] theorem toDone_opl (d : Dest) (e : ErrCode) (s : State) : (toDone d e s).opl = s.opl := by cases d <;> rfl
@[simp] theorem toDone_n (d : Dest) (e : ErrCode) (s : State) : (toDone d e s).n = s.n := by cases d <;> rfl
@[simp] theorem toDone_i (d : Dest) (e : ErrCode) (s : State) : (toDone d e s).i = s.i := by cases d <;> rfl
@[simp] theorem toDone_kidx (d : Dest) (e : ErrCode) (s : State) : (toDone d e s).kidx = s.kidx := by cases d <;> rfl
@[simp] theorem toDone_acc (d : Dest) (e : ErrCode) (s : State) : (toDone d e s).acc = s.acc := by cases d <;> rfl
@[simp] theorem toDone_bcnt (d : Dest) (e : ErrCode) (s : State) : (toDone d e s).bcnt = s.bcnt := by cases d <;> rfl
@[simp] theorem toDone_q0 (d : Dest) (e : ErrCode) (s : State) : (toDone d e s).q0 = s.q0 := by cases d <;> rfl
@[simp] theorem toDone_q1 (d : Dest) (e : ErrCode) (s : State) : (toDone d e s).q1 = s.q1 := by cases d <;> rfl
@[simp] theorem toDone_q2 (d : Dest) (e : ErrCode) (s : State) : (toDone d e s).q2 = s.q2 := by cases d <;> rfl
@[simp] theorem toDone_qlen (d : Dest) (e : ErrCode) (s : State) : (toDone d e s).qlen = s.qlen := by cases d <;> rfl
@[simp] theorem toDone_result (d : Dest) (e : ErrCode) (s : State) : (toDone d e s).result = s.result := by cases d <;> rfl
@[simp] theorem toDone_script (d : Dest) (e : ErrCode) (s : State) : (toDone d e s).script = s.script := by cases d <;> rfl
@[simp] theorem toDone_caps (d : Dest) (e : ErrCode) (s : State) : (toDone d e s).caps = s.caps := by cases d <;> rfl
@[simp] theorem toDone_seen (d : Dest) (e : ErrCode) (s : State) : (toDone d e s).seen = s.seen := by cases d <;> rfl

end Sys2Proof.Machine
end

