-- ==== Sys2Proof/Laws/Units.lean ====
section
/-!
SUPPORT. What each unit's function computes, one lemma per function: the keystream XOR (R110), the BitPacker (R120, R121), the
byte stream (R140) and the scan (R141, R142).
-/

namespace Sys2Proof.Machine

/-! ### The StreamCipher -/

theorem xorFrom_length (p : List Byte) (pos : Nat) (bs : List Byte) : (xorFrom p pos bs).length = bs.length := by
  induction bs generalizing pos with
  | nil => rfl
  | cons b rest ih => simp [xorFrom, ih]

theorem xorStream_length (bs p : List Byte) : (xorStream bs p).length = bs.length := xorFrom_length p 0 bs

theorem xorFrom_getElem? (p : List Byte) (pos : Nat) (bs : List Byte) (k : Nat) :
    (xorFrom p pos bs)[k]? = bs[k]?.map (fun b => b ^^^ p.getD ((pos + k) % p.length) 0x00#8) := by
  induction bs generalizing pos k with
  | nil => simp [xorFrom]
  | cons b rest ih =>
    cases k with
    | zero => simp [xorFrom]
    | succ k => simp only [xorFrom, List.getElem?_cons_succ, ih, show pos + 1 + k = pos + (k + 1) by omega]

theorem xorStream_getElem? (bs p : List Byte) (k : Nat) :
    (xorStream bs p)[k]? = bs[k]?.map (fun b => b ^^^ p.getD (k % p.length) 0x00#8) := by
  simp [xorStream, xorFrom_getElem?]

/-- A prefix is ciphered with the same password positions as the whole. -/
theorem xorStream_take (bs p : List Byte) (k : Nat) : xorStream (bs.take k) p = (xorStream bs p).take k := by
  apply List.ext_getElem?
  intro j
  rw [xorStream_getElem?]
  by_cases h : j < k
  · simp [h, xorStream_getElem?]
  · simp [h]

/-- The next byte, ciphered, extends a ciphered prefix (R116). -/
theorem xorStream_take_succ {bs p : List Byte} {i : Nat} {b k : Byte} (hb : bs[i]? = some b)
    (hk : p[i % p.length]? = some k) : xorStream (bs.take (i + 1)) p = xorStream (bs.take i) p ++ [b ^^^ k] := by
  rw [xorStream_take, xorStream_take, List.take_add_one, xorStream_getElem?, hb, Option.map_some,
    List.getD_eq_getElem?_getD, hk]
  rfl

theorem xorFrom_append (p : List Byte) (pos : Nat) (a b : List Byte) :
    xorFrom p pos (a ++ b) = xorFrom p pos a ++ xorFrom p (pos + a.length) b := by
  induction a generalizing pos with
  | nil => simp [xorFrom]
  | cons c rest ih => simp [xorFrom, ih, Nat.add_assoc, Nat.add_comm 1]

/-! ### The BitPacker -/

theorem bytesToBits_length (bs : List Byte) : (bytesToBits bs).length = 8 * bs.length := by
  induction bs with
  | nil => rfl
  | cons b rest ih => simp [bytesToBits, byteBits, ih]; omega

theorem bytesToBits_append (a b : List Byte) : bytesToBits (a ++ b) = bytesToBits a ++ bytesToBits b := by
  induction a with
  | nil => rfl
  | cons c rest ih => simp [bytesToBits, ih]

theorem byteBits_getElem? (v : Byte) (k : Nat) (h : k < 8) : (byteBits v)[k]? = some (v.getLsbD (7 - k)) := by
  interval_cases k <;> rfl

theorem bytesToBits_getElem? (bs : List Byte) (k : Nat) (h : k < 8 * bs.length) :
    (bytesToBits bs)[k]? = some ((bs.getD (k / 8) 0x00#8).getLsbD (7 - k % 8)) := by
  induction bs generalizing k with
  | nil => simp at h
  | cons b rest ih =>
    by_cases hk : k < 8
    · rw [bytesToBits, List.getElem?_append_left (by simpa [byteBits] using hk), byteBits_getElem? b k hk]
      simp [Nat.div_eq_of_lt hk, Nat.mod_eq_of_lt hk]
    · obtain ⟨d, rfl⟩ : ∃ d, k = d + 8 := ⟨k - 8, by omega⟩
      have hd : d < 8 * rest.length := by simp at h; omega
      rw [bytesToBits, List.getElem?_append_right (by simp [byteBits])]
      simp only [byteBits, List.length_cons, List.length_nil, Nat.zero_add, Nat.reduceAdd, Nat.add_sub_cancel, ih d hd]
      simp

theorem bitsToByte_eight (b0 b1 b2 b3 b4 b5 b6 b7 : Bit) (k : Nat) :
    (bitsToByte [b0, b1, b2, b3, b4, b5, b6, b7]).getLsbD k =
      (decide (k < 8) && [b0, b1, b2, b3, b4, b5, b6, b7].getD (7 - k) false) := by
  by_cases hk : k < 8
  · interval_cases k <;>
      · revert b0 b1 b2 b3 b4 b5 b6 b7
        decide
  · simp [BitVec.getLsbD_of_ge _ _ (by omega : 8 ≤ k), hk]

/-- A byte is what its bits say. -/
theorem byte_ext {v w : Byte} (h : ∀ k, k < 8 → v.getLsbD (7 - k) = w.getLsbD (7 - k)) : v = w := by
  apply BitVec.eq_of_getLsbD_eq
  intro k hk
  have := h (7 - k) (by omega)
  rwa [show 7 - (7 - k) = k by omega] at this

/-! ### The Embedder -/

theorem embedFn_read (g : Grid) (p : List Byte) (n : Nat) :
    memRead (embedFn g p) n =
      if n < 8 * p.length then lsbWrite (memRead g.blue n) ((p.getD (n / 8) 0x00#8).getLsbD (7 - n % 8))
      else memRead g.blue n := by
  rw [embedFn, memRead_embedFrom, bytesToBits_length]
  by_cases h : n < 8 * p.length
  · simp [h, List.getD_eq_getElem?_getD, bytesToBits_getElem? p n h]
  · simp [h]

theorem embedFn_planeOf {g : Grid} {p : List Byte} {count : Nat} (h : g.blue.planeOf count)
    (hfit : 8 * p.length ≤ count) : (embedFn g p).planeOf count :=
  embedFrom_planeOf h (by simpa [bytesToBits_length] using hfit)

theorem overCapacity_iff (g : Grid) (len : Nat) : overCapacity g len = true ↔ g.pixCount < 8 * len := by
  simp [overCapacity]

theorem overCapacity_false_iff (g : Grid) (len : Nat) : overCapacity g len = false ↔ 8 * len ≤ g.pixCount := by
  simp [overCapacity]

theorem zextBit_eq (b : Bit) : zextBit b = if b then 0x01#8 else 0x00#8 := by cases b <;> rfl

theorem lsbWrite_getLsbD (old : Byte) (b : Bit) (k : Nat) :
    (lsbWrite old b).getLsbD k = if k = 0 then b else old.getLsbD k := by
  by_cases hk : k < 8
  · interval_cases k <;> cases b <;> revert old <;> decide
  · have h8 : 8 ≤ k := by omega
    simp [BitVec.getLsbD_of_ge _ _ h8, show k ≠ 0 by omega]

/-! ### The Extractor -/

theorem streamByte_getLsbD (g : Grid) (j k : Nat) (h : k < 8) :
    (streamByte g j).getLsbD (7 - k) = blueLsb g (8 * j + k) := by
  rw [streamByte, bitsToByte_eight]
  interval_cases k <;> rfl

/-- The stream's bytes are determined by the blue LSBs. -/
theorem streamByte_unique {g : Grid} {j : Nat} {v : Byte}
    (h : ∀ k, k < 8 → v.getLsbD (7 - k) = blueLsb g (8 * j + k)) : v = streamByte g j :=
  byte_ext (fun k hk => by rw [h k hk, streamByte_getLsbD g j k hk])

theorem byteStream_length (g : Grid) : (byteStream g).length = g.pixCount / 8 := by simp [byteStream]

theorem byteStream_getElem? (g : Grid) (j : Nat) (h : j < g.pixCount / 8) :
    (byteStream g)[j]? = some (streamByte g j) := by simp [byteStream, h]

/-- The lookahead queue after `j` bytes of the stream `L` (R142). -/
def queueAfter (L : List Byte) (j : Nat) : List Byte := (L.take j).drop (j - 3)

/-- The output accumulator after `j` bytes of the stream `L` (R142). -/
def outAfter (L : List Byte) (j : Nat) : List Byte := L.take (j - 3)

/-- Pushing byte `j`, and popping the front of a full queue, gives the queue and the output after `j + 1` bytes. -/
theorem queueAfter_succ (L : List Byte) (j : Nat) (v : Byte) (h : L[j]? = some v) :
    queueAfter L (j + 1) = (if 3 ≤ j then (queueAfter L j ++ [v]).drop 1 else queueAfter L j ++ [v]) ∧
    outAfter L (j + 1) = (if 3 ≤ j then outAfter L j ++ (queueAfter L j).take 1 else outAfter L j) := by
  have htake : L.take (j + 1) = L.take j ++ [v] := by rw [List.take_add_one, h]; rfl
  have hlen : j < L.length := by
    rcases Nat.lt_or_ge j L.length with h' | h'
    · exact h'
    · simp [List.getElem?_eq_none h'] at h
  unfold queueAfter outAfter
  by_cases h3 : 3 ≤ j
  · obtain ⟨d, rfl⟩ : ∃ d, j = d + 3 := ⟨j - 3, by omega⟩
    have hd : d ≤ (L.take (d + 3)).length := by simp; omega
    refine ⟨?_, ?_⟩
    · rw [if_pos h3, htake, show d + 3 + 1 - 3 = d + 1 by omega, show d + 3 - 3 = d by omega,
        ← List.drop_append_of_le_length hd, List.drop_drop]
    · rw [if_pos h3, show d + 3 + 1 - 3 = d + 1 by omega, show d + 3 - 3 = d by omega, List.drop_take,
        List.take_take, List.take_add]
      simp
  · rw [if_neg h3, if_neg h3, htake, show j + 1 - 3 = 0 by omega, show j - 3 = 0 by omega]
    simp

theorem queueAfter_length (L : List Byte) (j : Nat) (h : j ≤ L.length) : (queueAfter L j).length = min j 3 := by
  simp [queueAfter]; omega

/-- The queue after `j + 1` bytes holds the terminator exactly when the window that ends at byte `j` does (R142). -/
theorem queueAfter_eq_term (L : List Byte) (j : Nat) (h : j < L.length) :
    queueAfter L (j + 1) = term ↔ 2 ≤ j ∧ (L.drop (j - 2)).take 3 = term := by
  by_cases h2 : 2 ≤ j
  · rw [queueAfter, List.drop_take, show j + 1 - 3 = j - 2 by omega, show j + 1 - (j - 2) = 3 by omega]
    simp [h2]
  · constructor
    · intro e
      have := congrArg List.length e
      rw [queueAfter_length L (j + 1) (by omega)] at this
      simp [term] at this
      omega
    · intro e
      exact absurd e.1 h2

/-- One iteration of the scan (R141), in the closed form of its queue and output. -/
theorem scan_step (L : List Byte) (j : Nat) (h : j < L.length) :
    scan (queueAfter L j) (outAfter L j) (L.drop j) =
      if queueAfter L (j + 1) = term then some (outAfter L (j + 1))
      else scan (queueAfter L (j + 1)) (outAfter L (j + 1)) (L.drop (j + 1)) := by
  obtain ⟨hq, ho⟩ := queueAfter_succ L j L[j] (List.getElem?_eq_getElem h)
  have hlen := queueAfter_length L j (by omega)
  rw [List.drop_eq_getElem_cons h, scan]
  by_cases h3 : 3 ≤ j
  · have e : 3 < (queueAfter L j ++ [L[j]]).length := by simp [hlen]; omega
    have e' : (queueAfter L j ++ [L[j]]).take 1 = (queueAfter L j).take 1 := by
      rw [List.take_append_of_le_length (by omega)]
    rw [if_pos h3] at hq ho
    simp only [e, if_true, e', ← hq, ← ho]
  · have e : ¬ 3 < (queueAfter L j ++ [L[j]]).length := by simp [hlen]; omega
    rw [if_neg h3] at hq ho
    simp only [e, if_false, hq, ho]

/-- The scan from byte `j` on returns the bytes before the first window that ends at or after `j` (R142). -/
theorem scan_from_found (L : List Byte) (t j : Nat) (hj : j ≤ t) (h2 : 2 ≤ t) (ht : (L.drop (t - 2)).take 3 = term)
    (hmin : ∀ k, j ≤ k + 2 → k < t - 2 → (L.drop k).take 3 ≠ term) :
    scan (queueAfter L j) (outAfter L j) (L.drop j) = some (L.take (t - 2)) := by
  have hlen : t < L.length := by
    have := congrArg List.length ht
    simp [term] at this
    omega
  rw [scan_step L j (by omega)]
  by_cases e : j = t
  · subst e
    rw [if_pos ((queueAfter_eq_term L j hlen).mpr ⟨h2, ht⟩), outAfter, show j + 1 - 3 = j - 2 by omega]
  · have : queueAfter L (j + 1) ≠ term := by
      intro e'
      obtain ⟨hj2, hw⟩ := (queueAfter_eq_term L j (by omega)).mp e'
      exact hmin (j - 2) (by omega) (by omega) hw
    rw [if_neg this]
    exact scan_from_found L t (j + 1) (by omega) h2 ht (fun k hk => hmin k (by omega))
termination_by t - j

/-- The scan from byte `j` on exhausts a stream without a window that ends at or after `j` (R142). -/
theorem scan_from_none (L : List Byte) (j : Nat) (hnone : ∀ k, j ≤ k + 2 → (L.drop k).take 3 ≠ term) :
    scan (queueAfter L j) (outAfter L j) (L.drop j) = none := by
  by_cases h : j < L.length
  · rw [scan_step L j h]
    have : queueAfter L (j + 1) ≠ term := by
      intro e'
      obtain ⟨hj2, hw⟩ := (queueAfter_eq_term L j h).mp e'
      exact hnone (j - 2) (by omega) hw
    rw [if_neg this]
    exact scan_from_none L (j + 1) (fun k hk => hnone k (by omega))
  · rw [List.drop_eq_nil_of_le (by omega)]
    rfl
termination_by L.length - j

/-- R142 on a list: the bytes before the first occurrence of the terminator. -/
theorem scan_found (L : List Byte) (k : Nat) (hk : (L.drop k).take 3 = term)
    (hmin : ∀ j, j < k → (L.drop j).take 3 ≠ term) : scan [] [] L = some (L.take k) := by
  have := scan_from_found L (k + 2) 0 (by omega) (by omega) (by simpa using hk) (fun j _ hj => hmin j (by omega))
  simpa [queueAfter, outAfter] using this

/-- R142 on a list: no occurrence, no result. -/
theorem scan_none (L : List Byte) (hnone : ∀ k, (L.drop k).take 3 ≠ term) : scan [] [] L = none := by
  have := scan_from_none L 0 (fun k _ => hnone k)
  simpa [queueAfter, outAfter] using this

end Sys2Proof.Machine
end

