-- ==== Sys2Proof/Laws/Steps.lean ====
section
/-!
SUPPORT. What each shared operation and each step function can do, said once: the fields of STATUS, the shape of a command's
answer (R171, R184), one inversion lemma per row of the sequencer (R172) and one per host move.
-/

namespace Sys2Proof.Machine

/-! ### STATUS -/

theorem statusWord_busy (b : Bool) (e : BitVec 3) : (statusWord b e).getLsbD 7 = b := by
  revert e; cases b <;> decide

theorem statusWord_err (b : Bool) (e : BitVec 3) : (statusWord b e).extractLsb' 0 3 = e := by
  revert e; cases b <;> decide

theorem statusWord_rsv (b : Bool) (e : BitVec 3) : (statusWord b e).extractLsb' 3 4 = 0#4 := by
  revert e; cases b <;> decide

theorem errNumber_le (e : ErrCode) : (errNumber e).toNat ≤ 4 := by cases e <;> decide

@[simp] theorem finish_busy (e : ErrCode) (s : State) : (finish e s).busy = false := statusWord_busy _ _
@[simp] theorem finish_err (e : ErrCode) (s : State) : (finish e s).err = errNumber e := statusWord_err _ _
@[simp] theorem finish_rsv (e : ErrCode) (s : State) : (finish e s).statusRsv = 0#4 := statusWord_rsv _ _
@[simp] theorem toDone_busy (d : Dest) (e : ErrCode) (s : State) : (toDone d e s).busy = true := by
  rw [State.busy, toDone_status, statusWord_busy]
@[simp] theorem toDone_err (d : Dest) (e : ErrCode) (s : State) : (toDone d e s).err = errNumber e := by
  rw [State.err, toDone_status, statusWord_err]
@[simp] theorem toDone_rsv (d : Dest) (e : ErrCode) (s : State) : (toDone d e s).statusRsv = 0#4 := by
  rw [State.statusRsv, toDone_status, statusWord_rsv]
@[simp] theorem issue_busy (c : Byte) (s : State) : (issue c s).busy = true := statusWord_busy _ _
@[simp] theorem issue_err (c : Byte) (s : State) : (issue c s).err = 0#3 := statusWord_err _ _
@[simp] theorem issue_rsv (c : Byte) (s : State) : (issue c s).statusRsv = 0#4 := statusWord_rsv _ _
@[simp] theorem doneStep_busy (s : State) : (doneStep s).busy = false := statusWord_busy _ _
@[simp] theorem doneStep_err (s : State) : (doneStep s).err = s.err := statusWord_err _ _
@[simp] theorem doneStep_rsv (s : State) : (doneStep s).statusRsv = 0#4 := statusWord_rsv _ _

/-! ### The commands -/

/-- Every command answers a next state that differs from the state at issue in its destination, STATUS and PH alone (R171);
where it reports an error the destination is what R184 leaves. -/
theorem exec_shape (i : Instr) (s : State) :
    ∃ e t, exec i s = .next (finish e t) ∧
      ((destOf i = .obuf ∧ ∃ o, t = setObuf o s ∧ (e ≠ .ok → o = [])) ∨
       (i = .b2bits ∧ e = .ok ∧ t = setBbuf (bytesToBits s.ibuf) s) ∨
       (destOf i = .grid ∧ e = .ok ∧ ∃ p, 8 * p.length ≤ s.grid.pixCount ∧ t = setBlue (embedFn s.grid p) s) ∨
       (destOf i = .grid ∧ e ≠ .ok ∧ t = s)) := by
  have cipher : ∃ e t, cipherBuffer s = .next (finish e t) ∧ ∃ o, t = setObuf o s ∧ (e ≠ .ok → o = []) := by
    unfold cipherBuffer
    split
    · exact ⟨.invalidKey, setObuf [] s, rfl, [], rfl, fun _ => rfl⟩
    · exact ⟨.ok, _, rfl, _, rfl, fun h => absurd rfl h⟩
  cases i with
  | encrypt =>
    obtain ⟨e, t, h, ht⟩ := cipher
    exact ⟨e, t, h, .inl ⟨rfl, ht⟩⟩
  | decrypt =>
    obtain ⟨e, t, h, ht⟩ := cipher
    exact ⟨e, t, h, .inl ⟨rfl, ht⟩⟩
  | b2bits => exact ⟨.ok, _, rfl, .inr (.inl ⟨rfl, rfl, rfl⟩)⟩
  | bits2b =>
    simp only [exec, execBits2b]
    split
    · exact ⟨.ok, _, rfl, .inl ⟨rfl, _, rfl, fun h => absurd rfl h⟩⟩
    · exact ⟨.illegalOperation, setObuf [] s, rfl, .inl ⟨rfl, [], rfl, fun _ => rfl⟩⟩
  | embed =>
    simp only [exec, execEmbed]
    split
    · exact ⟨.capacity, s, rfl, .inr (.inr (.inr ⟨rfl, by decide, rfl⟩))⟩
    · rename_i h
      exact ⟨.ok, _, rfl, .inr (.inr (.inl ⟨rfl, rfl, s.ibuf, by simpa [overCapacity] using h, rfl⟩))⟩
  | extract =>
    simp only [exec, execExtract]
    split
    · exact ⟨.ok, _, rfl, .inl ⟨rfl, _, rfl, fun h => absurd rfl h⟩⟩
    · exact ⟨.terminatorNotFound, setObuf [] s, rfl, .inl ⟨rfl, [], rfl, fun _ => rfl⟩⟩
  | hide =>
    simp only [exec, execHide]
    split
    · exact ⟨.invalidKey, s, rfl, .inr (.inr (.inr ⟨rfl, by decide, rfl⟩))⟩
    · split
      · exact ⟨.capacity, s, rfl, .inr (.inr (.inr ⟨rfl, by decide, rfl⟩))⟩
      · rename_i h
        have hlen : (payload s.ibuf s.key).length = s.ilen + 3 := by simp [payload, xorStream_length, term]
        refine ⟨.ok, _, rfl, .inr (.inr (.inl ⟨rfl, rfl, payload s.ibuf s.key, ?_, rfl⟩))⟩
        rw [hlen]
        simpa [overCapacity] using h
  | reveal =>
    simp only [exec, execReveal]
    split
    · exact ⟨.terminatorNotFound, setObuf [] s, rfl, .inl ⟨rfl, [], rfl, fun _ => rfl⟩⟩
    · split
      · exact ⟨.invalidKey, setObuf [] s, rfl, .inl ⟨rfl, [], rfl, fun _ => rfl⟩⟩
      · exact ⟨.ok, _, rfl, .inl ⟨rfl, _, rfl, fun h => absurd rfl h⟩⟩

/-- The command level (R8, R98): a write of CMD runs the decoded command from the issued state, or reports
IllegalOperation. -/
theorem runCommand_shape (c : Byte) (s : State) :
    (∃ i, decode c = .command i ∧ runCommand c s = exec i (issue c s)) ∨
    (∃ why, decode c = .illegal why ∧ runCommand c s = .next (finish .illegalOperation (issue c s))) := by
  unfold runCommand
  cases h : decode c with
  | command i => exact .inl ⟨i, rfl, rfl⟩
  | illegal why => exact .inr ⟨why, rfl, rfl⟩

/-! ### The sequencer -/

theorem cipherStep_next {s t : State} (h : cipherStep s = .next t) :
    (s.i < s.ilen ∧ ∃ b k, s.ibuf[s.i]? = some b ∧ s.key[s.kidx]? = some k ∧
      t = { s with obuf := s.obuf ++ [b ^^^ k], kidx := kidxNext s, i := s.i + 1 }) ∨
    (s.ilen ≤ s.i ∧ t = succeed s) := by
  unfold cipherStep at h
  split at h
  · rename_i hi
    split at h
    · rename_i b k hb hk
      cases h
      exact .inl ⟨hi, b, k, hb, hk, rfl⟩
    · cases h
  · rename_i hi
    cases h
    exact .inr ⟨by omega, rfl⟩

/-- BCNT counts up to 7 and then starts again (R28). -/
theorem bcntNext_toNat {s : State} {n : Nat} (h : s.bcnt.toNat = n % 8) : (bcntNext s).toNat = (n + 1) % 8 := by
  have hb : (s.bcnt + 1#4 = 8#4) ↔ s.bcnt.toNat = 7 := by
    rw [← BitVec.toNat_inj, BitVec.toNat_add]
    simp only [BitVec.toNat_ofNat]
    omega
  unfold bcntNext
  split
  · rename_i h8
    have := hb.1 h8
    simp only [BitVec.toNat_ofNat]
    omega
  · rename_i h8
    have := mt hb.2 h8
    rw [BitVec.toNat_add]
    simp only [BitVec.toNat_ofNat]
    omega

/-- Shifting bits out of ACC changes only the result, ACC and BCNT (R27, R28). -/
theorem serialise_frame (k : Nat) (s : State) :
    serialise k s = { s with result := (serialise k s).result, acc := (serialise k s).acc, bcnt := (serialise k s).bcnt } := by
  induction k generalizing s with
  | zero => rfl
  | succ k ih =>
    rw [serialise, ih]
    rfl

/-- Eight shifts move a byte out of ACC into the result, bit 7 first, and leave ACC and BCNT at 0 (R120, R126). -/
theorem serialise_byte {s : State} (h : s.bcnt = 0#4) :
    serialise 8 s = { s with result := s.result ++ byteBits s.acc, acc := 0x00#8 } := by
  have hacc : ∀ v : Byte, v <<< 1 <<< 1 <<< 1 <<< 1 <<< 1 <<< 1 <<< 1 <<< 1 = 0x00#8 := by decide
  have hbits : ∀ v : Byte, [v.getLsbD 7, (v <<< 1).getLsbD 7, (v <<< 1 <<< 1).getLsbD 7, (v <<< 1 <<< 1 <<< 1).getLsbD 7,
      (v <<< 1 <<< 1 <<< 1 <<< 1).getLsbD 7, (v <<< 1 <<< 1 <<< 1 <<< 1 <<< 1).getLsbD 7,
      (v <<< 1 <<< 1 <<< 1 <<< 1 <<< 1 <<< 1).getLsbD 7,
      (v <<< 1 <<< 1 <<< 1 <<< 1 <<< 1 <<< 1 <<< 1).getLsbD 7] = byteBits v := by decide
  simp only [serialise, shiftToResult, bcntNext, h, List.append_assoc, List.cons_append, List.nil_append, hacc, hbits]
  rfl

/-- A byte step of B2BITS changes the result, ACC, BCNT and I; from a BCNT of 0 the result takes the byte's eight bits and
ACC and BCNT are 0 again (R27, R28, R127). -/
theorem b2bitsStep_next {s t : State} (h : b2bitsStep s = .next t) :
    (s.i < s.ilen ∧ ∃ b r a c, s.ibuf[s.i]? = some b ∧
      (s.bcnt = 0#4 → r = s.result ++ byteBits b ∧ a = 0x00#8 ∧ c = 0#4) ∧
      t = { s with result := r, acc := a, bcnt := c, i := s.i + 1 }) ∨
    (s.ilen ≤ s.i ∧ t = succeed (setBbuf s.result s)) := by
  unfold b2bitsStep at h
  split at h
  · rename_i hi
    split at h
    · rename_i b hb
      cases h
      refine .inl ⟨hi, b, _, _, _, hb, fun h0 => ?_, by rw [serialise_frame]⟩
      rw [serialise_byte (s := { s with acc := b }) h0]
      exact ⟨rfl, rfl, h0⟩
    · cases h
  · rename_i hi
    cases h
    exact .inr ⟨by omega, rfl⟩

theorem bits2bStep_next {s t : State} (h : bits2bStep s = .next t) :
    s.blen = 8 ∧ t = succeed (setObuf [bitsToByte s.bbuf] s) := by
  unfold bits2bStep at h
  split at h
  · rename_i hb
    cases h
    exact ⟨hb, rfl⟩
  · cases h

/-- A bit shifted out goes into pixel N, which exists, and N, ACC and BCNT advance (R28, R134). -/
theorem shiftOut_next {s t : State} (h : shiftOut s = .next t) :
    s.n < s.grid.pixCount ∧
    t = { setBlue (memWrite s.grid.blue s.n (lsbWrite (memRead s.grid.blue s.n) (s.acc.getLsbD 7))) s with
          acc := s.acc <<< 1, bcnt := bcntNext s, n := s.n + 1 } := by
  by_cases hn : s.n < s.grid.pixCount
  · simp only [shiftOut, pixReadB, pixWriteB, hn, if_true] at h
    cases h
    exact ⟨hn, rfl⟩
  · simp only [shiftOut, pixReadB, hn, if_false] at h
    cases h

theorem loadEmbed_some {s t : State} (h : loadEmbed s = some t) :
    (s.n % 8 = 0 ∧ ∃ v, s.ibuf[s.n / 8]? = some v ∧ t = { s with acc := v }) ∨ (s.n % 8 ≠ 0 ∧ t = s) := by
  unfold loadEmbed at h
  split at h
  · rename_i h0
    split at h
    · rename_i v hv
      cases h
      exact .inl ⟨h0, v, hv, rfl⟩
    · cases h
  · rename_i h0
    cases h
    exact .inr ⟨h0, rfl⟩

theorem loadHide_some {s t : State} (h : loadHide s = some t) :
    (s.n % 8 = 0 ∧ s.n / 8 < s.ilen ∧ ∃ b k, s.ibuf[s.n / 8]? = some b ∧ s.key[s.kidx]? = some k ∧
      t = { s with acc := b ^^^ k, kidx := kidxNext s, i := s.i + 1 }) ∨
    (s.n % 8 = 0 ∧ s.ilen ≤ s.n / 8 ∧ ∃ v, term[s.n / 8 - s.ilen]? = some v ∧ t = { s with acc := v }) ∨
    (s.n % 8 ≠ 0 ∧ t = s) := by
  unfold loadHide at h
  split at h
  · rename_i h0
    split at h
    · rename_i hl
      split at h
      · rename_i b k hb hk
        cases h
        exact .inl ⟨h0, hl, b, k, hb, hk, rfl⟩
      · cases h
    · rename_i hl
      split at h
      · rename_i v hv
        cases h
        exact .inr (.inl ⟨h0, by omega, v, hv, rfl⟩)
      · cases h
  · rename_i h0
    cases h
    exact .inr (.inr ⟨h0, rfl⟩)

theorem pixelOut_next {load : State → Option State} {bits : Nat} {s t : State} (h : pixelOut load bits s = .next t) :
    (s.n < bits ∧ ∃ u, load s = some u ∧ shiftOut u = .next t) ∨ (bits ≤ s.n ∧ t = succeed s) := by
  unfold pixelOut at h
  split at h
  · rename_i hn
    split at h
    · rename_i u hu
      exact .inl ⟨hn, u, hu, h⟩
    · cases h
  · rename_i hn
    cases h
    exact .inr ⟨by omega, rfl⟩

/-- A pixel step of the detector reads pixel N, which exists, and shifts its LSB into ACC; the eighth bit of a byte makes a
byte step (R145). -/
theorem pixelIn_next {s t : State} (h : pixelIn s = .next t) :
    s.n < s.grid.pixCount ∧
    ((s.bcnt + 1#4 = 8#4 ∧
        t = byteStep (shiftIn s.acc (blueLsb s.grid s.n)) { s with acc := 0x00#8, bcnt := 0#4, n := s.n + 1 }) ∨
      (s.bcnt + 1#4 ≠ 8#4 ∧
        t = { s with acc := shiftIn s.acc (blueLsb s.grid s.n), bcnt := s.bcnt + 1#4, n := s.n + 1 })) := by
  by_cases hn : s.n < s.grid.pixCount
  · simp only [pixelIn, pixReadB, hn, if_true] at h
    refine ⟨hn, ?_⟩
    split at h
    · rename_i hb
      cases h
      exact .inl ⟨hb, rfl⟩
    · rename_i hb
      cases h
      exact .inr ⟨hb, rfl⟩
  · simp only [pixelIn, pixReadB, hn, if_false] at h
    cases h

/-- What a byte step changes: the queue, and with a full queue the output and its index (R146). -/
theorem byteStep_eq (v : Byte) (s : State) :
    byteStep v s =
      if s.qlen = 0#2 then { s with q0 := v, qlen := 1#2 }
      else if s.qlen = 1#2 then { s with q1 := v, qlen := 2#2 }
      else if s.qlen = 2#2 then { s with q2 := v, qlen := 3#2 }
      else { s with obuf := s.obuf ++ [s.q0], i := s.i + 1, q0 := s.q1, q1 := s.q2, q2 := v } := by
  have cases4 : ∀ x : BitVec 2, x = 0#2 ∨ x = 1#2 ∨ x = 2#2 ∨ x = 3#2 := by decide
  rcases cases4 s.qlen with h | h | h | h <;> simp [byteStep, h]

/-- A byte step changes only the queue, OBUF and I (R146). -/
theorem byteStep_frame (v : Byte) (s : State) :
    (byteStep v s).cmd = s.cmd ∧ (byteStep v s).status = s.status ∧ (byteStep v s).ibuf = s.ibuf ∧
    (byteStep v s).key = s.key ∧ (byteStep v s).bbuf = s.bbuf ∧ (byteStep v s).grid = s.grid ∧
    (byteStep v s).ph = s.ph ∧ (byteStep v s).opl = s.opl ∧ (byteStep v s).n = s.n ∧ (byteStep v s).kidx = s.kidx ∧
    (byteStep v s).acc = s.acc ∧ (byteStep v s).bcnt = s.bcnt ∧ (byteStep v s).script = s.script ∧
    (byteStep v s).seen = s.seen ∧ (byteStep v s).caps = s.caps := by
  rw [byteStep_eq]
  split_ifs <;> exact ⟨rfl, rfl, rfl, rfl, rfl, rfl, rfl, rfl, rfl, rfl, rfl, rfl, rfl, rfl, rfl⟩

/-- A pixel step of the detector advances N and changes only the detector's registers and OBUF (R145). -/
theorem pixelIn_frame {s t : State} (h : pixelIn s = .next t) :
    t.cmd = s.cmd ∧ t.status = s.status ∧ t.ibuf = s.ibuf ∧ t.key = s.key ∧ t.bbuf = s.bbuf ∧ t.grid = s.grid ∧
    t.ph = s.ph ∧ t.opl = s.opl ∧ t.n = s.n + 1 ∧ t.kidx = s.kidx ∧ t.script = s.script ∧ t.seen = s.seen ∧
    t.caps = s.caps := by
  obtain ⟨_, ⟨_, rfl⟩ | ⟨_, rfl⟩⟩ := pixelIn_next h
  · obtain ⟨h1, h2, h3, h4, h5, h6, h7, h8, h9, h10, _, _, h13, h14, h15⟩ :=
      byteStep_frame (shiftIn s.acc (blueLsb s.grid s.n)) { s with acc := 0x00#8, bcnt := 0#4, n := s.n + 1 }
    exact ⟨h1, h2, h3, h4, h5, h6, h7, h8, h9, h10, h13, h14, h15⟩
  · exact ⟨rfl, rfl, rfl, rfl, rfl, rfl, rfl, rfl, rfl, rfl, rfl, rfl, rfl⟩

theorem extractStep_next {s t : State} (h : extractStep s = .next t) :
    (found s = true ∧ t = succeed s) ∨ (found s = false ∧ pixelIn s = .next t) ∨
    (found s = false ∧ s.grid.pixCount ≤ s.n ∧ t = toDone .obuf .terminatorNotFound s) := by
  unfold extractStep at h
  split at h
  · rename_i hf
    cases h
    exact .inl ⟨hf, rfl⟩
  · rename_i hf
    split at h
    · exact .inr (.inl ⟨by simpa using hf, h⟩)
    · rename_i hn
      cases h
      exact .inr (.inr ⟨by simpa using hf, by omega, rfl⟩)

theorem revealStep_next {s t : State} (h : revealStep s = .next t) :
    (found s = true ∧ s.klen = 0 ∧ t = toDone .obuf .invalidKey s) ∨
    (found s = true ∧ s.klen ≠ 0 ∧ t = { s with ph := .run2, i := 0, kidx := 0 }) ∨
    (found s = false ∧ pixelIn s = .next t) ∨
    (found s = false ∧ s.grid.pixCount ≤ s.n ∧ t = toDone .obuf .terminatorNotFound s) := by
  unfold revealStep at h
  split at h
  · rename_i hf
    split at h
    · rename_i hk
      cases h
      exact .inl ⟨hf, hk, rfl⟩
    · rename_i hk
      cases h
      exact .inr (.inl ⟨hf, hk, rfl⟩)
  · rename_i hf
    split at h
    · exact .inr (.inr (.inl ⟨by simpa using hf, h⟩))
    · rename_i hn
      cases h
      exact .inr (.inr (.inr ⟨by simpa using hf, by omega, rfl⟩))

theorem run2Step_next {s t : State} (h : run2Step s = .next t) :
    s.opl = opOf .reveal ∧
    ((s.i < s.olen ∧ ∃ b k, s.obuf[s.i]? = some b ∧ s.key[s.kidx]? = some k ∧
      t = { s with obuf := s.obuf.set s.i (b ^^^ k), kidx := kidxNext s, i := s.i + 1 }) ∨
    (s.olen ≤ s.i ∧ t = succeed s)) := by
  unfold run2Step at h
  split at h
  · rename_i hop
    refine ⟨hop, ?_⟩
    split at h
    · rename_i hi
      split at h
      · rename_i b k hb hk
        cases h
        exact .inl ⟨hi, b, k, hb, hk, rfl⟩
      · cases h
    · rename_i hi
      cases h
      exact .inr ⟨by omega, rfl⟩
  · cases h

/-- The CHECK phase ends in DONE with an error or in RUN (R172). -/
theorem checkStep_cases (s : State) :
    (∃ d e, e ≠ .ok ∧ checkStep s = toDone d e s) ∨
    (∃ i, decode s.cmd = .command i ∧ precheck i s = none ∧ checkStep s = startRun i s) := by
  unfold checkStep
  cases hd : decode s.cmd with
  | illegal why => exact .inl ⟨.nowhere, .illegalOperation, by decide, rfl⟩
  | command i =>
    cases hp : precheck i s with
    | none => exact .inr ⟨i, rfl, hp, by simp [hp]⟩
    | some e =>
      refine .inl ⟨destOf i, e, ?_, by simp [hp]⟩
      rintro rfl
      cases i <;> simp only [precheck] at hp <;> (repeat' split at hp) <;> cases hp

/-! ### The detector and the cycling key -/

/-- `found` says that the queue holds exactly the terminator (R146). -/
theorem found_iff_queue (s : State) : found s = true ↔ queueOf s = term := by
  have cases4 : ∀ x : BitVec 2, x = 0#2 ∨ x = 1#2 ∨ x = 2#2 ∨ x = 3#2 := by decide
  rcases cases4 s.qlen with e | e | e | e <;> simp [found, queueOf, e, term, and_assoc]

/-- An occurrence of the terminator lies within the sequence. -/
theorem termAt_length {c : List Byte} {k : Nat} (h : termAt c k) : k + 3 ≤ c.length := by
  have := congrArg List.length h
  simp [term] at this
  omega

/-- From the third byte on, OBUF holds the bytes before the queue's three (R148). -/
theorem scanOk_split {s : State} (h : ScanOk s) (h3 : 3 ≤ s.n / 8) :
    s.obuf = (byteStream s.grid).take (s.n / 8 - 3) ∧
    queueOf s = ((byteStream s.grid).drop (s.n / 8 - 3)).take 3 := by
  have hb := h.bytes_eq
  have hn := h.n_le
  have hq : (queueOf s).length = min (s.n / 8) 3 := by simp [queueOf, h.qlen_eq]
  obtain ⟨d, hd⟩ : ∃ d, s.n / 8 = d + 3 := ⟨s.n / 8 - 3, by omega⟩
  rw [hd, List.take_add] at hb
  rw [hd, Nat.add_sub_cancel]
  exact List.append_inj' hb (by rw [hq, List.length_take, List.length_drop, byteStream_length]; omega)

/-- Between two pixel steps `found` says that the newest three bytes of the stream are the terminator (R142, R148). -/
theorem scanOk_found_iff {s : State} (h : ScanOk s) :
    found s = true ↔ 3 ≤ s.n / 8 ∧ termAt (byteStream s.grid) (s.n / 8 - 3) := by
  rw [found_iff_queue]
  constructor
  · intro e
    have h3 : 3 ≤ s.n / 8 := by
      have hq : (queueOf s).length = min (s.n / 8) 3 := by simp [queueOf, h.qlen_eq]
      simp [e, term] at hq
      omega
    exact ⟨h3, (scanOk_split h h3).2.symm.trans e⟩
  · rintro ⟨h3, e⟩
    rw [(scanOk_split h h3).2]
    exact e

/-- KIDX cycles through the password: from I mod KLEN it goes to (I + 1) mod KLEN (R26). -/
theorem kidxNext_eq {s : State} {i : Nat} (hk : s.klen ≠ 0) (h : s.kidx = i % s.klen) : kidxNext s = (i + 1) % s.klen := by
  have hlt := Nat.mod_lt i (Nat.pos_of_ne_zero hk)
  unfold kidxNext
  rw [h]
  split
  · rename_i e
    rcases Nat.lt_or_ge 1 s.klen with h1 | h1
    · rw [Nat.add_mod, Nat.mod_eq_of_lt h1, e, Nat.mod_self]
    · obtain e1 : s.klen = 1 := by omega
      rw [e1, Nat.mod_one]
  · rename_i e
    rw [Nat.add_mod i 1, Nat.mod_eq_of_lt (show 1 < s.klen by omega), Nat.mod_eq_of_lt (show i % s.klen + 1 < s.klen by omega)]

/-! ### The host's moves -/

theorem whileIdle_next {s t : State} {o : Host.Outcome State Fault Refusal} (h : whileIdle s o = .next t) :
    s.busy = false ∧ o = .next t := by
  unfold whileIdle at h
  split at h
  · cases h
  · rename_i hb
    exact ⟨by simpa using hb, h⟩

theorem whileIdle_of_idle {s : State} (o : Host.Outcome State Fault Refusal) (h : s.busy = false) :
    whileIdle s o = o := by simp [whileIdle, h]

theorem withinCap_iff (c : Option Caps) (cap : Caps → Nat) (len : Nat) :
    withinCap c cap len = true ↔ ∀ k, c = some k → len ≤ cap k := by
  cases c with
  | none => simp [withinCap]
  | some k => simp [withinCap]

theorem withinCap_false {c : Option Caps} {k : Caps} {cap : Caps → Nat} {len : Nat} (hc : c = some k) (hl : cap k < len) :
    withinCap c cap len = false := by
  subst hc
  exact decide_eq_false (Nat.not_le.2 hl)

theorem loadIfFits_next {cap : Caps → Nat} {len : Nat} {s t : State} (h : loadIfFits cap len s = .next t) :
    (∀ k, s.caps = some k → len ≤ cap k) ∧ t = s := by
  unfold loadIfFits at h
  split at h
  · rename_i hl
    cases h
    exact ⟨(withinCap_iff _ _ _).1 hl, rfl⟩
  · cases h

theorem attach_next {w h : Nat} {r g b : List Byte} {a : Option (List Byte)} {s t : State}
    (hn : attach w h r g b a s = .next t) :
    gridShapeOk w h r g b a = true ∧ (∀ k, s.caps = some k → w * h ≤ k.maxpix) ∧
      t = { s with grid := gridOf w h r g b a } := by
  unfold attach at hn
  split at hn
  · rename_i hs
    obtain ⟨hc, rfl⟩ := loadIfFits_next hn
    exact ⟨hs, hc, rfl⟩
  · cases hn

theorem readPixel_next {c : Channel} {n : Nat} {s t : State} (h : readPixel c n s = .next t) :
    n < s.grid.pixCount ∧ ∃ m, channelOf s.grid c = some m ∧ t = { s with seen := (memRead m n).toNat :: s.seen } := by
  unfold readPixel at h
  split at h
  · cases h
  · rename_i m hm
    split at h
    · rename_i hn
      cases h
      exact ⟨hn, m, hm, rfl⟩
    · cases h

theorem writePixel_next {c : Channel} {n : Nat} {v : Byte} {s t : State} (h : writePixel c n v s = .next t) :
    n < s.grid.pixCount ∧ ∃ m, channelOf s.grid c = some m ∧
      t = { s with grid := withChannel s.grid c (memWrite m n v) } := by
  unfold writePixel at h
  split at h
  · cases h
  · rename_i m hm
    split at h
    · rename_i hn
      cases h
      exact ⟨hn, m, hm, rfl⟩
    · cases h

theorem readRegister_next {r : Nat} {s t : State} (h : readRegister r s = .next t) :
    (s.busy = true → r = 1) ∧ ∃ v, regValue s r = some v ∧ t = { s with seen := v :: s.seen } := by
  unfold readRegister at h
  split at h
  · cases h
  · rename_i hb
    split at h
    · rename_i v hv
      cases h
      refine ⟨fun hbusy => ?_, v, hv, rfl⟩
      simpa [hbusy] using hb
    · cases h

theorem readObufAt_next {k : Nat} {s t : State} (h : readObufAt k s = .next t) :
    ∃ v, s.obuf[k]? = some v ∧ t = { s with seen := v.toNat :: s.seen } := by
  unfold readObufAt at h
  split at h
  · rename_i v hv
    cases h
    exact ⟨v, hv, rfl⟩
  · cases h

theorem readBbufAt_next {k : Nat} {s t : State} (h : readBbufAt k s = .next t) :
    ∃ b, s.bbuf[k]? = some b ∧ t = { s with seen := b.toNat :: s.seen } := by
  unfold readBbufAt at h
  split at h
  · rename_i v hv
    cases h
    exact ⟨v, hv, rfl⟩
  · cases h

theorem writeRegister_next {r : Nat} {v : Byte} {s t : State} (h : writeRegister r v s = .next t) :
    r = 0 ∧ runCommand v s = .next t := by
  unfold writeRegister at h
  split at h
  · rename_i hr
    exact ⟨by simpa [registerWritable] using hr, h⟩
  · split at h <;> cases h

theorem isLegal_iff (c : Caps) : c.isLegal = true ↔ c.Legal := by
  simp only [Caps.isLegal, Bool.and_eq_true, decide_eq_true_eq]
  exact ⟨fun ⟨⟨⟨⟨⟨a, b⟩, c⟩, d⟩, e⟩, f⟩ => ⟨a, b, c, d, e, f⟩, fun ⟨a, b, c, d, e, f⟩ => ⟨⟨⟨⟨⟨a, b⟩, c⟩, d⟩, e⟩, f⟩⟩

/-- The test before every step is the premise LegalConfig of R179. -/
theorem configLegal_iff (s : State) : configLegal s.caps = true ↔ LegalConfig s := by
  unfold configLegal LegalConfig
  cases s.caps with
  | none => simp
  | some c => simp [isLegal_iff]

/-- An illegal configuration is refused before any move (U6). -/
theorem step_illegal {s : State} (hc : ¬ LegalConfig s) : step s = .refused .illegalConfiguration := by
  rw [← configLegal_iff] at hc
  simp [step, underLegalConfig, hc]

theorem step_nil {s : State} (hc : LegalConfig s) (h : s.script = []) : step s = coreStep s := by
  rw [← configLegal_iff] at hc
  simp only [step, underLegalConfig, hc, h, if_true]

theorem step_cons {s : State} {m : HostMove} {rest : List HostMove} (hc : LegalConfig s) (h : s.script = m :: rest) :
    step s = hostMove m { s with script := rest } := by
  rw [← configLegal_iff] at hc
  simp only [step, underLegalConfig, hc, h, if_true]

/-- The write of CMD on an idle machine is the command (R170). -/
theorem step_writeCmd {s : State} {c : Byte} {rest : List HostMove} (hc : LegalConfig s) (hb : s.busy = false)
    (h : s.script = .writeReg 0 c :: rest) : step s = runCommand c { s with script := rest } := by
  rw [step_cons hc h]
  exact whileIdle_of_idle (s := { s with script := rest }) _ hb

/-- The step-level write of CMD on an idle machine is the issue (R170). -/
theorem step_issue {s : State} {c : Byte} {rest : List HostMove} (hc : LegalConfig s) (hb : s.busy = false)
    (h : s.script = .issue c :: rest) : step s = .next (issue c { s with script := rest }) := by
  rw [step_cons hc h]
  exact whileIdle_of_idle (s := { s with script := rest }) _ hb

/-- A step that is not the refusal of an illegal configuration is the next host move of the script, or a step of the core when
the script is empty. -/
theorem step_cases {s : State} {o : Host.Outcome State Fault Refusal} (h : step s = o)
    (hr : o ≠ .refused .illegalConfiguration) :
    LegalConfig s ∧ ((s.script = [] ∧ coreStep s = o) ∨
      (∃ m rest, s.script = m :: rest ∧ hostMove m { s with script := rest } = o)) := by
  by_cases hc : LegalConfig s
  · refine ⟨hc, ?_⟩
    cases hs : s.script with
    | nil => exact .inl ⟨rfl, step_nil hc hs ▸ h⟩
    | cons m rest => exact .inr ⟨m, rest, rfl, step_cons hc hs ▸ h⟩
  · exact absurd (h ▸ step_illegal hc) hr

theorem step_next {s t : State} (h : step s = .next t) :
    LegalConfig s ∧ ((s.script = [] ∧ coreStep s = .next t) ∨
      (∃ m rest, s.script = m :: rest ∧ hostMove m { s with script := rest } = .next t)) :=
  step_cases h (by simp)

end Sys2Proof.Machine
end

