-- ==== Sys2Proof/Tests/Slice0.lean ====
section
/-!
SUPPORT. Tests of the model on vectors of 95_test_vectors.md and 30_encoding.md, the refusals of WellFormed, and for every
statement with hypotheses a witness that meets them together.
-/

namespace Sys2Proof.Tests

open Sys2Proof Sys2Proof.Machine

/-! ### The command bytes, written out from the format CMD8 (R95) and the table of R96 -/

theorem test_decode_encrypt : decode 0b00000001#8 = .command .encrypt := by decide
theorem test_decode_decrypt : decode 0b00000010#8 = .command .decrypt := by decide
theorem test_decode_b2bits : decode 0b00000011#8 = .command .b2bits := by decide
theorem test_decode_bits2b : decode 0b00000100#8 = .command .bits2b := by decide
theorem test_decode_embed : decode 0b00000101#8 = .command .embed := by decide
theorem test_decode_extract : decode 0b00000110#8 = .command .extract := by decide
theorem test_decode_hide : decode 0b00000111#8 = .command .hide := by decide
theorem test_decode_reveal : decode 0b00001000#8 = .command .reveal := by decide
/-- V51. -/
theorem test_decode_zero : decode 0x00#8 = .illegal .opReserved := by decide
/-- V52. -/
theorem test_decode_nine : decode 0x09#8 = .illegal .opReserved := by decide
/-- V52. -/
theorem test_decode_fifteen : decode 0x0F#8 = .illegal .opReserved := by decide
/-- V53: HIDE's OP under RSV = 1. -/
theorem test_decode_rsv_low : decode 0x17#8 = .illegal .rsvNotZero := by decide
/-- V53: ENCRYPT's OP under RSV = 8. -/
theorem test_decode_rsv_high : decode 0x81#8 = .illegal .rsvNotZero := by decide
theorem test_tableWord_hide : decodeTableWord 8 0x07 = some .hide := by decide
theorem test_tableWord_illegal : decodeTableWord 8 0x09 = none := by decide
theorem test_tableWord_length : decodeTableWord 16 0x07 = none := by decide

/-! ### WellFormed: each check refuses an ill-formed term -/

/-- Small capacities for tests. -/
def caps1 : Caps := { nin := 1, nkey := 1, nout := 1, nbit := 8, maxpix := 8, lenw := 4 }

theorem test_wellFormed_commands : Instr.wellFormed .hide = true := by decide
theorem test_loadIbuf_too_long : HostMove.wellFormed caps1 (.loadIbuf [0x00#8, 0x00#8]) = false := by decide
theorem test_loadKey_too_long : HostMove.wellFormed caps1 (.loadKey [0x00#8, 0x00#8]) = false := by decide
theorem test_loadBbuf_too_long : HostMove.wellFormed caps1 (.loadBbuf (List.replicate 9 true)) = false := by decide
theorem test_grid_too_few_pixels : HostMove.wellFormed caps1 (.attachGrid 1 1 [0x01#8] [0x02#8] [] none) = false := by
  decide
theorem test_grid_too_many_pixels :
    HostMove.wellFormed caps1 (.attachGrid 1 1 [0x01#8] [0x02#8, 0x02#8] [0x03#8] none) = false := by decide
theorem test_grid_alpha_missing :
    HostMove.wellFormed caps1 (.attachGrid 1 1 [0x01#8] [0x02#8] [0x03#8] (some [])) = false := by decide
theorem test_grid_too_large :
    HostMove.wellFormed caps1 (.attachGrid 3 3 (List.replicate 9 0x01#8) (List.replicate 9 0x01#8)
      (List.replicate 9 0x01#8) none) = false := by decide
theorem test_register_absent : HostMove.wellFormed caps1 (.readReg 8) = false := by decide
theorem test_register_readOnly : HostMove.wellFormed caps1 (.writeReg 1 0x00#8) = false := by decide
theorem test_moves_wellFormed :
    HostMove.wellFormed caps1 (.attachGrid 8 1 (List.replicate 8 0x01#8) (List.replicate 8 0x02#8)
      (List.replicate 8 0x03#8) none) = true ∧
    HostMove.wellFormed caps1 (.loadIbuf [0x01#8]) = true ∧ HostMove.wellFormed caps1 (.readReg 7) = true := by decide

/-! ### Memory -/

theorem test_memory_orders_cells : memWrite (memWrite [] 5 0x01#8) 3 0x02#8 = [(3, 0x02#8), (5, 0x01#8)] := by decide
theorem test_memory_blank_removes : memWrite [(3, 0x02#8), (5, 0x01#8)] 3 0x00#8 = [(5, 0x01#8)] := by decide
theorem test_memory_ill_formed : ¬ Memory.wf [(5, 0x01#8), (3, 0x02#8)] := by decide

/-! ### One step of each command -/

/-- A grid with the listed blue bytes; red and green are 0x5A and 0xC3 (program P1). -/
def gridB (w h : Nat) (blue : List Byte) : Grid :=
  gridOf w h (List.replicate (w * h) 0x5A#8) (List.replicate (w * h) 0xC3#8) blue none

/-- A grid of one row whose byte stream is the listed bytes, its blue bytes 0x10 or 0x11. -/
def gridS (bs : List Byte) : Grid :=
  gridB (8 * bs.length) 1 ((bytesToBits bs).map (fun b => if b then 0x11#8 else 0x10#8))

/-- The state one step after the host's write of `c` to CMD. -/
def afterCmd (c : Byte) (s : State) : Option State :=
  match step { s with script := [.writeReg 0 c] } with
  | .next t => some t
  | _ => none

/-- OBUF and STATUS after a command. -/
def obufAfter (c : Byte) (s : State) : Option (List Byte × Byte) := (afterCmd c s).map (fun t => (t.obuf, t.status))

/-- BBUF and STATUS after a command. -/
def bbufAfter (c : Byte) (s : State) : Option (List Bit × Byte) := (afterCmd c s).map (fun t => (t.bbuf, t.status))

/-- The blue bytes, and STATUS, after a command. -/
def blueAfter (c : Byte) (s : State) : Option (List Byte × Byte) :=
  (afterCmd c s).map (fun t => ((List.range t.grid.pixCount).map (memRead t.grid.blue), t.status))

/-- V2: the key cycles. -/
theorem test_encrypt_cycles :
    obufAfter 0x01#8 { State.reset with ibuf := [0x48#8, 0x65#8, 0x6C#8, 0x6C#8, 0x6F#8], key := [0x4B#8, 0x45#8, 0x59#8] } =
      some ([0x03#8, 0x20#8, 0x35#8, 0x27#8, 0x2A#8], 0x00#8) := by decide
/-- V9: the previous OBUF is gone. -/
theorem test_encrypt_empty_key :
    obufAfter 0x01#8 { State.reset with ibuf := [0x48#8, 0x69#8], obuf := [0x29#8] } = some ([], 0x01#8) := by decide
/-- V3. -/
theorem test_decrypt_undoes :
    obufAfter 0x02#8 { State.reset with ibuf := [0x03#8, 0x20#8, 0x35#8, 0x27#8, 0x2A#8], key := [0x4B#8, 0x45#8, 0x59#8] } =
      some ([0x48#8, 0x65#8, 0x6C#8, 0x6C#8, 0x6F#8], 0x00#8) := by decide
/-- V9a. -/
theorem test_decrypt_empty_key : obufAfter 0x02#8 State.reset = some ([], 0x01#8) := by decide
/-- V12. -/
theorem test_b2bits_order :
    bbufAfter 0x03#8 { State.reset with ibuf := [0xA5#8, 0x3C#8] } =
      some ([true, false, true, false, false, true, false, true,
        false, false, true, true, true, true, false, false], 0x00#8) := by decide
/-- V11. -/
theorem test_b2bits_empty : bbufAfter 0x03#8 { State.reset with bbuf := [true] } = some ([], 0x00#8) := by decide
/-- V13. -/
theorem test_bits2b_weights :
    obufAfter 0x04#8 { State.reset with bbuf := [false, false, true, false, true, false, false, true] } =
      some ([0x29#8], 0x00#8) := by decide
/-- V16a. -/
theorem test_bits2b_seven_bits :
    obufAfter 0x04#8 { State.reset with bbuf := [false, false, true, false, true, false, false], obuf := [0x29#8] } =
      some ([], 0x04#8) := by decide
/-- V19: a byte across two rows, no carry. -/
theorem test_embed_rows :
    blueAfter 0x05#8 { State.reset with
      ibuf := [0xA5#8]
      grid := gridB 4 2 [0x00#8, 0x01#8, 0xFE#8, 0xFF#8, 0x80#8, 0x7F#8, 0x10#8, 0x11#8] } =
      some ([0x01#8, 0x00#8, 0xFF#8, 0xFE#8, 0x80#8, 0x7F#8, 0x10#8, 0x11#8], 0x00#8) := by decide
/-- V20: one pixel short. -/
theorem test_embed_capacity :
    blueAfter 0x05#8 { State.reset with ibuf := [0xA5#8], grid := gridB 7 1 (List.replicate 7 0x10#8) } =
      some (List.replicate 7 0x10#8, 0x02#8) := by decide
/-- V33: a partial pattern does not match. -/
theorem test_extract_partial :
    obufAfter 0x06#8 { State.reset with grid := gridS [0x00#8, 0x03#8, 0x00#8, 0x00#8, 0x03#8] } =
      some ([0x00#8, 0x03#8], 0x00#8) := by decide
/-- V37: no terminator, and what was read is not delivered. -/
theorem test_extract_not_found :
    obufAfter 0x06#8 { State.reset with
      obuf := [0x77#8]
      grid := gridS [0x29#8, 0x08#8, 0x00#8, 0x00#8, 0x02#8, 0xFF#8] } = some ([], 0x03#8) := by decide
/-- V21: exact fit. -/
theorem test_hide_exact_fit :
    blueAfter 0x07#8 { State.reset with
      ibuf := [0x48#8, 0x69#8]
      key := [0x61#8]
      grid := gridB 8 5 (List.replicate 40 0x40#8) } =
      some ([0x40#8, 0x40#8, 0x41#8, 0x40#8, 0x41#8, 0x40#8, 0x40#8, 0x41#8, 0x40#8, 0x40#8, 0x40#8, 0x40#8, 0x41#8,
        0x40#8, 0x40#8, 0x40#8] ++ List.replicate 22 0x40#8 ++ [0x41#8, 0x41#8], 0x00#8) := by decide +kernel
/-- V24: the empty password wins over the capacity. -/
theorem test_hide_priority :
    blueAfter 0x07#8 { State.reset with ibuf := [0x41#8], grid := gridB 1 1 [0x77#8] } = some ([0x77#8], 0x01#8) := by
  decide
/-- V45: a password of another length. -/
theorem test_reveal_wrong_password :
    obufAfter 0x08#8 { State.reset with
      key := [0x6B#8]
      grid := gridS [0x38#8, 0x00#8, 0x1A#8, 0x19#8, 0x00#8, 0x0D#8, 0x00#8, 0x00#8, 0x03#8] } =
      some ([0x53#8, 0x6B#8, 0x71#8, 0x72#8, 0x6B#8, 0x66#8], 0x00#8) := by decide
/-- V49, second row: without a terminator the empty password is not the error (D15). -/
theorem test_reveal_priority :
    obufAfter 0x08#8 { State.reset with grid := gridS [0xAA#8, 0xAA#8, 0xAA#8] } = some ([], 0x03#8) := by decide
/-- V53: RSV bits set, so HIDE does not run and only ERR (and CMD) changes. -/
theorem test_illegal_byte :
    obufAfter 0x17#8 { State.reset with obuf := [0x29#8], key := [0x61#8] } = some ([0x29#8], 0x04#8) := by decide
/-- The first command after reset, where the host's write stands (R200): the empty grid holds no terminator. -/
theorem test_withFetchWord_runs :
    (match step (State.reset.withFetchWord 8 0x06) with
      | .next t => some (t.cmd, t.status)
      | _ => none) = some (0x06#8, 0x03#8) := by decide

/-! ### Moves of the host -/

/-- A load from the reset state (program P1's second line). -/
theorem test_load_ibuf :
    (match step { State.reset with script := [.loadIbuf [0x48#8, 0x69#8], .readReg 2] } with
      | .next t => some (t.ibuf, t.script)
      | _ => none) = some ([0x48#8, 0x69#8], [.readReg 2]) := by decide
/-- U6. -/
theorem test_load_over_capacity :
    (match step { State.reset with caps := some caps1, script := [.loadIbuf [0x48#8, 0x69#8]] } with
      | .refused r => some r
      | _ => none) = some .overCapacity := by decide
/-- A configuration R11 forbids: one byte of input, none of output. -/
def badCaps : Caps := { nin := 1, nkey := 1, nout := 0, nbit := 8, maxpix := 0, lenw := 4 }

/-- U6. -/
theorem test_illegal_configuration :
    (match step { State.reset with caps := some badCaps, script := [.readReg 1] } with
      | .refused r => some r
      | _ => none) = some .illegalConfiguration := by decide
/-- V50: register 4 reads 0 after reset. -/
theorem test_read_olen :
    (match step { State.reset with script := [.readReg 4] } with
      | .next t => some t.seen
      | _ => none) = some [0] := by decide

/-! ### Single steps of the sequencer -/

/-- X2's first byte, its last pixel step: ACC 0x14 takes the bit 1 and 0x29 enters the queue. -/
theorem test_pixel_step_completes_byte :
    (match coreStep { State.reset with
        grid := gridS [0x29#8]
        cmd := 0x06#8, opl := 6#4, status := 0x80#8, ph := .run, n := 7, acc := 0x14#8, bcnt := 7#4 } with
      | .next t => some (t.acc, t.bcnt, t.qlen, t.q0, t.n)
      | _ => none) = some (0x00#8, 0#4, 1#2, 0x29#8, 8) := by decide
/-- X2's byte step j = 3: 0x29 is popped to the output. -/
theorem test_byte_step_pops :
    (fun t : State => (t.obuf, t.q0, t.q1, t.q2, t.i))
      (byteStep 0x00#8 { State.reset with q0 := 0x29#8, q1 := 0x08#8, q2 := 0x00#8, qlen := 3#2 }) =
      ([0x29#8], 0x08#8, 0x00#8, 0x00#8, 1) := by decide
/-- KIDX wraps at KLEN (R26). -/
theorem test_cipher_step_wraps :
    (match coreStep { State.reset with
        ibuf := [0x48#8, 0x65#8], key := [0x4B#8, 0x45#8], obuf := [0x03#8]
        cmd := 0x01#8, opl := 1#4, status := 0x80#8, ph := .run, i := 1, kidx := 1 } with
      | .next t => some (t.obuf, t.kidx, t.i)
      | _ => none) = some ([0x03#8, 0x20#8], 0, 2) := by decide

/-- R127 on V12's first byte: the bits of 0xA5 go to the result, and BBUF keeps what it held. -/
theorem test_b2bits_byte_step :
    (match coreStep { State.reset with
        ibuf := [0xA5#8], bbuf := [true], cmd := 0x03#8, opl := 3#4, status := 0x80#8, ph := .run } with
      | .next t => some (t.result, t.bbuf, t.acc, t.bcnt, t.i)
      | _ => none) =
      some ([true, false, true, false, false, true, false, true], [true], 0x00#8, 0#4, 1) := by decide
/-- R165 on V21's first byte: ACC takes 0x48 xor 0x61 = 0x29 and its bit 7 leaves; KIDX wraps and I counts the byte. -/
theorem test_hide_first_pixel_step :
    (match coreStep { State.reset with
        ibuf := [0x48#8, 0x69#8], key := [0x61#8], grid := gridB 8 5 (List.replicate 40 0x41#8)
        cmd := 0x07#8, opl := 7#4, status := 0x80#8, ph := .run } with
      | .next t => some (t.acc, t.n, t.bcnt, t.kidx, t.i, memRead t.grid.blue 0)
      | _ => none) = some (0x52#8, 1, 1#4, 0, 1, 0x40#8) := by decide +kernel

/-! ### Witnesses: for every statement with hypotheses, states and operands that meet them all together -/

/-- An idle machine whose host makes these moves next. -/
def idleWith (script : List HostMove) : State := { State.reset with script := script }

/-- A machine without a configuration has a legal one (R11). -/
theorem legal_of_none {s : State} (h : s.caps = none) : LegalConfig s := fun c hc => by
  rw [h] at hc
  cases hc

theorem caps1_legal : caps1.Legal := ⟨by decide, by decide, by decide, by decide, by decide, by decide⟩

theorem legal_of_caps1 {s : State} (h : s.caps = some caps1) : LegalConfig s := fun c hc => by
  rw [h] at hc
  cases hc
  exact caps1_legal

/-- A machine that has just been issued the command byte `c`, its host making these moves next. -/
def busyWith (c : Byte) (script : List HostMove) : State := { issue c State.reset with script := script }

theorem witness_IllegalByteOnlySetsErr4 :
    (∃ (s : State) (rest : List HostMove), LegalConfig s ∧ s.busy = false ∧ s.script = .writeReg 0 0x00#8 :: rest ∧
      (0x00#8 : Byte).toNat = 0) ∧
    (∃ (s : State) (rest : List HostMove), LegalConfig s ∧ s.busy = false ∧ s.script = .writeReg 0 0x09#8 :: rest ∧
      9 ≤ (0x09#8 : Byte).toNat) ∧
    (∃ (s : State) (rest : List HostMove), LegalConfig s ∧ s.busy = false ∧ s.script = .writeReg 0 0xFF#8 :: rest ∧
      9 ≤ (0xFF#8 : Byte).toNat) :=
  ⟨⟨idleWith [.writeReg 0 0x00#8], [], legal_of_none rfl, by decide, rfl, by decide⟩,
   ⟨idleWith [.writeReg 0 0x09#8], [], legal_of_none rfl, by decide, rfl, by decide⟩,
   ⟨idleWith [.writeReg 0 0xFF#8], [], legal_of_none rfl, by decide, rfl, by decide⟩⟩

theorem witness_StepRunsTheDecodedCommand :
    (∃ (s : State) (rest : List HostMove), LegalConfig s ∧ s.busy = false ∧ s.script = .writeReg 0 0x08#8 :: rest ∧
      decode 0x08#8 = .command .reveal) ∧
    (∃ (s : State) (w : Nat) (i : Instr), LegalConfig s ∧ w < 256 ∧ decodeTableWord 8 w = some i) :=
  ⟨⟨idleWith [.writeReg 0 0x08#8], [], legal_of_none rfl, by decide, rfl, by decide⟩,
   ⟨State.reset, 1, .encrypt, legal_of_none rfl, by decide, by decide⟩⟩

theorem witness_IssueLatchesAndCommandCompletes :
    (∃ (s : State) (rest : List HostMove), LegalConfig s ∧ s.busy = false ∧ s.script = .issue 0x05#8 :: rest) ∧
    (∃ (s : State) (rest : List HostMove), LegalConfig s ∧ s.busy = false ∧ s.script = .writeReg 0 0x05#8 :: rest) :=
  ⟨⟨idleWith [.issue 0x05#8, .wait], [.wait], legal_of_none rfl, by decide, rfl⟩,
   ⟨idleWith [.writeReg 0 0x05#8], [], legal_of_none rfl, by decide, rfl⟩⟩

theorem witness_EncryptXorsIbufWithCyclingKey :
    (∃ (s : State) (k : Nat), s.key ≠ [] ∧ k < s.ibuf.length) ∧ (∃ s : State, s.key = []) :=
  ⟨⟨{ State.reset with ibuf := [0x48#8, 0x69#8], key := [0x61#8] }, 1, by decide, by decide⟩, ⟨State.reset, rfl⟩⟩

theorem witness_DecryptXorsIbufWithCyclingKey :
    (∃ (s : State) (k : Nat), s.key ≠ [] ∧ k < s.ibuf.length) ∧ (∃ s : State, s.key = []) :=
  witness_EncryptXorsIbufWithCyclingKey

theorem witness_DecryptUndoesEncrypt : (∃ p : List Byte, p ≠ []) ∧ (∃ s : State, s.key ≠ []) :=
  ⟨⟨[0x61#8], by decide⟩, ⟨{ State.reset with key := [0x61#8] }, by decide⟩⟩

theorem witness_AlignedPiecesCipherAsTheWhole :
    ∃ (s : State) (a b : List Byte), s.key ≠ [] ∧ s.ibuf = a ++ b ∧ a.length % s.key.length = 0 ∧ a ≠ [] ∧ b ≠ [] :=
  ⟨{ State.reset with ibuf := [0x01#8, 0x02#8, 0x03#8], key := [0x61#8, 0x62#8] }, [0x01#8, 0x02#8], [0x03#8],
    by decide, by decide, by decide, by decide, by decide⟩

theorem witness_B2bitsEmitsBitsMsbFirst : ∃ (s : State) (k : Nat), k < 8 * s.ibuf.length ∧ k = 15 :=
  ⟨{ State.reset with ibuf := [0x29#8, 0x08#8] }, 15, by decide, rfl⟩

theorem witness_Bits2bAppliesTheWeights :
    (∃ s : State, s.bbuf = [false, false, true, false, true, false, false, true]) ∧
    (∃ s : State, s.bbuf.length ≠ 8 ∧ s.bbuf.length = 7) ∧ (∃ s : State, s.bbuf.length ≠ 8 ∧ s.bbuf.length = 9) :=
  ⟨⟨{ State.reset with bbuf := [false, false, true, false, true, false, false, true] }, rfl⟩,
   ⟨{ State.reset with bbuf := List.replicate 7 true }, by decide, by decide⟩,
   ⟨{ State.reset with bbuf := List.replicate 9 true }, by decide, by decide⟩⟩

theorem witness_BitPackerInverseLaws : ∃ b : List Bit, b.length = 8 := ⟨List.replicate 8 true, by decide⟩

theorem witness_ShiftRegisterPacksAndUnpacks :
    (∃ b : List Bit, b.length = 8) ∧ (∃ (bs : List Byte) (k : Nat), k < 8 * bs.length ∧ k = 7) :=
  ⟨⟨List.replicate 8 true, by decide⟩, ⟨[0xA5#8], 7, by decide, rfl⟩⟩

theorem witness_EmbedWritesThePayloadBits :
    (∃ s : State, 8 * s.ibuf.length ≤ s.grid.w * s.grid.h ∧ s.ibuf.length = 1 ∧ s.grid.w * s.grid.h = 8) ∧
    (∃ s : State, s.grid.w * s.grid.h < 8 * s.ibuf.length ∧ s.grid.w * s.grid.h = 7) :=
  ⟨⟨{ State.reset with ibuf := [0xA5#8], grid := gridB 4 2 (List.replicate 8 0x10#8) }, by decide, by decide, by decide⟩,
   ⟨{ State.reset with ibuf := [0xA5#8], grid := gridB 7 1 (List.replicate 7 0x10#8) }, by decide, by decide⟩⟩

theorem witness_LsbWriteChangesOnlyBitZero : ∃ k : Nat, 1 ≤ k := ⟨1, le_rfl⟩

/-- Every grid has its byte stream. -/
theorem isStream_streamByte (g : Grid) : IsStream g (streamByte g) := fun j k hk => streamByte_getLsbD g j k hk

/-- V31: the terminator at the grid's last bytes, t = 2; V36: no pixel, so no terminator; V37: five bytes without one. With
a password and without, for RevealDeciphersTheExtractedBytes. -/
theorem witness_ExtractReturnsBytesBeforeFirstTerminator :
    (∃ (s : State) (B : Nat → Byte), IsStream s.grid B ∧ FirstWindow s.grid B 2 ∧ s.key = []) ∧
    (∃ (s : State) (B : Nat → Byte), IsStream s.grid B ∧ FirstWindow s.grid B 3 ∧ s.key ≠ []) ∧
    (∃ (s : State) (B : Nat → Byte), IsStream s.grid B ∧ NoWindow s.grid B ∧ s.grid.pixCount = 0) ∧
    (∃ (s : State) (B : Nat → Byte), IsStream s.grid B ∧ NoWindow s.grid B ∧ s.grid.pixCount = 32) := by
  refine ⟨⟨{ State.reset with grid := gridS [0x00#8, 0x00#8, 0x03#8] }, _, isStream_streamByte _, ?_, rfl⟩,
    ⟨{ State.reset with grid := gridS [0x00#8, 0x00#8, 0x00#8, 0x03#8], key := [0x61#8] }, _, isStream_streamByte _,
      ?_, by decide⟩,
    ⟨State.reset, _, isStream_streamByte _, ?_, by decide⟩,
    ⟨{ State.reset with grid := gridS [0x08#8, 0x00#8, 0x00#8, 0x02#8] }, _, isStream_streamByte _, ?_, by decide⟩⟩
  · exact ⟨le_rfl, by decide, ⟨by decide, by decide, by decide⟩, fun j h2 ht => by omega⟩
  · refine ⟨by decide, by decide, ⟨by decide, by decide, by decide⟩, fun j h2 ht => ?_⟩
    obtain rfl : j = 2 := by omega
    exact fun h => absurd h.2.2 (by decide)
  · intro t _ ht
    exact absurd ht (by simp [State.reset, Grid.empty, Grid.pixCount])
  · intro t h2 ht h
    have ht4 : t < 4 := ht
    have h3 := h.2.2
    interval_cases t <;> exact absurd h3 (by decide)

theorem witness_RevealDeciphersTheExtractedBytes :
    (∃ (s : State) (B : Nat → Byte), IsStream s.grid B ∧ NoWindow s.grid B) ∧
    (∃ (s : State) (B : Nat → Byte) (t : Nat), IsStream s.grid B ∧ FirstWindow s.grid B t ∧ s.key = []) ∧
    (∃ (s : State) (B : Nat → Byte) (t : Nat), IsStream s.grid B ∧ FirstWindow s.grid B t ∧ s.key ≠ []) := by
  obtain ⟨⟨s, B, h1, h2, h3⟩, ⟨u, C, g1, g2, g3⟩, ⟨v, D, k1, k2, _⟩, _⟩ := witness_ExtractReturnsBytesBeforeFirstTerminator
  exact ⟨⟨v, D, k1, k2⟩, ⟨s, B, 2, h1, h2, h3⟩, ⟨u, C, 3, g1, g2, g3⟩⟩

/-- Two grids of another shape, other upper bits and another last pixel, which completes no byte. -/
theorem witness_ExtractionDependsOnlyOnBlueLsbs :
    ∃ s u : State, s.grid.w * s.grid.h = u.grid.w * u.grid.h ∧ s.key = u.key ∧
      (∀ n, n < 8 * (s.grid.w * s.grid.h / 8) →
        (memRead s.grid.blue n).getLsbD 0 = (memRead u.grid.blue n).getLsbD 0) ∧ s.grid ≠ u.grid :=
  ⟨{ State.reset with grid := gridB 3 3 (List.replicate 8 0x10#8 ++ [0x10#8]) },
   { State.reset with grid := gridB 9 1 (List.replicate 8 0xF0#8 ++ [0x11#8]) },
   by decide, rfl, by decide, by decide⟩

/-- A prefix without the terminator, and V34's, which is the terminator itself. -/
theorem witness_ExtractTruncatesAtFirstTermInside :
    (∃ (s : State) (c tail : List Byte), byteStream s.grid = c ++ term ++ tail ∧ ∀ k, ¬ termAt c k) ∧
    (∃ (s : State) (c tail : List Byte), byteStream s.grid = c ++ term ++ tail ∧ termAt c 0 ∧
      ∀ j, j < 0 → ¬ termAt c j) := by
  refine ⟨⟨{ State.reset with grid := gridS [0x29#8, 0x00#8, 0x00#8, 0x03#8, 0x5A#8] }, [0x29#8], [0x5A#8],
      by decide, fun k h => ?_⟩,
    ⟨{ State.reset with grid := gridS [0x00#8, 0x00#8, 0x03#8, 0x00#8, 0x00#8, 0x03#8] }, [0x00#8, 0x00#8, 0x03#8], [],
      by decide, by decide, fun j hj => absurd hj (Nat.not_lt_zero j)⟩⟩
  have hl := congrArg List.length h
  simp [term] at hl
  omega

theorem witness_ZeroCounterDetectorAgreesWithQueue :
    (∃ (stream : List Byte) (t : Nat), zFirst 0#2 0 stream = some t ∧ t = 3) ∧
    (∃ (s : State) (stream : List Byte) (v : Byte), s.qlen = 0#2 ∧ stream.length = 3 ∧ zMatch (stream.foldl zNext 0#2) v = true) :=
  ⟨⟨[0x00#8, 0x00#8, 0x00#8, 0x03#8], 3, by decide, rfl⟩,
   ⟨State.reset, [0x00#8, 0x00#8, 0x00#8], 0x03#8, rfl, rfl, by decide⟩⟩

/-- V42 cut to its first 24 pixels. -/
theorem witness_NeverEmbeddedGridCanSucceed :
    ∃ s : State, 24 ≤ s.grid.w * s.grid.h ∧ ∀ n, n < 24 → (memRead s.grid.blue n).getLsbD 0 = decide (22 ≤ n) :=
  ⟨{ State.reset with grid := gridB 8 3 (List.replicate 22 0x10#8 ++ [0x11#8, 0x11#8]) }, by decide, by decide⟩

/-- V22's exact fit and V22a, one pixel short. -/
theorem witness_HideEmbedsCiphertextThenTerminator :
    (∃ s : State, s.key = []) ∧
    (∃ s : State, s.key ≠ [] ∧ s.grid.w * s.grid.h < 8 * (s.ibuf.length + 3) ∧ s.grid.w * s.grid.h = 23) ∧
    (∃ s : State, s.key ≠ [] ∧ 8 * (s.ibuf.length + 3) ≤ s.grid.w * s.grid.h ∧ s.grid.w * s.grid.h = 24) :=
  ⟨⟨State.reset, rfl⟩,
   ⟨{ State.reset with key := [0x61#8], grid := gridB 23 1 (List.replicate 23 0xFF#8) }, by decide, by decide, by decide⟩,
   ⟨{ State.reset with key := [0x61#8], grid := gridB 6 4 (List.replicate 24 0xFF#8) }, by decide, by decide, by decide⟩⟩

/-- The ciphertext [0x29, 0x08] of X1, and V9b's, the terminator itself. -/
theorem witness_RevealAfterHideRoundTrip :
    (∃ s : State, s.key ≠ [] ∧ 8 * (s.ibuf.length + 3) ≤ s.grid.w * s.grid.h ∧
      ∀ k, ¬ termAt (xorStream s.ibuf s.key) k) ∧
    (∃ s : State, s.key ≠ [] ∧ 8 * (s.ibuf.length + 3) ≤ s.grid.w * s.grid.h ∧
      termAt (xorStream s.ibuf s.key) 0 ∧ ∀ j, j < 0 → ¬ termAt (xorStream s.ibuf s.key) j) := by
  refine ⟨⟨{ State.reset with ibuf := [0x48#8, 0x69#8], key := [0x61#8], grid := gridB 8 5 (List.replicate 40 0x40#8) },
      by decide, by decide, fun k h => ?_⟩,
    ⟨{ State.reset with ibuf := [0x61#8, 0x61#8, 0x62#8], key := [0x61#8], grid := gridB 8 6 (List.replicate 48 0x40#8) },
      by decide, by decide, by decide, fun j hj => absurd hj (Nat.not_lt_zero j)⟩⟩
  have hl := congrArg List.length h
  simp [term, xorStream_length] at hl
  omega

theorem witness_WrongPasswordRevealsSilently :
    ∃ (s : State) (p : List Byte), s.key ≠ [] ∧ p ≠ [] ∧ p ≠ s.key ∧ 8 * (s.ibuf.length + 3) ≤ s.grid.w * s.grid.h ∧
      ∀ k, ¬ termAt (xorStream s.ibuf s.key) k := by
  obtain ⟨⟨s, h1, h2, h3⟩, _⟩ := witness_RevealAfterHideRoundTrip
  refine ⟨s, s.key ++ [0x6B#8], h1, by simp, fun h => ?_, h2, h3⟩
  have hl := congrArg List.length h
  simp at hl

theorem witness_ErrorKindsAndPriorities : ∃ (s : State) (B : Nat → Byte), IsStream s.grid B :=
  ⟨State.reset, _, isStream_streamByte _⟩

theorem witness_CommandReadsOnlyItsOperands :
    ∃ (s u : State), (∀ sp, sp ∈ readsOf .encrypt → agreeOn sp s u) ∧ s.obuf ≠ u.obuf ∧ s.status ≠ u.status :=
  ⟨State.reset, { State.reset with obuf := [0x29#8], status := 0x02#8 }, fun sp _ => by
    cases sp <;> first | rfl | exact ⟨rfl, rfl, rfl⟩ | simp_all [readsOf], by decide, by decide⟩

/-- A legal configuration that BITS2B's byte fits, and one of capacity 0 for another command. -/
theorem witness_CommandsKeepWithinCapacities :
    (∃ (c : Caps) (s : State), c.Legal ∧ (Instr.bits2b = .bits2b → 1 ≤ c.nout) ∧ Fits c s) ∧
    (∃ (c : Caps) (s : State), c.Legal ∧ (Instr.embed = .bits2b → 1 ≤ c.nout) ∧ Fits c s ∧ c.nout = 0) :=
  ⟨⟨caps1, State.reset, ⟨by decide, by decide, by decide, by decide, by decide, by decide⟩, fun _ => by decide,
      ⟨by decide, by decide, by decide, by decide, by decide⟩⟩,
   ⟨{ nin := 0, nkey := 1, nout := 0, nbit := 8, maxpix := 7, lenw := 4 }, State.reset,
      ⟨by decide, by decide, by decide, by decide, by decide, by decide⟩, fun h => (by cases h),
      ⟨by decide, by decide, by decide, by decide, by decide⟩, rfl⟩⟩

theorem witness_CoreResetKeepsTheGridAndWaits :
    ∃ (s : State) (rest : List HostMove), LegalConfig s ∧ s.script = .reset :: rest ∧ s.busy = true ∧ s.ph = .check :=
  ⟨busyWith 0x05#8 [.reset], [], legal_of_none rfl, rfl, by decide, rfl⟩

/-- The reset before the first pixel step and after the last one. -/
theorem witness_ResetDuringEmbedLeavesAPrefix :
    (∃ s : State, LegalConfig s ∧ s.busy = false ∧ 0 ≤ 8 * s.ibuf.length ∧ 8 * s.ibuf.length ≤ s.grid.w * s.grid.h ∧
      s.script = .issue 0x05#8 :: (List.replicate (0 + 1) .wait ++ [.reset])) ∧
    (∃ s : State, LegalConfig s ∧ s.busy = false ∧ 8 ≤ 8 * s.ibuf.length ∧ 8 * s.ibuf.length ≤ s.grid.w * s.grid.h ∧
      s.script = .issue 0x05#8 :: (List.replicate (8 + 1) .wait ++ [.reset])) :=
  ⟨⟨{ idleWith (.issue 0x05#8 :: (List.replicate 1 .wait ++ [.reset])) with
        ibuf := [0xA5#8], grid := gridB 4 2 (List.replicate 8 0x10#8) }, legal_of_none rfl, by decide, by decide, by decide,
      rfl⟩,
   ⟨{ idleWith (.issue 0x05#8 :: (List.replicate 9 .wait ++ [.reset])) with
        ibuf := [0xA5#8], grid := gridB 4 2 (List.replicate 8 0x10#8) }, legal_of_none rfl, by decide, by decide, by decide,
      rfl⟩⟩

/-- The empty message: the reset before the first pixel step and after the last one, on a grid it fills. -/
theorem witness_ResetDuringHideLeavesAPrefix :
    (∃ s : State, LegalConfig s ∧ s.busy = false ∧ s.key ≠ [] ∧ 0 ≤ 8 * (s.ibuf.length + 3) ∧
      8 * (s.ibuf.length + 3) ≤ s.grid.w * s.grid.h ∧
      s.script = .issue 0x07#8 :: (List.replicate (0 + 1) .wait ++ [.reset])) ∧
    (∃ s : State, LegalConfig s ∧ s.busy = false ∧ s.key ≠ [] ∧ 24 ≤ 8 * (s.ibuf.length + 3) ∧
      8 * (s.ibuf.length + 3) ≤ s.grid.w * s.grid.h ∧
      s.script = .issue 0x07#8 :: (List.replicate (24 + 1) .wait ++ [.reset])) :=
  ⟨⟨{ idleWith (.issue 0x07#8 :: (List.replicate 1 .wait ++ [.reset])) with
        key := [0x61#8], grid := gridB 6 4 (List.replicate 24 0xFF#8) }, legal_of_none rfl, by decide, by decide, by decide,
      by decide, rfl⟩,
   ⟨{ idleWith (.issue 0x07#8 :: (List.replicate 25 .wait ++ [.reset])) with
        key := [0x61#8], grid := gridB 6 4 (List.replicate 24 0xFF#8) }, legal_of_none rfl, by decide, by decide, by decide,
      by decide, rfl⟩⟩

/-- A machine of configuration `caps1` whose host makes these moves next. -/
def boundedWith (script : List HostMove) : State := { State.reset with caps := some caps1, script := script }

/-- Loads that fill their buffer exactly, a grid of exactly MAXPIX pixels, and a machine without a configuration. -/
theorem witness_HostLoadsReplaceBufferOrGrid :
    (∃ (s : State) (bs : List Byte), LegalConfig s ∧ s.busy = false ∧ s.script = [.loadIbuf bs] ∧ (∀ c, s.caps = some c → bs.length ≤ c.nin) ∧
      s.caps = some caps1 ∧ bs.length = caps1.nin) ∧
    (∃ (s : State) (bs : List Byte), LegalConfig s ∧ s.busy = false ∧ s.script = [.loadKey bs] ∧ (∀ c, s.caps = some c → bs.length ≤ c.nkey) ∧
      s.caps = some caps1 ∧ bs.length = caps1.nkey) ∧
    (∃ (s : State) (bits : List Bit), LegalConfig s ∧ s.busy = false ∧ s.script = [.loadBbuf bits] ∧
      (∀ c, s.caps = some c → bits.length ≤ c.nbit) ∧ s.caps = some caps1 ∧ bits.length = caps1.nbit) ∧
    (∃ (s : State) (w h : Nat) (red green blue : List Byte) (alpha : Option (List Byte)), LegalConfig s ∧
      s.busy = false ∧ s.script = [.attachGrid w h red green blue alpha] ∧ red.length = w * h ∧ green.length = w * h ∧
      blue.length = w * h ∧ (∀ a, alpha = some a → a.length = w * h) ∧ (∀ c, s.caps = some c → w * h ≤ c.maxpix) ∧
      s.caps = some caps1 ∧ w * h = caps1.maxpix) ∧
    (∃ (s : State) (bs : List Byte), LegalConfig s ∧ s.busy = false ∧ s.script = [.loadIbuf bs] ∧ (∀ c, s.caps = some c → bs.length ≤ c.nin) ∧
      s.caps = none ∧ bs.length = 5) :=
  ⟨⟨boundedWith [.loadIbuf [0x48#8]], [0x48#8], legal_of_caps1 rfl, by decide, rfl, fun c h => (by cases h; decide), rfl, rfl⟩,
   ⟨boundedWith [.loadKey [0x61#8]], [0x61#8], legal_of_caps1 rfl, by decide, rfl, fun c h => (by cases h; decide), rfl, rfl⟩,
   ⟨boundedWith [.loadBbuf (List.replicate 8 true)], List.replicate 8 true, legal_of_caps1 rfl, by decide, rfl,
     fun c h => (by cases h; decide), rfl, rfl⟩,
   ⟨boundedWith [.attachGrid 4 2 (List.replicate 8 0x5A#8) (List.replicate 8 0xC3#8) (List.replicate 8 0x00#8)
       (some (List.replicate 8 0xFF#8))], 4, 2, List.replicate 8 0x5A#8, List.replicate 8 0xC3#8, List.replicate 8 0x00#8,
     some (List.replicate 8 0xFF#8), legal_of_caps1 rfl, by decide, rfl, by decide, by decide, by decide,
     fun a h => (by cases h; decide), fun c h => (by cases h; decide), rfl, rfl⟩,
   ⟨idleWith [.loadIbuf (List.replicate 5 0x41#8)], List.replicate 5 0x41#8, legal_of_none rfl, by decide, rfl, fun c h => (by cases h), rfl, rfl⟩⟩

theorem witness_PixelReadAfterPixelWrite :
    (∃ (s : State) (m : Memory), LegalConfig s ∧ s.busy = false ∧ s.script = [.writePixel .blue 0 0x00#8, .readPixel .blue 0] ∧
      0 < s.grid.w * s.grid.h ∧ channelOf s.grid .blue = some m) ∧
    (∃ (s : State) (m : Memory), LegalConfig s ∧ s.busy = false ∧ s.script = [.writePixel .alpha 0 0x07#8, .readPixel .red 0] ∧
      0 < s.grid.w * s.grid.h ∧ s.grid.hasAlpha = true ∧ channelOf s.grid .red = some m) :=
  ⟨⟨{ idleWith [.writePixel .blue 0 0x00#8, .readPixel .blue 0] with grid := gridB 1 1 [0x77#8] }, [(0, 0x77#8)],
     legal_of_none rfl, by decide, rfl, by decide, by decide⟩,
   ⟨{ idleWith [.writePixel .alpha 0 0x07#8, .readPixel .red 0] with
        grid := gridOf 1 1 [0x5A#8] [0x00#8] [0x77#8] (some [0xFF#8]) }, [(0, 0x5A#8)],
     legal_of_none rfl, by decide, rfl, by decide, by decide, by decide⟩⟩

theorem witness_RegisterReadsReturnCurrentValues :
    (∃ (s : State) (rest : List HostMove), LegalConfig s ∧ s.script = .readReg 7 :: rest ∧ s.busy = false ∧ 7 < 8) ∧
    (∃ (s : State) (rest : List HostMove), LegalConfig s ∧ s.script = .readReg 1 :: rest ∧ s.busy = true) ∧
    (∃ (s : State) (rest : List HostMove), LegalConfig s ∧ s.script = .readReg 0 :: rest ∧ s.busy = true ∧ 0 ≠ 1) :=
  ⟨⟨idleWith [.readReg 7], [], legal_of_none rfl, rfl, by decide, by decide⟩,
   ⟨busyWith 0x01#8 [.readReg 1], [], legal_of_none rfl, rfl, by decide⟩,
   ⟨busyWith 0x01#8 [.readReg 0], [], legal_of_none rfl, rfl, by decide, by decide⟩⟩

theorem witness_HostMoveDuringCommandIsRefused :
    ∃ (s : State) (m : HostMove) (rest : List HostMove), LegalConfig s ∧ s.busy = true ∧ s.script = m :: rest ∧
      m ≠ .readReg 1 ∧ m ≠ .wait ∧ m ≠ .reset :=
  ⟨busyWith 0x01#8 [.loadKey []], .loadKey [], [], legal_of_none rfl, by decide, rfl, by decide, by decide, by decide⟩

theorem witness_AccessesOutsideTheRulesAreRefused :
    (∃ s : State, LegalConfig s ∧ s.busy = false ∧ s.script = [.readObuf 0] ∧ s.obuf[0]? = some 0x29#8) ∧
    (∃ s : State, LegalConfig s ∧ s.busy = false ∧ s.script = [.readObuf 1] ∧ s.obuf.length = 1) ∧
    (∃ s : State, LegalConfig s ∧ s.busy = false ∧ s.script = [.readBbuf 0] ∧ s.bbuf[0]? = some true) ∧
    (∃ s : State, LegalConfig s ∧ s.busy = false ∧ s.script = [.readBbuf 1] ∧ s.bbuf.length = 1) ∧
    (∃ s : State, LegalConfig s ∧ s.busy = false ∧ s.script = [.readReg 8]) ∧
    (∃ s : State, LegalConfig s ∧ s.busy = false ∧ s.script = [.writeReg 1 0x00#8]) ∧
    (∃ s : State, LegalConfig s ∧ s.busy = false ∧ s.script = [.writeReg 7 0x00#8]) ∧
    (∃ s : State, LegalConfig s ∧ s.busy = false ∧ s.script = [.writeReg 8 0x00#8]) ∧
    (∃ s : State, LegalConfig s ∧ s.busy = false ∧ s.script = [.readPixel .alpha 0] ∧ s.grid.hasAlpha = false) ∧
    (∃ s : State, LegalConfig s ∧ s.busy = false ∧ s.script = [.readPixel .blue 1] ∧ s.grid.w * s.grid.h = 1) ∧
    (∃ s : State, LegalConfig s ∧ s.busy = false ∧ s.script = [.readPixel .alpha 1] ∧ s.grid.hasAlpha = true ∧
      s.grid.w * s.grid.h = 1) ∧
    (∃ s : State, LegalConfig s ∧ s.busy = false ∧ s.script = [.writePixel .alpha 0 0x07#8] ∧ s.grid.hasAlpha = false) ∧
    (∃ s : State, LegalConfig s ∧ s.busy = false ∧ s.script = [.writePixel .red 1 0x07#8] ∧ s.grid.w * s.grid.h = 1) :=
  ⟨⟨{ idleWith [.readObuf 0] with obuf := [0x29#8] }, legal_of_none rfl, by decide, rfl, rfl⟩,
   ⟨{ idleWith [.readObuf 1] with obuf := [0x29#8] }, legal_of_none rfl, by decide, rfl, rfl⟩,
   ⟨{ idleWith [.readBbuf 0] with bbuf := [true] }, legal_of_none rfl, by decide, rfl, rfl⟩,
   ⟨{ idleWith [.readBbuf 1] with bbuf := [true] }, legal_of_none rfl, by decide, rfl, rfl⟩,
   ⟨idleWith [.readReg 8], legal_of_none rfl, by decide, rfl⟩,
   ⟨idleWith [.writeReg 1 0x00#8], legal_of_none rfl, by decide, rfl⟩,
   ⟨idleWith [.writeReg 7 0x00#8], legal_of_none rfl, by decide, rfl⟩,
   ⟨idleWith [.writeReg 8 0x00#8], legal_of_none rfl, by decide, rfl⟩,
   ⟨{ idleWith [.readPixel .alpha 0] with grid := gridB 1 1 [0x77#8] }, legal_of_none rfl, by decide, rfl, by decide⟩,
   ⟨{ idleWith [.readPixel .blue 1] with grid := gridB 1 1 [0x77#8] }, legal_of_none rfl, by decide, rfl, by decide⟩,
   ⟨{ idleWith [.readPixel .alpha 1] with grid := gridOf 1 1 [0x5A#8] [0xC3#8] [0x77#8] (some [0xFF#8]) },
     legal_of_none rfl, by decide, rfl, by decide, by decide⟩,
   ⟨{ idleWith [.writePixel .alpha 0 0x07#8] with grid := gridB 1 1 [0x77#8] }, legal_of_none rfl, by decide, rfl, by decide⟩,
   ⟨{ idleWith [.writePixel .red 1 0x07#8] with grid := gridB 1 1 [0x77#8] }, legal_of_none rfl, by decide, rfl, by decide⟩⟩

/-- Loads one element too long, each channel one value short, a grid one row above MAXPIX of three channels and of four, and a
configuration that R11 forbids. -/
theorem witness_LoadsAndConfigurationsOutsideTheRulesAreRefused :
    (∃ (s : State) (c : Caps), s.caps = some c ∧ ¬ c.Legal) ∧
    (∃ (s : State) (bs : List Byte) (c : Caps), LegalConfig s ∧ s.busy = false ∧ s.script = [.loadIbuf bs] ∧
      s.caps = some c ∧ c.nin < bs.length ∧ bs.length = c.nin + 1) ∧
    (∃ (s : State) (bs : List Byte) (c : Caps), LegalConfig s ∧ s.busy = false ∧ s.script = [.loadKey bs] ∧
      s.caps = some c ∧ c.nkey < bs.length ∧ bs.length = c.nkey + 1) ∧
    (∃ (s : State) (bits : List Bit) (c : Caps), LegalConfig s ∧ s.busy = false ∧ s.script = [.loadBbuf bits] ∧
      s.caps = some c ∧ c.nbit < bits.length ∧ bits.length = c.nbit + 1) ∧
    (∃ (s : State) (red green blue : List Byte) (alpha : Option (List Byte)), LegalConfig s ∧ s.busy = false ∧
      s.script = [.attachGrid 1 1 red green blue alpha] ∧ red.length ≠ 1 * 1) ∧
    (∃ (s : State) (red green blue : List Byte) (alpha : Option (List Byte)), LegalConfig s ∧ s.busy = false ∧
      s.script = [.attachGrid 1 1 red green blue alpha] ∧ green.length ≠ 1 * 1) ∧
    (∃ (s : State) (red green blue : List Byte) (alpha : Option (List Byte)), LegalConfig s ∧ s.busy = false ∧
      s.script = [.attachGrid 1 1 red green blue alpha] ∧ blue.length ≠ 1 * 1) ∧
    (∃ (s : State) (red green blue : List Byte) (alpha : Option (List Byte)), LegalConfig s ∧ s.busy = false ∧
      s.script = [.attachGrid 1 1 red green blue alpha] ∧ ∃ a, alpha = some a ∧ a.length ≠ 1 * 1) ∧
    (∀ alpha, alpha = none ∨ alpha = some (List.replicate 9 0xFF#8) →
      ∃ (s : State) (red green blue : List Byte) (c : Caps), LegalConfig s ∧ s.busy = false ∧
        s.script = [.attachGrid 3 3 red green blue alpha] ∧ red.length = 3 * 3 ∧ green.length = 3 * 3 ∧
        blue.length = 3 * 3 ∧ (∀ a, alpha = some a → a.length = 3 * 3) ∧ s.caps = some c ∧ c.maxpix < 3 * 3 ∧
        c.maxpix + 1 = 3 * 3) := by
  refine ⟨⟨{ State.reset with caps := some badCaps }, badCaps, rfl, fun h => absurd h.out_holds_input (by decide)⟩,
   ⟨boundedWith [.loadIbuf [0x48#8, 0x69#8]], [0x48#8, 0x69#8], caps1, legal_of_caps1 rfl, by decide, rfl, rfl, by decide,
     rfl⟩,
   ⟨boundedWith [.loadKey [0x61#8, 0x62#8]], [0x61#8, 0x62#8], caps1, legal_of_caps1 rfl, by decide, rfl, rfl, by decide,
     rfl⟩,
   ⟨boundedWith [.loadBbuf (List.replicate 9 true)], List.replicate 9 true, caps1, legal_of_caps1 rfl, by decide, rfl, rfl,
     by decide, rfl⟩,
   ⟨idleWith [.attachGrid 1 1 [] [0x00#8] [0x00#8] none], [], [0x00#8], [0x00#8], none, legal_of_none rfl, by decide, rfl,
     by decide⟩,
   ⟨idleWith [.attachGrid 1 1 [0x00#8] [] [0x00#8] none], [0x00#8], [], [0x00#8], none, legal_of_none rfl, by decide, rfl,
     by decide⟩,
   ⟨idleWith [.attachGrid 1 1 [0x00#8] [0x00#8] [] none], [0x00#8], [0x00#8], [], none, legal_of_none rfl, by decide, rfl,
     by decide⟩,
   ⟨idleWith [.attachGrid 1 1 [0x00#8] [0x00#8] [0x00#8] (some [])], [0x00#8], [0x00#8], [0x00#8], some [],
     legal_of_none rfl, by decide, rfl, [], rfl, by decide⟩, fun alpha ha => ?_⟩
  refine ⟨boundedWith [.attachGrid 3 3 (List.replicate 9 0x5A#8) (List.replicate 9 0xC3#8) (List.replicate 9 0x00#8) alpha],
    List.replicate 9 0x5A#8, List.replicate 9 0xC3#8, List.replicate 9 0x00#8, caps1, legal_of_caps1 rfl,
    (by decide : (0x00#8 : Byte).getLsbD 7 = false), rfl,
    by decide, by decide, by decide, ?_, rfl, by decide, by decide⟩
  rintro a rfl
  rcases ha with h | h <;> cases h
  decide

theorem witness_PixelIndexIsRowMajor :
    (∃ w h x y : Nat, x < w ∧ y < h ∧ x = w - 1 ∧ y = h - 1) ∧ (∃ w h n : Nat, n < w * h ∧ n + 1 = w * h) :=
  ⟨⟨3, 2, 2, 1, by decide, by decide, rfl, rfl⟩, ⟨3, 2, 5, by decide, by decide⟩⟩

theorem witness_OnlyIssueOrResetChangesStatusAndObuf :
    ∃ s t : State, s.busy = false ∧ s.ph = .idle ∧ step s = .next t ∧
      ∀ m rest, s.script = m :: rest → (∀ v, m ≠ .writeReg 0 v) ∧ (∀ v, m ≠ .issue v) ∧ m ≠ .reset :=
  ⟨idleWith [.readReg 1], { State.reset with seen := [0] }, by decide, rfl, rfl, fun m rest h => by
    cases h
    exact ⟨by simp, by simp, by simp⟩⟩

/-- A step that empties IBUF by a load and one that empties KEY by a reset. -/
theorem witness_OnlyLoadsWriteIbufAndKey :
    (∃ s t : State, step s = .next t ∧ t.ibuf ≠ s.ibuf) ∧ (∃ s t : State, step s = .next t ∧ t.key ≠ s.key) :=
  ⟨⟨{ idleWith [.loadIbuf []] with ibuf := [0x48#8] }, State.reset, rfl, by decide⟩,
   ⟨{ idleWith [.reset] with key := [0x61#8] }, State.reset, rfl, by decide⟩⟩

theorem witness_CoreChangesOnlyBlueLsbs :
    ∃ s t : State, step s = .next t ∧ t.grid ≠ s.grid ∧ ∀ m rest, s.script = m :: rest →
      (∀ w h red green blue alpha, m ≠ .attachGrid w h red green blue alpha) ∧ (∀ c n v, m ≠ .writePixel c n v) :=
  ⟨{ idleWith [.writeReg 0 0x05#8] with ibuf := [0xFF#8], grid := gridB 8 1 (List.replicate 8 0x10#8) },
   { issue 0x05#8 State.reset with
      ibuf := [0xFF#8], grid := gridB 8 1 (List.replicate 8 0x11#8), status := 0x00#8, ph := .idle },
   by simp only [idleWith]; rfl, by decide, fun m rest h => by
    cases h
    exact ⟨by simp, by simp⟩⟩

/-- The invariant holds of the reset state and of one that has just issued a command. -/
theorem witness_StepKeepsInvariant :
    (∃ s t : State, Inv s ∧ step s = .next t) ∧ (∃ s t : State, Inv s ∧ s.ph = .check ∧ step s = .next t) := by
  refine ⟨⟨State.reset, State.reset, ⟨⟨by decide, by decide, by decide⟩, by decide, by decide, ?_, ?_, ?_⟩, rfl⟩,
    ⟨busyWith 0x01#8 [], checkStep (busyWith 0x01#8 []),
      ⟨⟨by decide, by decide, by decide⟩, by decide, by decide, fun _ => ⟨rfl, rfl, rfl, rfl, rfl, rfl, rfl⟩, ?_, ?_⟩, rfl, rfl⟩⟩ <;>
    intro h <;> cases h

theorem witness_StepKeepsWithinCapacities :
    ∃ (s t : State) (c : Caps), s.caps = some c ∧ 1 ≤ c.nout ∧ Inv s ∧ Fits c s ∧ step s = .next t :=
  ⟨boundedWith [], boundedWith [], caps1, rfl, by decide, ⟨⟨by decide, by decide, by decide⟩, by decide, by decide, (fun h => nomatch h), (fun h => nomatch h),
      (fun h => nomatch h)⟩, ⟨by decide, by decide, by decide, by decide, by decide⟩, rfl⟩

theorem witness_StepKeepsGridCanonical :
    ∃ s t : State, s.grid.wf ∧ s.grid.pixCount = 8 ∧ step s = .next t :=
  ⟨{ State.reset with grid := gridB 4 2 (List.replicate 8 0x10#8) },
   { State.reset with grid := gridB 4 2 (List.replicate 8 0x10#8) }, by decide, by decide, rfl⟩

theorem witness_CheckAndDonePhases :
    (∃ (s : State) (why : Illegal), s.ph = .check ∧ decode s.cmd = .illegal why) ∧
    (∃ s : State, s.ph = .check ∧ decode s.cmd = .command .encrypt ∧ s.key = []) ∧
    (∃ s : State, s.ph = .check ∧ decode s.cmd = .command .decrypt ∧ s.key = []) ∧
    (∃ s : State, s.ph = .check ∧ decode s.cmd = .command .encrypt ∧ s.key ≠ []) ∧
    (∃ s : State, s.ph = .check ∧ decode s.cmd = .command .decrypt ∧ s.key ≠ []) ∧
    (∃ s : State, s.ph = .check ∧ decode s.cmd = .command .b2bits) ∧
    (∃ s : State, s.ph = .check ∧ decode s.cmd = .command .bits2b ∧ s.bbuf.length ≠ 8) ∧
    (∃ s : State, s.ph = .check ∧ decode s.cmd = .command .bits2b ∧ s.bbuf.length = 8) ∧
    (∃ s : State, s.ph = .check ∧ decode s.cmd = .command .embed ∧ s.grid.w * s.grid.h < 8 * s.ibuf.length) ∧
    (∃ s : State, s.ph = .check ∧ decode s.cmd = .command .embed ∧ 8 * s.ibuf.length ≤ s.grid.w * s.grid.h) ∧
    (∃ s : State, s.ph = .check ∧ decode s.cmd = .command .hide ∧ s.key = []) ∧
    (∃ s : State, s.ph = .check ∧ decode s.cmd = .command .hide ∧ s.key ≠ [] ∧
      s.grid.w * s.grid.h < 8 * (s.ibuf.length + 3)) ∧
    (∃ s : State, s.ph = .check ∧ decode s.cmd = .command .hide ∧ s.key ≠ [] ∧
      8 * (s.ibuf.length + 3) ≤ s.grid.w * s.grid.h) ∧
    (∃ s : State, s.ph = .check ∧ decode s.cmd = .command .extract) ∧
    (∃ s : State, s.ph = .check ∧ decode s.cmd = .command .reveal) ∧
    (∃ s : State, s.ph = .done) :=
  ⟨⟨busyWith 0x17#8 [], .rsvNotZero, rfl, by decide⟩, ⟨busyWith 0x01#8 [], rfl, by decide, rfl⟩,
   ⟨busyWith 0x02#8 [], rfl, by decide, rfl⟩, ⟨{ busyWith 0x01#8 [] with key := [0x61#8] }, rfl, by decide, by decide⟩,
   ⟨{ busyWith 0x02#8 [] with key := [0x61#8] }, rfl, by decide, by decide⟩, ⟨busyWith 0x03#8 [], rfl, by decide⟩,
   ⟨busyWith 0x04#8 [], rfl, by decide, by decide⟩,
   ⟨{ busyWith 0x04#8 [] with bbuf := List.replicate 8 true }, rfl, by decide, by decide⟩,
   ⟨{ busyWith 0x05#8 [] with ibuf := [0x61#8] }, rfl, by decide, by decide⟩, ⟨busyWith 0x05#8 [], rfl, by decide, by decide⟩,
   ⟨busyWith 0x07#8 [], rfl, by decide, rfl⟩,
   ⟨{ busyWith 0x07#8 [] with key := [0x61#8] }, rfl, by decide, by decide, by decide⟩,
   ⟨{ busyWith 0x07#8 [] with key := [0x61#8], grid := gridB 6 4 (List.replicate 24 0xFF#8) }, rfl, by decide, by decide,
     by decide⟩,
   ⟨busyWith 0x06#8 [], rfl, by decide⟩, ⟨busyWith 0x08#8 [], rfl, by decide⟩, ⟨toDone .nowhere .ok State.reset, rfl⟩⟩

/-- V2 after two of its five bytes, and V8 at once complete. -/
theorem witness_CipherByteStepKeepsKeystreamIndex :
    (∃ s : State, s.ph = .run ∧ s.opl = 0x1#4 ∧ CipherOk s ∧ s.i < s.ibuf.length) ∧
    (∃ s : State, s.ph = .run ∧ s.opl = 0x2#4 ∧ CipherOk s ∧ s.i = s.ibuf.length) :=
  ⟨⟨{ State.reset with
        ph := .run, opl := 0x1#4, i := 2, kidx := 2, obuf := [0x03#8, 0x20#8]
        ibuf := [0x48#8, 0x65#8, 0x6C#8, 0x6C#8, 0x6F#8], key := [0x4B#8, 0x45#8, 0x59#8] },
     rfl, rfl, ⟨by decide, by decide, by decide, by decide⟩, by decide⟩,
   ⟨{ State.reset with ph := .run, opl := 0x2#4, key := [0x61#8] }, rfl, rfl, ⟨by decide, by decide, by decide, by decide⟩,
     rfl⟩⟩

/-- Before the first byte, after the last one, and BITS2B's single step. -/
theorem witness_BitPackerByteStepsBuildTheResult :
    (∃ s : State, s.ph = .run ∧ s.opl = 0x3#4 ∧ B2bitsOk s ∧ s.i < s.ibuf.length) ∧
    (∃ s : State, s.ph = .run ∧ s.opl = 0x3#4 ∧ B2bitsOk s ∧ s.i = s.ibuf.length ∧ s.i = 1) ∧
    (∃ s : State, s.ph = .run ∧ s.opl = 0x4#4 ∧ s.bbuf.length = 8) :=
  ⟨⟨{ State.reset with ph := .run, opl := 0x3#4, ibuf := [0xA5#8] }, rfl, rfl,
     ⟨by decide, by decide, by decide, by decide⟩, by decide⟩,
   ⟨{ State.reset with ph := .run, opl := 0x3#4, ibuf := [0xA5#8], i := 1, result := bytesToBits [0xA5#8] }, rfl, rfl,
     ⟨by decide, by decide, by decide, by decide⟩, by decide, rfl⟩,
   ⟨{ State.reset with ph := .run, opl := 0x4#4, bbuf := List.replicate 8 true }, rfl, rfl, by decide⟩⟩

/-- EMBED before its first pixel, inside a byte and at its bit count; HIDE before a message byte, before the last byte of the
terminator and at its bit count. -/
theorem witness_PixelOutStepWritesPixelN :
    (∃ s : State, s.ph = .run ∧ s.opl = 0x5#4 ∧ EmbedOk s ∧ s.n < 8 * s.ibuf.length ∧ s.n % 8 = 0) ∧
    (∃ s : State, s.ph = .run ∧ s.opl = 0x5#4 ∧ EmbedOk s ∧ s.n < 8 * s.ibuf.length ∧ s.n % 8 ≠ 0) ∧
    (∃ s : State, s.ph = .run ∧ s.opl = 0x5#4 ∧ EmbedOk s ∧ s.n = 8 * s.ibuf.length) ∧
    (∃ s : State, s.ph = .run ∧ s.opl = 0x7#4 ∧ HideOk s ∧ s.n < 8 * (s.ibuf.length + 3) ∧ s.n % 8 = 0 ∧
      s.n / 8 < s.ibuf.length) ∧
    (∃ s : State, s.ph = .run ∧ s.opl = 0x7#4 ∧ HideOk s ∧ s.n < 8 * (s.ibuf.length + 3) ∧ s.n % 8 = 0 ∧
      s.n / 8 = s.ibuf.length + 2) ∧
    (∃ s : State, s.ph = .run ∧ s.opl = 0x7#4 ∧ HideOk s ∧ s.n = 8 * (s.ibuf.length + 3)) := by
  have embed : ∀ (n : Nat) (b : BitVec 4), n ≤ 8 → b.toNat = n % 8 → EmbedOk { State.reset with
      ph := .run, opl := 0x5#4, ibuf := [0xA5#8], grid := gridB 4 2 (List.replicate 8 0x10#8), n := n, bcnt := b } :=
    fun n b hn hb => ⟨(by decide : 8 * 1 ≤ 4 * 2), hn, hb⟩
  have hide : ∀ n i : Nat, n ≤ 32 → n % 8 = 0 → i = min ((n + 7) / 8) 1 → HideOk { State.reset with
      ph := .run, opl := 0x7#4, ibuf := [0x48#8], key := [0x61#8], grid := gridB 8 4 (List.replicate 32 0x10#8), n := n
      i := i } := fun n i hn h8 hi => ⟨(by decide : (1 : Nat) ≠ 0), (by decide : 8 * (1 + 3) ≤ 8 * 4), hn, h8.symm, hi, (Nat.mod_one i).symm⟩
  exact ⟨⟨_, rfl, rfl, embed 0 0#4 (by decide) rfl, by decide, rfl⟩,
    ⟨_, rfl, rfl, embed 5 5#4 (by decide) rfl, by decide, by decide⟩, ⟨_, rfl, rfl, embed 8 0#4 (by decide) rfl, rfl⟩,
    ⟨_, rfl, rfl, hide 0 0 (by decide) rfl rfl, by decide, rfl, by decide⟩,
    ⟨_, rfl, rfl, hide 24 1 (by decide) rfl rfl, by decide, rfl, rfl⟩, ⟨_, rfl, rfl, hide 32 1 (by decide) rfl rfl, rfl⟩⟩

/-- EXTRACT (`op` 6) or REVEAL (`op` 8) in RUN on a grid whose byte stream is `bs`. -/
def scanning (op : BitVec 4) (bs : List Byte) : State :=
  { State.reset with cmd := op.zeroExtend 8, status := 0x80#8, ph := .run, opl := op, grid := gridS bs }

/-- Before the first pixel, and before the pixel that completes a byte. -/
theorem witness_DetectorPixelStepKeepsScanInvariant :
    (∃ s : State, s.ph = .run ∧ s.opl = 0x6#4 ∧ ScanOk s ∧ found s = false ∧ s.n < s.grid.w * s.grid.h ∧ s.n = 0) ∧
    (∃ s : State, s.ph = .run ∧ s.opl = 0x8#4 ∧ ScanOk s ∧ found s = false ∧ s.n < s.grid.w * s.grid.h ∧ s.n = 7) :=
  ⟨⟨scanning 0x6#4 [0x29#8], rfl, rfl,
     ⟨by decide, by decide, by decide, by decide, by decide, by decide, fun k h => absurd (show 8 * (k + 3) < 0 from h) (by omega)⟩,
     by decide, by decide, rfl⟩,
   ⟨{ scanning 0x8#4 [0x29#8] with n := 7, acc := 0x14#8, bcnt := 7#4 }, rfl, rfl,
     ⟨by decide, by decide, by decide, by decide, by decide, by decide, fun k h => absurd (show 8 * (k + 3) < 7 from h) (by omega)⟩,
     by decide, by decide, rfl⟩⟩

/-- The scan of the stream 0x29, TERM when its last byte has completed. -/
def matched (op : BitVec 4) (key : List Byte) : State :=
  { scanning op [0x29#8, 0x00#8, 0x00#8, 0x03#8] with
    key := key, n := 32, i := 1, obuf := [0x29#8], q0 := 0x00#8, q1 := 0x00#8, q2 := 0x03#8, qlen := 3#2 }

theorem matched_scanOk (op : BitVec 4) (key : List Byte) : ScanOk (matched op key) := by
  refine ⟨(by decide : 32 ≤ 32 * 1), (by decide : (0#4).toNat = 32 % 8), (by decide : (3#2).toNat = min (32 / 8) 3), rfl, ?_, ?_, ?_⟩
  · show [0x29#8] ++ [0x00#8, 0x00#8, 0x03#8] = (byteStream (gridS [0x29#8, 0x00#8, 0x00#8, 0x03#8])).take (32 / 8)
    decide +kernel
  · intro k _
    show (0x00#8).getLsbD k = (decide (k < 32 % 8) && _)
    simp
  · intro k h
    obtain rfl : k = 0 := by
      have : 8 * (k + 3) < 32 := h
      omega
    show ¬ termAt (byteStream (gridS [0x29#8, 0x00#8, 0x00#8, 0x03#8])) 0
    decide +kernel

/-- The terminator at the grid's last byte, where the last pixel has been read as well: EXTRACT, and REVEAL with and without a
password; one byte and no terminator; and the grid without pixels. -/
theorem witness_DetectorScanEndsByTheTable :
    (∃ s : State, s.ph = .run ∧ s.opl = 0x6#4 ∧ ScanOk s ∧ found s = true ∧ s.n = s.grid.w * s.grid.h) ∧
    (∃ s : State, s.ph = .run ∧ s.opl = 0x8#4 ∧ ScanOk s ∧ found s = true ∧ s.key = []) ∧
    (∃ s : State, s.ph = .run ∧ s.opl = 0x8#4 ∧ ScanOk s ∧ found s = true ∧ s.key ≠ []) ∧
    (∃ s : State, s.ph = .run ∧ s.opl = 0x6#4 ∧ ScanOk s ∧ found s = false ∧ s.n = s.grid.w * s.grid.h ∧ s.n = 0) ∧
    (∃ s : State, s.ph = .run ∧ s.opl = 0x8#4 ∧ ScanOk s ∧ found s = false ∧ s.n = s.grid.w * s.grid.h ∧ s.n = 8) :=
  ⟨⟨matched 0x6#4 [], rfl, rfl, matched_scanOk _ _, by decide, by decide⟩,
   ⟨matched 0x8#4 [], rfl, rfl, matched_scanOk _ _, by decide, rfl⟩,
   ⟨matched 0x8#4 [0x61#8], rfl, rfl, matched_scanOk _ _, by decide, by decide⟩,
   ⟨scanning 0x6#4 [], rfl, rfl,
     ⟨by decide, by decide, by decide, by decide, by decide, by decide, fun k h => absurd (show 8 * (k + 3) < 0 from h) (by omega)⟩,
     by decide, by decide, rfl⟩,
   ⟨{ scanning 0x8#4 [0x29#8] with n := 8, q0 := 0x29#8, qlen := 1#2 }, rfl, rfl,
     ⟨by decide, by decide, by decide, by decide, by decide, by decide, fun k h => absurd (show 8 * (k + 3) < 8 from h) (by omega)⟩,
     by decide, by decide, rfl⟩⟩

/-- RUN2 of REVEAL with the password 0x61 after the scan of 0x29, TERM: before and after its one byte, 0x48 in the clear. -/
def revealing (i : Nat) (b : Byte) : State := { matched 0x8#4 [0x61#8] with ph := .run2, i := i, obuf := [b] }

theorem matched_extract : extractFn (gridS [0x29#8, 0x00#8, 0x00#8, 0x03#8]) = some [0x29#8] := by decide +kernel

theorem revealing_zero : Run2Ok (revealing 0 0x29#8) :=
  ⟨rfl, by decide, by decide, by decide, [0x29#8], matched_extract, by decide⟩

theorem revealing_one : Run2Ok (revealing 1 0x48#8) :=
  ⟨rfl, by decide, by decide, by decide, [0x29#8], matched_extract, by decide⟩

/-- R165 on one byte: 0x29 xor 0x61 = 0x48 in place, and KIDX wraps at KLEN = 1. -/
theorem test_run2_step :
    (match coreStep (revealing 0 0x29#8) with
      | .next t => some (t.obuf, t.i, t.kidx, t.ph)
      | _ => none) = some ([0x48#8], 1, 0, .run2) := by decide

theorem witness_RevealSecondPhaseDeciphersInPlace :
    (∃ s : State, s.ph = .run2 ∧ Run2Ok s ∧ s.i < s.obuf.length) ∧
    (∃ s : State, s.ph = .run2 ∧ Run2Ok s ∧ s.i = s.obuf.length ∧ s.i = 1) :=
  ⟨⟨revealing 0 0x29#8, rfl, revealing_zero, by decide⟩, ⟨revealing 1 0x48#8, rfl, revealing_one, by decide, rfl⟩⟩

/-- The invariant holds in CHECK, in RUN and in RUN2, where the sequencer addresses elements. -/
theorem witness_NoStepFaults :
    (∃ s : State, Inv s ∧ s.ph = .check) ∧ (∃ s : State, Inv s ∧ s.ph = .run ∧ s.opl = 0x1#4 ∧ s.i < s.ibuf.length) ∧
    (∃ s : State, Inv s ∧ s.ph = .run ∧ s.opl = 0x6#4 ∧ found s = true) ∧
    (∃ s : State, Inv s ∧ s.ph = .run2 ∧ s.i < s.obuf.length) := by
  obtain ⟨_, s, _, h, hp, _⟩ := witness_StepKeepsInvariant
  have grid : (gridS [0x29#8, 0x00#8, 0x00#8, 0x03#8]).wf := by decide +kernel
  refine ⟨⟨s, h, hp⟩,
    ⟨{ State.reset with
        cmd := 0x01#8, status := 0x80#8, ph := .run, opl := 0x1#4, i := 1, kidx := 1, obuf := [0x03#8]
        ibuf := [0x48#8, 0x65#8], key := [0x4B#8, 0x45#8] },
      ⟨⟨by decide, by decide, by decide⟩, fun _ => by decide, by decide, ?_,
        fun _ => (⟨by decide, by decide, by decide, by decide⟩ : CipherOk _), ?_⟩, rfl, rfl, by decide⟩,
    ⟨matched 0x6#4 [], ⟨⟨by decide, by decide, by decide⟩, fun _ => by decide, grid, ?_, fun _ => matched_scanOk _ _, ?_⟩, rfl,
      rfl, by decide⟩,
    ⟨revealing 0 0x29#8, ⟨⟨by decide, by decide, by decide⟩, fun _ => by decide, grid, ?_, ?_, fun _ => revealing_zero⟩, rfl,
      by decide⟩⟩ <;> intro h <;> cases h

theorem witness_StepLevelReachesTheCommandLevelState : ∃ s : State, LegalConfig s ∧ s.busy = false ∧ s.ibuf ≠ [] :=
  ⟨{ State.reset with ibuf := [0x48#8] }, legal_of_none rfl, by decide, by decide⟩

theorem witness_IssuedCommandCompletesWithinBound : ∃ s : State, LegalConfig s ∧ s.busy = false ∧ s.key ≠ [] :=
  ⟨{ State.reset with key := [0x61#8] }, legal_of_none rfl, by decide, by decide⟩

/-- A command that ends in an error. -/
theorem witness_FailedCommandLeavesNoPartialResult : ∃ s t : State, exec .encrypt s = .next t ∧ t.err ≠ 0#3 :=
  ⟨State.reset, _, rfl, by decide⟩

/-- HIDE's two steps: the first succeeds, the first fails. -/
theorem witness_HideEqualsEncryptThenEmbed :
    (∃ s a : State, exec .encrypt s = .next a ∧ a.err = 0#3) ∧ (∃ s a : State, exec .encrypt s = .next a ∧ a.err ≠ 0#3) :=
  ⟨⟨{ State.reset with key := [0x61#8] }, _, rfl, by decide⟩, ⟨State.reset, _, rfl, by decide⟩⟩

/-- REVEAL's two steps: the first succeeds, the first fails. -/
theorem witness_RevealEqualsExtractThenDecrypt :
    (∃ s a : State, exec .extract s = .next a ∧ a.err = 0#3) ∧ (∃ s a : State, exec .extract s = .next a ∧ a.err ≠ 0#3) :=
  ⟨⟨{ State.reset with grid := gridS [0x00#8, 0x00#8, 0x03#8] }, _, rfl, by decide⟩, ⟨State.reset, _, rfl, by decide⟩⟩

end Sys2Proof.Tests
end

/-!
SUPPORT. Proofs of the statements of scope and levels (00_scope.md): what a command keeps, what the machine refuses, that no step
exceeds a capacity, and that the step level ends where the command level does.
-/

namespace Sys2Proof

/-! ### The decoder -/

@[simp] theorem decodeOp_opOf (i : Instr) : decodeOp (opOf i) = some i := by cases i <;> rfl

theorem opOf_of_decodeOp {op : BitVec 4} {i : Instr} (h : decodeOp op = some i) : op = opOf i := by
  revert op
  cases i <;> decide

/-- A byte decodes to a command when RSV is 0 and OP is that command's (R95). -/
theorem decode_command {c : Byte} {i : Instr} (h : decode c = .command i) :
    cmdRsv c = 0#4 ∧ decodeOp (cmdOp c) = some i := by
  unfold decode at h
  split at h
  · rename_i hrsv
    split at h
    · rename_i j hop
      cases h
      exact ⟨hrsv, hop⟩
    · cases h
  · cases h

theorem cmdOp_of_decode {c : Byte} {i : Instr} (h : decode c = .command i) : cmdOp c = opOf i :=
  opOf_of_decodeOp (decode_command h).2

/-- The only byte that decodes to a command is the command's encoding (R95, R98). -/
theorem encode_of_decode {c : Byte} {i : Instr} (h : decode c = .command i) : c = encode i := by
  have low_nibble : ∀ b : Byte, cmdRsv b = 0#4 → b = (cmdOp b).setWidth 8 := by decide
  rw [encode, ← cmdOp_of_decode h]
  exact low_nibble c (decode_command h).1

theorem decode_of_decodeTableWord {w : Nat} {i : Instr} (h : decodeTableWord 8 w = some i) :
    decode (BitVec.ofNat 8 w) = .command i := by
  unfold decodeTableWord at h
  cases hd : decode (BitVec.ofNat 8 w) with
  | command j => simpa [hd] using h
  | illegal why => simp [hd] at h

end Sys2Proof

namespace Sys2Proof.Machine

/-! ### One step at the command level -/

theorem runCommand_of_decode {c : Byte} {i : Instr} (s : State) (h : decode c = .command i) :
    runCommand c s = exec i (issue c s) := by
  unfold runCommand
  rw [h]

theorem step_runs_command {s : State} {c : Byte} {i : Instr} {rest : List HostMove} (hc : LegalConfig s)
    (hb : s.busy = false) (hs : s.script = .writeReg 0 c :: rest) (hd : decode c = .command i) :
    step s = exec i (issue c { s with script := rest }) := by
  rw [step_writeCmd hc hb hs, runCommand_of_decode _ hd]

/-- Settles O4, from the step that writes CMD and, for `withFetchWord`, from the decoder reading only encodings. -/
theorem stepRunsTheDecodedCommand : Obligations.StepRunsTheDecodedCommand := by
  refine ⟨fun s c i rest hc hb hs hd => step_runs_command hc hb hs hd, fun s w i hc hw hw8 => ?_⟩
  have hd := decode_of_decodeTableWord hw8
  have hword : w % 2 ^ 8 = w := Nat.mod_eq_of_lt hw
  have hfetch : (s.withFetchWord 8 w).script = .writeReg 0 (encode i) :: s.script := by
    rw [← encode_of_decode hd, State.withFetchWord, hword]
  rw [encode_of_decode hd] at hd
  exact step_runs_command (s := s.withFetchWord 8 w) hc (statusWord_busy _ _) hfetch hd

/-! ### Refused loads, grids and configurations -/

theorem gridShapeOk_iff (w h : Nat) (red green blue : List Byte) (alpha : Option (List Byte)) :
    gridShapeOk w h red green blue alpha = true ↔
      red.length = w * h ∧ green.length = w * h ∧ blue.length = w * h ∧ ∀ a, alpha = some a → a.length = w * h := by
  cases alpha <;> simp [gridShapeOk, and_assoc]

theorem loadIfFits_over {cap : Caps → Nat} {len : Nat} {s : State} {c : Caps} (hc : s.caps = some c) (hl : cap c < len) :
    loadIfFits cap len s = .refused .overCapacity := by
  simp [loadIfFits, withinCap_false hc hl]

theorem attach_malformed {w h : Nat} {red green blue : List Byte} {alpha : Option (List Byte)} (s : State)
    (hbad : ¬ gridShapeOk w h red green blue alpha = true) : attach w h red green blue alpha s = .refused .malformedGrid :=
  if_neg hbad

theorem attach_over {w h : Nat} {red green blue : List Byte} {alpha : Option (List Byte)} {s : State} {c : Caps}
    (hok : gridShapeOk w h red green blue alpha = true) (hc : s.caps = some c) (hl : c.maxpix < w * h) :
    attach w h red green blue alpha s = .refused .overCapacity := by
  rw [attach, if_pos hok]
  exact loadIfFits_over hc hl

/-- Settles O41: each refusal is that of the one host operation the move is. -/
theorem loadsAndConfigurationsOutsideTheRulesAreRefused :
    Obligations.LoadsAndConfigurationsOutsideTheRulesAreRefused := by
  refine ⟨fun s c hcaps hbad => step_illegal fun hl => hbad (hl c hcaps), fun s rest hc hb => ?_⟩
  have idle_move : ∀ {m : HostMove} {o}, s.script = m :: rest →
      hostMove m { s with script := rest } = whileIdle { s with script := rest } o → step s = o := by
    intro m o hs hm
    rw [step_cons hc hs, hm]
    exact whileIdle_of_idle (s := { s with script := rest }) o hb
  refine ⟨fun bs c hs hcaps hl => ?ibuf, fun bs c hs hcaps hl => ?key, fun bits c hs hcaps hl => ?bbuf,
    fun w h red green blue alpha hs => ⟨fun hbad => ?malformed, fun hr hg hbl ha c hcaps hl => ?large⟩⟩
  case ibuf => exact (idle_move hs rfl).trans (loadIfFits_over hcaps hl)
  case key => exact (idle_move hs rfl).trans (loadIfFits_over hcaps hl)
  case bbuf => exact (idle_move hs rfl).trans (loadIfFits_over hcaps hl)
  case malformed =>
    refine (idle_move hs rfl).trans (attach_malformed _ fun hok => ?_)
    obtain ⟨hr, hg, hbl, ha⟩ := (gridShapeOk_iff ..).1 hok
    rcases hbad with h | h | h | ⟨a, he, h⟩
    · exact h hr
    · exact h hg
    · exact h hbl
    · exact h (ha a he)
  case large =>
    exact (idle_move hs rfl).trans (attach_over ((gridShapeOk_iff ..).2 ⟨hr, hg, hbl, ha⟩) hcaps hl)

/-! ### What a command leaves unchanged, and how long its result is -/

theorem destOf_eq_obuf {i : Instr} (h : destOf i = .obuf) :
    i = .encrypt ∨ i = .decrypt ∨ i = .bits2b ∨ i = .extract ∨ i = .reveal := by
  revert h
  cases i <;> decide

theorem destOf_eq_grid {i : Instr} (h : destOf i = .grid) : i = .embed ∨ i = .hide := by
  revert h
  cases i <;> decide

/-- Embedding changes bit 0 of a blue byte alone (R132). -/
theorem embedFn_keeps_high_bits (g : Grid) (p : List Byte) (n k : Nat) (hk : 1 ≤ k) :
    (memRead (embedFn g p) n).getLsbD k = (memRead g.blue n).getLsbD k := by
  rw [embedFn_read]
  split
  · rw [lsbWrite_getLsbD, if_neg (by omega)]
  · rfl

/-- Settles O27: by the shape of a command's answer, one case for each kind of destination. -/
theorem commandChangesOnlyItsDestination : Obligations.CommandChangesOnlyItsDestination := by
  intro i s
  obtain ⟨e, t, hexec, shape⟩ := exec_shape i s
  refine ⟨finish e t, hexec, finish_busy e t, rfl, finish_rsv e t, by simpa using errNumber_le e, ?_⟩
  rcases shape with ⟨hdest, o, rfl, -⟩ | ⟨rfl, -, rfl⟩ | ⟨hdest, -, p, -, rfl⟩ | ⟨hdest, -, rfl⟩
  case inl =>
    have ne_b2bits : i ≠ .b2bits := by
      rintro rfl
      cases hdest
    have obuf_written := destOf_eq_obuf hdest
    refine ⟨fun h1 h2 h3 h4 h5 => ?_, fun _ => rfl, fun _ _ => rfl, by simp, fun _ _ _ => rfl, by simp⟩
    simp [h1, h2, h3, h4, h5] at obuf_written
  case inr.inl =>
    exact ⟨fun _ _ _ _ _ => rfl, fun h => absurd rfl h, fun _ _ => rfl, by simp, fun _ _ _ => rfl, by simp⟩
  case inr.inr.inl =>
    refine ⟨fun _ _ _ _ _ => rfl, fun _ => rfl, fun hembed hhide => ?_, by simp,
      fun n k hk => embedFn_keeps_high_bits s.grid p n k hk, by simp⟩
    exact absurd (destOf_eq_grid hdest) (by simp [hembed, hhide])
  case inr.inr.inr =>
    exact ⟨fun _ _ _ _ _ => rfl, fun _ => rfl, fun _ _ => rfl, by simp, fun _ _ _ => rfl, by simp⟩

/-- What the scan returns (R142): the bytes before the first terminator of the stream. -/
theorem extractFn_eq_some {g : Grid} {out : List Byte} (h : extractFn g = some out) :
    ∃ k, termAt (byteStream g) k ∧ out = (byteStream g).take k := by
  classical
  by_cases hex : ∃ k, termAt (byteStream g) k
  · have hfound := scan_found (byteStream g) (Nat.find hex) (Nat.find_spec hex) fun j hj => Nat.find_min hex hj
    exact ⟨Nat.find hex, Nat.find_spec hex, Option.some.inj (h.symm.trans hfound)⟩
  · have hnone := scan_none (byteStream g) fun k hk => hex ⟨k, hk⟩
    exact nomatch h.symm.trans hnone

/-- The extracted bytes and the terminator behind them are bytes of the stream. -/
theorem extractFn_length {g : Grid} {out : List Byte} (h : extractFn g = some out) : out.length + 3 ≤ g.pixCount / 8 := by
  obtain ⟨k, hk, rfl⟩ := extractFn_eq_some h
  have := termAt_length hk
  rw [byteStream_length] at this
  rw [List.length_take, byteStream_length]
  omega

/-- A result in OBUF is at most as long as IBUF or as the grid's byte stream, but for the one byte of BITS2B. -/
theorem exec_olen_le {i : Instr} {s t : State} {bound : Nat} (h : exec i s = .next t) (hdest : destOf i = .obuf)
    (hin : s.ilen ≤ bound) (hstream : s.grid.pixCount / 8 ≤ bound) (hbyte : i = .bits2b → 1 ≤ bound) :
    t.olen ≤ bound := by
  have cipher : cipherBuffer s = .next t → t.olen ≤ bound := by
    intro h
    unfold cipherBuffer at h
    split at h <;> cases h
    · exact Nat.zero_le _
    · exact (xorStream_length s.ibuf s.key).trans_le hin
  rcases destOf_eq_obuf hdest with rfl | rfl | rfl | rfl | rfl
  case inl => exact cipher h
  case inr.inl => exact cipher h
  case inr.inr.inl =>
    simp only [exec, execBits2b] at h
    split at h <;> cases h
    · exact hbyte rfl
    · exact Nat.zero_le _
  case inr.inr.inr.inl =>
    simp only [exec, execExtract] at h
    split at h <;> cases h
    · rename_i out hout
      have := extractFn_length hout
      exact (show out.length ≤ bound by omega)
    · exact Nat.zero_le _
  case inr.inr.inr.inr =>
    simp only [exec, execReveal] at h
    split at h
    · cases h
      exact Nat.zero_le _
    · rename_i out hout
      have := extractFn_length hout
      split at h <;> cases h
      · exact Nat.zero_le _
      · exact (xorStream_length out s.key).trans_le (by omega)

/-- Every command keeps every buffer and the grid within a legal configuration, BITS2B with room for its byte (R11). -/
theorem exec_fits {c : Caps} {i : Instr} {s t : State} (hl : c.Legal) (hbyte : i = .bits2b → 1 ≤ c.nout) (hf : Fits c s)
    (h : exec i s = .next t) : Fits c t := by
  have hin : s.ilen ≤ c.nout := hf.ibuf.trans hl.out_holds_input
  have hstream : s.grid.pixCount / 8 ≤ c.nout := (Nat.div_le_div_right hf.grid).trans hl.out_holds_stream
  obtain ⟨e, u, hexec, shape⟩ := exec_shape i s
  cases hexec.symm.trans h
  rcases shape with ⟨hdest, o, rfl, -⟩ | ⟨rfl, -, rfl⟩ | ⟨-, -, p, -, rfl⟩ | ⟨-, -, rfl⟩
  case inl => exact ⟨hf.ibuf, hf.key, exec_olen_le hexec hdest hin hstream hbyte, hf.bbuf, hf.grid⟩
  case inr.inl =>
    have hbits : (bytesToBits s.ibuf).length ≤ c.nbit := by
      rw [bytesToBits_length]
      exact (Nat.mul_le_mul_left 8 hf.ibuf).trans hl.bits_hold_input
    exact ⟨hf.ibuf, hf.key, hf.obuf, hbits, hf.grid⟩
  case inr.inr.inl => exact ⟨hf.ibuf, hf.key, hf.obuf, hf.bbuf, hf.grid⟩
  case inr.inr.inr => exact ⟨hf.ibuf, hf.key, hf.obuf, hf.bbuf, hf.grid⟩

/-- Settles O31: every command answers a next state, and its result fits. -/
theorem commandsKeepWithinCapacities : Obligations.CommandsKeepWithinCapacities := by
  intro c i s hl hbyte hf
  obtain ⟨e, t, hexec, -⟩ := exec_shape i s
  exact ⟨finish e t, hexec, exec_fits hl hbyte hf hexec⟩

end Sys2Proof.Machine

namespace Sys2Proof.Machine

/-! ### ENCRYPT and DECRYPT, one byte step (R116) -/

/-- The password byte at KIDX exists, and is the one R110 takes at stream position I (R26). -/
theorem key_at_kidx {s : State} {i : Nat} (hk : s.klen ≠ 0) (h : s.kidx = i % s.klen) :
    ∃ k, s.key[s.kidx]? = some k ∧ s.key[i % s.key.length]? = some k := by
  have hlt : i % s.key.length < s.key.length := Nat.mod_lt _ (Nat.pos_of_ne_zero hk)
  exact ⟨_, by rw [h]; exact List.getElem?_eq_getElem hlt, List.getElem?_eq_getElem hlt⟩

theorem cipherOk_olen {s : State} (h : CipherOk s) : s.olen = s.i := by
  rw [State.olen, h.out_eq, xorStream_length, List.length_take]
  exact Nat.min_eq_left h.i_le

/-- With bytes left the step ciphers byte I and keeps the loop invariant. -/
theorem cipherStep_advances {s : State} (h : CipherOk s) (hi : s.i < s.ilen) :
    ∃ o k, cipherStep s = .next { s with obuf := o, kidx := k, i := s.i + 1 } ∧
      CipherOk { s with obuf := o, kidx := k, i := s.i + 1 } := by
  obtain ⟨k, hk, hk'⟩ := key_at_kidx h.key_nonempty h.kidx_eq
  have hb : s.ibuf[s.i]? = some s.ibuf[s.i] := List.getElem?_eq_getElem hi
  refine ⟨s.obuf ++ [s.ibuf[s.i] ^^^ k], kidxNext s, ?_, h.key_nonempty, hi,
    kidxNext_eq h.key_nonempty h.kidx_eq, ?_⟩
  · simp only [cipherStep, hi, if_true, hb, hk]
  · show s.obuf ++ _ = xorStream (s.ibuf.take (s.i + 1)) s.key
    rw [xorStream_take_succ hb hk', ← h.out_eq]

theorem cipherStep_ends {s : State} (hi : s.ilen ≤ s.i) : cipherStep s = .next (succeed s) :=
  if_neg (Nat.not_lt.2 hi)

/-! ### B2BITS, one byte step (R127) -/

/-- With bytes left the step takes the bits of byte I into the result and keeps the loop invariant. -/
theorem b2bitsStep_advances {s : State} (h : B2bitsOk s) (hi : s.i < s.ilen) :
    ∃ r, b2bitsStep s = .next { s with result := r, i := s.i + 1 } ∧ B2bitsOk { s with result := r, i := s.i + 1 } := by
  have hb : s.ibuf[s.i]? = some s.ibuf[s.i] := List.getElem?_eq_getElem hi
  refine ⟨s.result ++ byteBits s.ibuf[s.i], ?_, hi, ?_, h.acc_zero, h.bcnt_zero⟩
  · simp only [b2bitsStep, hi, if_true, hb]
    rw [serialise_byte (s := { s with acc := s.ibuf[s.i] }) h.bcnt_zero, ← h.acc_zero]
  · show s.result ++ _ = bytesToBits (s.ibuf.take (s.i + 1))
    rw [List.take_add_one, hb, bytesToBits_append, ← h.out_eq]
    simp [bytesToBits]

theorem b2bitsStep_ends {s : State} (hi : s.ilen ≤ s.i) : b2bitsStep s = .next (succeed (setBbuf s.result s)) :=
  if_neg (Nat.not_lt.2 hi)

/-! ### EMBED and HIDE, one pixel step (R134, R165) -/

/-- What a byte load gives ACC: payload byte N div 8 at a byte boundary, and otherwise what ACC holds. -/
def LoadsByte (p : List Byte) (s : State) (v : Byte) : Prop :=
  (s.n % 8 = 0 → v = p.getD (s.n / 8) 0x00#8) ∧ (s.n % 8 ≠ 0 → v = s.acc)

theorem loadEmbed_loads {s : State} (hn : s.n < 8 * s.ilen) :
    ∃ v, loadEmbed s = some { s with acc := v } ∧ LoadsByte s.ibuf s v := by
  by_cases h0 : s.n % 8 = 0
  · have hlt : s.n / 8 < s.ibuf.length := Nat.div_lt_of_lt_mul hn
    have hb : s.ibuf[s.n / 8]? = some (s.ibuf.getD (s.n / 8) 0x00#8) := by
      rw [List.getD_eq_getElem _ _ hlt, List.getElem?_eq_getElem]
    exact ⟨_, by simp only [loadEmbed, h0, if_true, hb], fun _ => rfl, fun h => absurd h0 h⟩
  · exact ⟨s.acc, by simp only [loadEmbed, h0, if_false], fun h => absurd h h0, fun _ => rfl⟩

/-- A payload byte of HIDE within the ciphertext (R160). -/
theorem payload_getD_cipher {m p : List Byte} {j : Nat} {b k : Byte} (hb : m[j]? = some b)
    (hk : p[j % p.length]? = some k) : (payload m p).getD j 0x00#8 = b ^^^ k := by
  have hj : j < m.length := (List.getElem?_eq_some_iff.1 hb).1
  rw [payload, List.getD_eq_getElem?_getD, List.getElem?_append_left (by rwa [xorStream_length]), xorStream_getElem?, hb,
    List.getD_eq_getElem?_getD, hk]
  rfl

/-- A payload byte of HIDE within the terminator (R160). -/
theorem payload_getD_term {m p : List Byte} {j : Nat} {v : Byte} (hj : m.length ≤ j) (hv : term[j - m.length]? = some v) :
    (payload m p).getD j 0x00#8 = v := by
  rw [payload, List.getD_eq_getElem?_getD, List.getElem?_append_right (by rwa [xorStream_length]), xorStream_length, hv]
  rfl

theorem payload_length (m p : List Byte) : (payload m p).length = m.length + 3 := by
  simp [payload, xorStream_length, term]

theorem loadHide_loads {s : State} (h : HideOk s) (hn : s.n < 8 * (s.ilen + 3)) :
    ∃ v j, loadHide s = some { s with acc := v, kidx := j % s.klen, i := j } ∧ j = min ((s.n + 1 + 7) / 8) s.ilen ∧
      LoadsByte (payload s.ibuf s.key) s v := by
  have hi := h.i_eq
  by_cases h0 : s.n % 8 = 0
  · by_cases hl : s.n / 8 < s.ilen
    · have hj : s.i = s.n / 8 := by omega
      obtain ⟨k, hk, hk'⟩ := key_at_kidx h.key_nonempty (hj ▸ h.kidx_eq)
      have hb : s.ibuf[s.n / 8]? = some s.ibuf[s.n / 8] := List.getElem?_eq_getElem hl
      refine ⟨s.ibuf[s.n / 8] ^^^ k, s.i + 1, ?_, by omega, fun _ => (payload_getD_cipher hb hk').symm,
        fun h => absurd h0 h⟩
      simp only [loadHide, h0, hl, if_true, hb, hk, kidxNext_eq h.key_nonempty h.kidx_eq]
    · have hlt : s.n / 8 - s.ilen < term.length := Nat.sub_lt_left_of_lt_add (Nat.le_of_not_lt hl) (Nat.div_lt_of_lt_mul hn)
      have hv : term[s.n / 8 - s.ilen]? = some term[s.n / 8 - s.ilen] := List.getElem?_eq_getElem hlt
      refine ⟨term[s.n / 8 - s.ilen], s.i, ?_, by omega, fun _ => (payload_getD_term (Nat.le_of_not_lt hl) hv).symm,
        fun h => absurd h0 h⟩
      simp only [loadHide, h0, hl, if_true, if_false, hv, ← h.kidx_eq]
  · exact ⟨s.acc, s.i, by simp only [loadHide, h0, if_false, ← h.kidx_eq], by omega, fun h => absurd h h0, fun _ => rfl⟩

theorem shiftOut_of_lt {s : State} (hn : s.n < s.grid.pixCount) :
    shiftOut s = .next { setBlue (memWrite s.grid.blue s.n (lsbWrite (memRead s.grid.blue s.n) (s.acc.getLsbD 7))) s with
      acc := s.acc <<< 1, bcnt := bcntNext s, n := s.n + 1 } := by
  simp only [shiftOut, pixReadB, pixWriteB, hn, if_true]

/-- The state after one pixel step of EMBED or HIDE that found `v` in ACC, and I and KIDX after its byte load. -/
def afterPixelOut (v : Byte) (kidx i : Nat) (s : State) : State :=
  { setBlue (memWrite s.grid.blue s.n (lsbWrite (memRead s.grid.blue s.n) (v.getLsbD 7))) s with
    acc := v <<< 1, bcnt := bcntNext s, n := s.n + 1, kidx := kidx, i := i }

theorem pixelOut_embed_advances {s : State} (h : EmbedOk s) (hn : s.n < 8 * s.ilen) :
    ∃ v, pixelOut loadEmbed (8 * s.ilen) s = .next (afterPixelOut v s.kidx s.i s) ∧ LoadsByte s.ibuf s v ∧
      EmbedOk (afterPixelOut v s.kidx s.i s) := by
  obtain ⟨v, hload, hv⟩ := loadEmbed_loads hn
  refine ⟨v, ?_, hv, h.fits, hn, bcntNext_toNat h.bcnt_eq⟩
  simp only [pixelOut, hn, if_true, hload]
  exact shiftOut_of_lt (hn.trans_le h.fits)

theorem pixelOut_hide_advances {s : State} (h : HideOk s) (hn : s.n < 8 * (s.ilen + 3)) :
    ∃ v k j, pixelOut loadHide (8 * (s.ilen + 3)) s = .next (afterPixelOut v k j s) ∧
      LoadsByte (payload s.ibuf s.key) s v ∧ HideOk (afterPixelOut v k j s) := by
  obtain ⟨v, j, hload, hj, hv⟩ := loadHide_loads h hn
  refine ⟨v, j % s.klen, j, ?_, hv, h.key_nonempty, h.fits, hn, bcntNext_toNat h.bcnt_eq, hj, rfl⟩
  simp only [pixelOut, hn, if_true, hload]
  exact shiftOut_of_lt (s := { s with acc := v, kidx := j % s.klen, i := j }) (hn.trans_le h.fits)

theorem pixelOut_ends {load : State → Option State} {bits : Nat} {s : State} (hn : bits ≤ s.n) :
    pixelOut load bits s = .next (succeed s) :=
  if_neg (Nat.not_lt.2 hn)

/-! ### The terminator detector, one pixel step (R145, R146, R148) -/

theorem scanOk_olen {s : State} (h : ScanOk s) : s.olen ≤ s.grid.pixCount / 8 := by
  have hlen := congrArg List.length h.bytes_eq
  rw [List.length_append, List.length_take, byteStream_length] at hlen
  show s.obuf.length ≤ _
  omega

/-- A byte step appends its byte to the bytes delivered or pending (R148). -/
theorem byteStep_bytes (v : Byte) (s : State) :
    (byteStep v s).obuf ++ queueOf (byteStep v s) = s.obuf ++ queueOf s ++ [v] := by
  have cases4 : ∀ x : BitVec 2, x = 0#2 ∨ x = 1#2 ∨ x = 2#2 ∨ x = 3#2 := by decide
  rcases cases4 s.qlen with h | h | h | h <;> simp [byteStep_eq, queueOf, h]

theorem byteStep_qlen (v : Byte) (s : State) : (byteStep v s).qlen.toNat = min (s.qlen.toNat + 1) 3 := by
  have cases4 : ∀ x : BitVec 2, x = 0#2 ∨ x = 1#2 ∨ x = 2#2 ∨ x = 3#2 := by decide
  rcases cases4 s.qlen with h | h | h | h <;> simp [byteStep_eq, h]

theorem byteStep_i_eq_olen {s : State} (v : Byte) (h : s.i = s.olen) : (byteStep v s).i = (byteStep v s).olen := by
  rw [byteStep_eq]
  split_ifs
  · exact h
  · exact h
  · exact h
  · simp [State.olen, h]

theorem shiftIn_getLsbD (acc : Byte) (b : Bit) (k : Nat) (hk : k < 8) :
    (shiftIn acc b).getLsbD k = if k = 0 then b else acc.getLsbD (k - 1) := by
  interval_cases k <;> cases b <;> revert acc <;> decide

/-- With the LSB of pixel N shifted in, ACC holds the bits since the last byte boundary up to that of pixel N. -/
theorem shiftIn_bits {s : State} (h : ScanOk s) {k : Nat} (hk : k < 8) :
    (shiftIn s.acc (blueLsb s.grid s.n)).getLsbD k = (decide (k ≤ s.n % 8) && blueLsb s.grid (s.n - k)) := by
  rw [shiftIn_getLsbD _ _ _ hk]
  cases k with
  | zero => simp
  | succ j => simp [h.acc_bits j (by omega), show s.n - 1 - j = s.n - (j + 1) by omega]

/-- The eighth bit completes the stream byte at N div 8 (R140). -/
theorem shiftIn_completes_byte {s : State} (h : ScanOk s) (h7 : s.n % 8 = 7) :
    shiftIn s.acc (blueLsb s.grid s.n) = streamByte s.grid (s.n / 8) := by
  refine streamByte_unique fun k hk => ?_
  have hle : 7 - k ≤ s.n % 8 := by omega
  rw [shiftIn_bits h (by omega : 7 - k < 8), decide_eq_true hle, Bool.true_and,
    show s.n - (7 - k) = 8 * (s.n / 8) + k by omega]

/-- No window that ends before pixel N + 1 is the terminator while nothing is found (R147). -/
theorem no_match_through {s : State} (h : ScanOk s) (hf : found s = false) (k : Nat) (hk : 8 * (k + 3) < s.n + 1) :
    ¬ termAt (byteStream s.grid) k := by
  rcases Nat.lt_or_eq_of_le (Nat.lt_succ_iff.1 hk) with hlt | heq
  · exact h.no_match_before k hlt
  · intro hterm
    have hwindow : s.n / 8 - 3 = k := by omega
    have hfound := (scanOk_found_iff h).2 ⟨by omega, hwindow ▸ hterm⟩
    exact absurd hfound (by simp [hf])

theorem pixelIn_scanOk {s t : State} (h : ScanOk s) (hf : found s = false) (hp : pixelIn s = .next t) : ScanOk t := by
  obtain ⟨hn, hcases⟩ := pixelIn_next hp
  have hlast : s.bcnt + 1#4 = 8#4 ↔ s.n % 8 = 7 := by
    rw [← h.bcnt_eq, ← BitVec.toNat_inj, BitVec.toNat_add]
    have := h.bcnt_eq
    simp only [BitVec.toNat_ofNat]
    omega
  have hno := no_match_through h hf
  rcases hcases with ⟨h8, rfl⟩ | ⟨h8, rfl⟩
  case inl =>
    have h7 := hlast.1 h8
    have hj : (s.n + 1) / 8 = s.n / 8 + 1 := by omega
    have hqlen := h.qlen_eq
    have hbyte : (byteStream s.grid)[s.n / 8]? = some (shiftIn s.acc (blueLsb s.grid s.n)) := by
      rw [byteStream_getElem? _ _ (by omega), shiftIn_completes_byte h h7]
    obtain ⟨-, -, -, -, -, egrid, -, -, en, -, eacc, ebcnt, -⟩ :=
      byteStep_frame (shiftIn s.acc (blueLsb s.grid s.n)) { s with acc := 0x00#8, bcnt := 0#4, n := s.n + 1 }
    constructor
    case n_le => rwa [en, egrid]
    case bcnt_eq =>
      rw [ebcnt, en]
      exact (by omega : 0 = (s.n + 1) % 8)
    case qlen_eq =>
      rw [byteStep_qlen, en]
      exact (by omega : min (s.qlen.toNat + 1) 3 = min ((s.n + 1) / 8) 3)
    case i_eq => exact byteStep_i_eq_olen _ h.i_eq
    case bytes_eq =>
      rw [byteStep_bytes, en, egrid, hj, List.take_add_one, hbyte]
      exact congrArg (· ++ _) h.bytes_eq
    case acc_bits =>
      intro k hk
      rw [eacc, en, show (s.n + 1) % 8 = 0 by omega]
      simp
    case no_match_before =>
      intro k hk
      rw [en] at hk
      rw [egrid]
      exact hno k hk
  case inr =>
    have h7 := mt hlast.2 h8
    have hj : (s.n + 1) / 8 = s.n / 8 := by omega
    have hmod : (s.n + 1) % 8 = s.n % 8 + 1 := by omega
    constructor
    case n_le => exact hn
    case bcnt_eq =>
      show (s.bcnt + 1#4).toNat = (s.n + 1) % 8
      have := h.bcnt_eq
      rw [BitVec.toNat_add]
      simp only [BitVec.toNat_ofNat]
      omega
    case qlen_eq => exact hj ▸ h.qlen_eq
    case i_eq => exact h.i_eq
    case bytes_eq => exact hj ▸ h.bytes_eq
    case acc_bits =>
      intro k hk
      show _ = (decide (k < (s.n + 1) % 8) && blueLsb s.grid (s.n - k))
      rw [shiftIn_bits h hk, hmod]
      simp
    case no_match_before => exact hno

theorem pixelIn_of_lt {s : State} (hn : s.n < s.grid.pixCount) : ∃ t, pixelIn s = .next t := by
  simp only [pixelIn, pixReadB, hn, if_true]
  split
  · exact ⟨_, rfl⟩
  · exact ⟨_, rfl⟩

/-- On `found` OBUF holds what R141 gives: the newest window is the first terminator of the stream. -/
theorem extractFn_of_found {s : State} (h : ScanOk s) (hf : found s = true) : extractFn s.grid = some s.obuf := by
  obtain ⟨h3, hterm⟩ := (scanOk_found_iff h).1 hf
  rw [(scanOk_split h h3).1]
  exact scan_found _ _ hterm fun j hj => h.no_match_before j (by omega)

/-- With every pixel read and nothing found, the stream holds no terminator (R142). -/
theorem extractFn_of_exhausted {s : State} (h : ScanOk s) (hf : found s = false) (hn : s.grid.pixCount ≤ s.n) :
    extractFn s.grid = none := by
  refine scan_none _ fun k hterm => no_match_through h hf k ?_ hterm
  have := termAt_length hterm
  rw [byteStream_length] at this
  omega

/-! ### REVEAL's second phase, one byte step (R165) -/

/-- With bytes left the step deciphers byte I in place and keeps the loop invariant. -/
theorem run2Step_advances {s : State} (h : Run2Ok s) (hi : s.i < s.olen) :
    ∃ o k, run2Step s = .next { s with obuf := o, kidx := k, i := s.i + 1 } ∧
      o.length = s.olen ∧ Run2Ok { s with obuf := o, kidx := k, i := s.i + 1 } := by
  obtain ⟨out, hout, hobuf⟩ := h.out_eq
  obtain ⟨k, hk, hk'⟩ := key_at_kidx h.key_nonempty h.kidx_eq
  have hilen : s.i < out.length := by
    have hlen := congrArg List.length hobuf
    rw [List.length_append, xorStream_length, List.length_take, List.length_drop] at hlen
    have : s.i < s.obuf.length := hi
    omega
  have hprefix : (xorStream (out.take s.i) s.key).length = s.i := by
    rw [xorStream_length, List.length_take]
    omega
  have hb : s.obuf[s.i]? = some out[s.i] := by
    rw [hobuf, List.getElem?_append_right hprefix.le, hprefix]
    simp [hilen]
  refine ⟨s.obuf.set s.i (out[s.i] ^^^ k), kidxNext s, ?_, List.length_set, h.opl_reveal, h.key_nonempty, ?_,
    kidxNext_eq h.key_nonempty h.kidx_eq, out, hout, ?_⟩
  · simp only [run2Step, h.opl_reveal, hi, if_true, hb, hk]
  · show s.i + 1 ≤ (s.obuf.set _ _).length
    rwa [List.length_set]
  · show s.obuf.set _ _ = xorStream (out.take (s.i + 1)) s.key ++ out.drop (s.i + 1)
    rw [xorStream_take_succ (List.getElem?_eq_getElem hilen) hk', hobuf,
      List.set_append_right _ _ hprefix.le, hprefix, Nat.sub_self, List.drop_eq_getElem_cons hilen]
    simp only [List.set_cons_zero, List.append_assoc, List.singleton_append]

theorem run2Step_ends {s : State} (h : Run2Ok s) (hi : s.olen ≤ s.i) : run2Step s = .next (succeed s) := by
  rw [run2Step, if_pos h.opl_reveal, if_neg (Nat.not_lt.2 hi)]

/-- Behind the last byte OBUF is the extracted sequence, deciphered. -/
theorem run2Ok_deciphered {s : State} (h : Run2Ok s) (hi : s.olen ≤ s.i) :
    ∃ out, extractFn s.grid = some out ∧ s.obuf = xorStream out s.key := by
  obtain ⟨out, hout, hobuf⟩ := h.out_eq
  have hlen := congrArg List.length hobuf
  rw [List.length_append, xorStream_length, List.length_take, List.length_drop] at hlen
  have hall : out.length ≤ s.i := by
    have : s.obuf.length ≤ s.i := hi
    omega
  refine ⟨out, hout, ?_⟩
  rw [hobuf, List.take_of_length_le hall, List.drop_eq_nil_of_le hall, List.append_nil]

/-- On `found` with a password, REVEAL's second phase starts with nothing deciphered. -/
theorem run2Ok_of_found {s : State} (h : ScanOk s) (hf : found s = true) (hop : s.opl = opOf .reveal) (hk : s.klen ≠ 0) :
    Run2Ok { s with ph := .run2, i := 0, kidx := 0 } :=
  ⟨hop, hk, Nat.zero_le _, (Nat.zero_mod _).symm, s.obuf, extractFn_of_found (s := s) h hf, by simp [xorStream, xorFrom]⟩

end Sys2Proof.Machine

namespace Sys2Proof.Machine

/-! ### What every step of the sequencer leaves unchanged -/

/-- What no step of the sequencer changes: CMD and OPL, the operand buffers, the grid's dimensions, the configuration and the
host's fields. -/
structure KeepsOperands (s t : State) : Prop where
  cmd : t.cmd = s.cmd
  opl : t.opl = s.opl
  ibuf : t.ibuf = s.ibuf
  key : t.key = s.key
  grid_w : t.grid.w = s.grid.w
  grid_h : t.grid.h = s.grid.h
  caps : t.caps = s.caps
  script : t.script = s.script
  seen : t.seen = s.seen

theorem KeepsOperands.trans {s t u : State} (h : KeepsOperands s t) (h' : KeepsOperands t u) : KeepsOperands s u :=
  ⟨h'.cmd.trans h.cmd, h'.opl.trans h.opl, h'.ibuf.trans h.ibuf, h'.key.trans h.key, h'.grid_w.trans h.grid_w,
    h'.grid_h.trans h.grid_h, h'.caps.trans h.caps, h'.script.trans h.script, h'.seen.trans h.seen⟩

theorem toDone_keepsOperands (d : Dest) (e : ErrCode) (s : State) : KeepsOperands s (toDone d e s) := by
  constructor <;> simp

theorem succeed_keepsOperands (s : State) : KeepsOperands s (succeed s) := toDone_keepsOperands .nowhere .ok s

theorem startRun_keepsOperands (i : Instr) (s : State) : KeepsOperands s (startRun i s) := by
  cases i <;> exact ⟨rfl, rfl, rfl, rfl, rfl, rfl, rfl, rfl, rfl⟩

theorem checkStep_keepsOperands (s : State) : KeepsOperands s (checkStep s) := by
  rcases checkStep_cases s with ⟨d, e, -, h⟩ | ⟨i, -, -, h⟩
  · exact h ▸ toDone_keepsOperands d e s
  · exact h ▸ startRun_keepsOperands i s

theorem cipherStep_keepsOperands {s t : State} (h : cipherStep s = .next t) : KeepsOperands s t := by
  rcases cipherStep_next h with ⟨-, b, k, -, -, rfl⟩ | ⟨-, rfl⟩
  · exact ⟨rfl, rfl, rfl, rfl, rfl, rfl, rfl, rfl, rfl⟩
  · exact succeed_keepsOperands s

theorem b2bitsStep_keepsOperands {s t : State} (h : b2bitsStep s = .next t) : KeepsOperands s t := by
  rcases b2bitsStep_next h with ⟨-, b, r, a, c, -, -, rfl⟩ | ⟨-, rfl⟩ <;>
    exact ⟨rfl, rfl, rfl, rfl, rfl, rfl, rfl, rfl, rfl⟩

theorem bits2bStep_keepsOperands {s t : State} (h : bits2bStep s = .next t) : KeepsOperands s t := by
  obtain ⟨-, rfl⟩ := bits2bStep_next h
  exact ⟨rfl, rfl, rfl, rfl, rfl, rfl, rfl, rfl, rfl⟩

theorem shiftOut_keepsOperands {s t : State} (h : shiftOut s = .next t) : KeepsOperands s t := by
  obtain ⟨-, rfl⟩ := shiftOut_next h
  exact ⟨rfl, rfl, rfl, rfl, rfl, rfl, rfl, rfl, rfl⟩

theorem loadEmbed_keepsOperands {s u : State} (h : loadEmbed s = some u) : KeepsOperands s u := by
  rcases loadEmbed_some h with ⟨-, v, -, rfl⟩ | ⟨-, rfl⟩ <;> exact ⟨rfl, rfl, rfl, rfl, rfl, rfl, rfl, rfl, rfl⟩

theorem loadHide_keepsOperands {s u : State} (h : loadHide s = some u) : KeepsOperands s u := by
  rcases loadHide_some h with ⟨-, -, b, k, -, -, rfl⟩ | ⟨-, -, v, -, rfl⟩ | ⟨-, rfl⟩ <;>
    exact ⟨rfl, rfl, rfl, rfl, rfl, rfl, rfl, rfl, rfl⟩

theorem pixelOut_keepsOperands {load : State → Option State} {bits : Nat} {s t : State}
    (hload : ∀ u, load s = some u → KeepsOperands s u) (h : pixelOut load bits s = .next t) : KeepsOperands s t := by
  rcases pixelOut_next h with ⟨-, u, hu, hshift⟩ | ⟨-, rfl⟩
  · exact (hload u hu).trans (shiftOut_keepsOperands hshift)
  · exact succeed_keepsOperands s

theorem pixelIn_keepsOperands {s t : State} (h : pixelIn s = .next t) : KeepsOperands s t := by
  obtain ⟨hcmd, -, hibuf, hkey, -, hgrid, -, hopl, -, -, hscript, hseen, hcaps⟩ := pixelIn_frame h
  exact ⟨hcmd, hopl, hibuf, hkey, congrArg Grid.w hgrid, congrArg Grid.h hgrid, hcaps, hscript, hseen⟩

theorem extractStep_keepsOperands {s t : State} (h : extractStep s = .next t) : KeepsOperands s t := by
  rcases extractStep_next h with ⟨-, rfl⟩ | ⟨-, hp⟩ | ⟨-, -, rfl⟩
  · exact succeed_keepsOperands s
  · exact pixelIn_keepsOperands hp
  · exact toDone_keepsOperands _ _ s

theorem revealStep_keepsOperands {s t : State} (h : revealStep s = .next t) : KeepsOperands s t := by
  rcases revealStep_next h with ⟨-, -, rfl⟩ | ⟨-, -, rfl⟩ | ⟨-, hp⟩ | ⟨-, -, rfl⟩
  · exact toDone_keepsOperands _ _ s
  · exact ⟨rfl, rfl, rfl, rfl, rfl, rfl, rfl, rfl, rfl⟩
  · exact pixelIn_keepsOperands hp
  · exact toDone_keepsOperands _ _ s

theorem runStep_keepsOperands {s t : State} (h : runStep s = .next t) : KeepsOperands s t := by
  unfold runStep at h
  cases hop : decodeOp s.opl with
  | none =>
    rw [hop] at h
    cases h
  | some i =>
    rw [hop] at h
    cases i with
    | encrypt => exact cipherStep_keepsOperands h
    | decrypt => exact cipherStep_keepsOperands h
    | b2bits => exact b2bitsStep_keepsOperands h
    | bits2b => exact bits2bStep_keepsOperands h
    | embed => exact pixelOut_keepsOperands (fun _ => loadEmbed_keepsOperands) h
    | extract => exact extractStep_keepsOperands h
    | hide => exact pixelOut_keepsOperands (fun _ => loadHide_keepsOperands) h
    | reveal => exact revealStep_keepsOperands h

theorem run2Step_keepsOperands {s t : State} (h : run2Step s = .next t) : KeepsOperands s t := by
  rcases run2Step_next h with ⟨-, ⟨-, b, k, -, -, rfl⟩ | ⟨-, rfl⟩⟩
  · exact ⟨rfl, rfl, rfl, rfl, rfl, rfl, rfl, rfl, rfl⟩
  · exact succeed_keepsOperands s

/-- One step of the sequencer, by its phase (R172). -/
theorem coreStep_next {s t : State} (h : coreStep s = .next t) :
    (s.ph = .idle ∧ t = s) ∨ (s.ph = .check ∧ t = checkStep s) ∨ (s.ph = .run ∧ runStep s = .next t) ∨
    (s.ph = .run2 ∧ run2Step s = .next t) ∨ (s.ph = .done ∧ t = doneStep s) := by
  unfold coreStep at h
  cases hph : s.ph with
  | idle =>
    rw [hph] at h
    cases h
    exact .inl ⟨rfl, rfl⟩
  | check =>
    rw [hph] at h
    cases h
    exact .inr (.inl ⟨rfl, rfl⟩)
  | run =>
    rw [hph] at h
    exact .inr (.inr (.inl ⟨rfl, h⟩))
  | run2 =>
    rw [hph] at h
    exact .inr (.inr (.inr (.inl ⟨rfl, h⟩)))
  | done =>
    rw [hph] at h
    cases h
    exact .inr (.inr (.inr (.inr ⟨rfl, rfl⟩)))

theorem coreStep_keepsOperands {s t : State} (h : coreStep s = .next t) : KeepsOperands s t := by
  rcases coreStep_next h with ⟨-, rfl⟩ | ⟨-, rfl⟩ | ⟨-, hrun⟩ | ⟨-, hrun2⟩ | ⟨-, rfl⟩
  · exact ⟨rfl, rfl, rfl, rfl, rfl, rfl, rfl, rfl, rfl⟩
  · exact checkStep_keepsOperands s
  · exact runStep_keepsOperands hrun
  · exact run2Step_keepsOperands hrun2
  · exact ⟨rfl, rfl, rfl, rfl, rfl, rfl, rfl, rfl, rfl⟩

/-! ### No step changes the configuration -/

theorem exec_caps {i : Instr} {s t : State} (h : exec i s = .next t) : t.caps = s.caps := by
  obtain ⟨e, u, hexec, shape⟩ := exec_shape i s
  cases hexec.symm.trans h
  rcases shape with ⟨-, o, rfl, -⟩ | ⟨-, -, rfl⟩ | ⟨-, -, p, -, rfl⟩ | ⟨-, -, rfl⟩ <;> rfl

theorem runCommand_caps {c : Byte} {s t : State} (h : runCommand c s = .next t) : t.caps = s.caps := by
  rcases runCommand_shape c s with ⟨i, -, hrun⟩ | ⟨why, -, hrun⟩
  · exact exec_caps (s := issue c s) (hrun.symm.trans h)
  · cases hrun.symm.trans h
    rfl

theorem hostMove_caps {m : HostMove} {s t : State} (h : hostMove m s = .next t) : t.caps = s.caps := by
  cases m with
  | loadIbuf bs =>
    obtain ⟨-, rfl⟩ := loadIfFits_next (whileIdle_next h).2
    rfl
  | loadKey bs =>
    obtain ⟨-, rfl⟩ := loadIfFits_next (whileIdle_next h).2
    rfl
  | loadBbuf bits =>
    obtain ⟨-, rfl⟩ := loadIfFits_next (whileIdle_next h).2
    rfl
  | attachGrid w h' red green blue alpha =>
    obtain ⟨-, -, rfl⟩ := attach_next (whileIdle_next h).2
    rfl
  | readPixel c n =>
    obtain ⟨-, m, -, rfl⟩ := readPixel_next (whileIdle_next h).2
    rfl
  | writePixel c n v =>
    obtain ⟨-, m, -, rfl⟩ := writePixel_next (whileIdle_next h).2
    rfl
  | readReg r =>
    obtain ⟨-, v, -, rfl⟩ := readRegister_next h
    rfl
  | readObuf k =>
    obtain ⟨v, -, rfl⟩ := readObufAt_next (whileIdle_next h).2
    rfl
  | readBbuf k =>
    obtain ⟨b, -, rfl⟩ := readBbufAt_next (whileIdle_next h).2
    rfl
  | writeReg r v => exact runCommand_caps (writeRegister_next (whileIdle_next h).2).2
  | issue v =>
    cases (whileIdle_next h).2
    rfl
  | wait => exact (coreStep_keepsOperands h).caps
  | reset =>
    cases h
    rfl

theorem step_caps {s t : State} (h : step s = .next t) : t.caps = s.caps := by
  obtain ⟨-, ⟨-, hcore⟩ | ⟨m, rest, -, hmove⟩⟩ := step_next h
  · exact (coreStep_keepsOperands hcore).caps
  · exact hostMove_caps (s := { s with script := rest }) hmove

/-! ### Every step keeps every buffer and the grid within its capacity -/

/-- A step of the sequencer stays within the capacities when the two result buffers do. -/
theorem fits_of_keepsOperands {c : Caps} {s t : State} (hk : KeepsOperands s t) (hf : Fits c s) (hobuf : t.olen ≤ c.nout)
    (hbbuf : t.blen ≤ c.nbit) : Fits c t := by
  have hpix : t.grid.pixCount = s.grid.pixCount := by rw [Grid.pixCount, hk.grid_w, hk.grid_h]
  exact ⟨(congrArg List.length hk.ibuf).trans_le hf.ibuf, (congrArg List.length hk.key).trans_le hf.key, hobuf, hbbuf,
    hpix.trans_le hf.grid⟩

theorem toDone_fits {c : Caps} {s : State} (d : Dest) (e : ErrCode) (hf : Fits c s) : Fits c (toDone d e s) := by
  have hobuf : (toDone d e s).olen ≤ s.olen := by cases d <;> simp [State.olen, toDone_obuf]
  exact fits_of_keepsOperands (toDone_keepsOperands d e s) hf (hobuf.trans hf.obuf)
    ((congrArg List.length (toDone_bbuf d e s)).trans_le hf.bbuf)

theorem startRun_fits {c : Caps} {s : State} (i : Instr) (hf : Fits c s) : Fits c (startRun i s) := by
  have hobuf : (startRun i s).olen ≤ s.olen := by cases i <;> simp [startRun, destOf, State.olen]
  exact fits_of_keepsOperands (startRun_keepsOperands i s) hf (hobuf.trans hf.obuf) (by cases i <;> exact hf.bbuf)

theorem cipherStep_fits {c : Caps} {s t : State} (hl : c.Legal) (hok : CipherOk s) (hf : Fits c s)
    (h : cipherStep s = .next t) : Fits c t := by
  rcases Nat.lt_or_ge s.i s.ilen with hi | hi
  · obtain ⟨o, k, hstep, hok'⟩ := cipherStep_advances hok hi
    cases hstep.symm.trans h
    have hlen : o.length ≤ s.ilen := (cipherOk_olen hok').trans_le hi
    exact ⟨hf.ibuf, hf.key, hlen.trans (hf.ibuf.trans hl.out_holds_input), hf.bbuf, hf.grid⟩
  · cases (cipherStep_ends hi).symm.trans h
    exact toDone_fits _ _ hf

theorem b2bitsStep_fits {c : Caps} {s t : State} (hl : c.Legal) (hok : B2bitsOk s) (hf : Fits c s)
    (h : b2bitsStep s = .next t) : Fits c t := by
  rcases Nat.lt_or_ge s.i s.ilen with hi | hi
  · obtain ⟨r, hstep, -⟩ := b2bitsStep_advances hok hi
    cases hstep.symm.trans h
    exact ⟨hf.ibuf, hf.key, hf.obuf, hf.bbuf, hf.grid⟩
  · cases (b2bitsStep_ends hi).symm.trans h
    have hbits : s.result.length ≤ c.nbit := by
      have hin := hf.ibuf
      have hbit := hl.bits_hold_input
      rw [hok.out_eq, bytesToBits_length, List.take_of_length_le hi]
      exact (Nat.mul_le_mul_left 8 hin).trans hbit
    exact toDone_fits _ _ ⟨hf.ibuf, hf.key, hf.obuf, hbits, hf.grid⟩

theorem bits2bStep_fits {c : Caps} {s t : State} (hbyte : 1 ≤ c.nout) (hf : Fits c s) (h : bits2bStep s = .next t) :
    Fits c t := by
  obtain ⟨-, rfl⟩ := bits2bStep_next h
  exact toDone_fits _ _ ⟨hf.ibuf, hf.key, hbyte, hf.bbuf, hf.grid⟩

theorem pixelOut_keeps_results {load : State → Option State} {bits : Nat} {s t : State}
    (hload : ∀ u, load s = some u → u.obuf = s.obuf ∧ u.bbuf = s.bbuf) (h : pixelOut load bits s = .next t) :
    t.obuf = s.obuf ∧ t.bbuf = s.bbuf := by
  rcases pixelOut_next h with ⟨-, u, hu, hshift⟩ | ⟨-, rfl⟩
  · obtain ⟨-, rfl⟩ := shiftOut_next hshift
    exact hload u hu
  · exact ⟨rfl, rfl⟩

theorem loadEmbed_keeps_results {s u : State} (h : loadEmbed s = some u) : u.obuf = s.obuf ∧ u.bbuf = s.bbuf := by
  rcases loadEmbed_some h with ⟨-, v, -, rfl⟩ | ⟨-, rfl⟩ <;> exact ⟨rfl, rfl⟩

theorem loadHide_keeps_results {s u : State} (h : loadHide s = some u) : u.obuf = s.obuf ∧ u.bbuf = s.bbuf := by
  rcases loadHide_some h with ⟨-, -, b, k, -, -, rfl⟩ | ⟨-, -, v, -, rfl⟩ | ⟨-, rfl⟩ <;> exact ⟨rfl, rfl⟩

theorem pixelIn_fits {c : Caps} {s t : State} (hl : c.Legal) (hok : ScanOk s) (hnf : found s = false) (hf : Fits c s)
    (h : pixelIn s = .next t) : Fits c t := by
  have hkeep := pixelIn_keepsOperands h
  obtain ⟨-, -, -, -, hbbuf, hgrid, -⟩ := pixelIn_frame h
  have hstream : t.olen ≤ s.grid.pixCount / 8 := hgrid ▸ scanOk_olen (pixelIn_scanOk hok hnf h)
  have hcap : s.grid.pixCount / 8 ≤ c.nout := (Nat.div_le_div_right hf.grid).trans hl.out_holds_stream
  exact fits_of_keepsOperands hkeep hf (hstream.trans hcap) ((congrArg List.length hbbuf).trans_le hf.bbuf)

theorem extractStep_fits {c : Caps} {s t : State} (hl : c.Legal) (hok : ScanOk s) (hf : Fits c s)
    (h : extractStep s = .next t) : Fits c t := by
  rcases extractStep_next h with ⟨-, rfl⟩ | ⟨hnf, hp⟩ | ⟨-, -, rfl⟩
  · exact toDone_fits _ _ hf
  · exact pixelIn_fits hl hok hnf hf hp
  · exact toDone_fits _ _ hf

theorem revealStep_fits {c : Caps} {s t : State} (hl : c.Legal) (hok : ScanOk s) (hf : Fits c s)
    (h : revealStep s = .next t) : Fits c t := by
  rcases revealStep_next h with ⟨-, -, rfl⟩ | ⟨-, -, rfl⟩ | ⟨hnf, hp⟩ | ⟨-, -, rfl⟩
  · exact toDone_fits _ _ hf
  · exact ⟨hf.ibuf, hf.key, hf.obuf, hf.bbuf, hf.grid⟩
  · exact pixelIn_fits hl hok hnf hf hp
  · exact toDone_fits _ _ hf

theorem runStep_fits {c : Caps} {s t : State} (hl : c.Legal) (hbyte : 1 ≤ c.nout) (hok : RunOk s) (hf : Fits c s)
    (h : runStep s = .next t) : Fits c t := by
  have hkeep := runStep_keepsOperands h
  have keeps_results : t.obuf = s.obuf ∧ t.bbuf = s.bbuf → Fits c t := fun ⟨hobuf, hbbuf⟩ =>
    fits_of_keepsOperands hkeep hf ((congrArg List.length hobuf).trans_le hf.obuf)
      ((congrArg List.length hbbuf).trans_le hf.bbuf)
  unfold runStep at h
  unfold RunOk at hok
  cases hop : decodeOp s.opl with
  | none =>
    rw [hop] at h
    cases h
  | some i =>
    rw [hop] at h hok
    cases i with
    | encrypt => exact cipherStep_fits hl hok hf h
    | decrypt => exact cipherStep_fits hl hok hf h
    | b2bits => exact b2bitsStep_fits hl hok hf h
    | bits2b => exact bits2bStep_fits hbyte hf h
    | embed => exact keeps_results (pixelOut_keeps_results (fun _ => loadEmbed_keeps_results) h)
    | extract => exact extractStep_fits hl hok hf h
    | hide => exact keeps_results (pixelOut_keeps_results (fun _ => loadHide_keeps_results) h)
    | reveal => exact revealStep_fits hl hok hf h

theorem run2Step_fits {c : Caps} {s t : State} (hf : Fits c s) (h : run2Step s = .next t) : Fits c t := by
  rcases run2Step_next h with ⟨-, ⟨-, b, k, -, -, rfl⟩ | ⟨-, rfl⟩⟩
  · exact ⟨hf.ibuf, hf.key, List.length_set.trans_le hf.obuf, hf.bbuf, hf.grid⟩
  · exact toDone_fits _ _ hf

theorem coreStep_fits {c : Caps} {s t : State} (hl : c.Legal) (hbyte : 1 ≤ c.nout) (hinv : Inv s) (hf : Fits c s)
    (h : coreStep s = .next t) : Fits c t := by
  rcases coreStep_next h with ⟨-, rfl⟩ | ⟨-, rfl⟩ | ⟨hph, hrun⟩ | ⟨-, hrun2⟩ | ⟨-, rfl⟩
  · exact hf
  · rcases checkStep_cases s with ⟨d, e, -, hcheck⟩ | ⟨i, -, -, hcheck⟩
    · exact hcheck ▸ toDone_fits d e hf
    · exact hcheck ▸ startRun_fits i hf
  · exact runStep_fits hl hbyte (hinv.run hph) hf hrun
  · exact run2Step_fits hf hrun2
  · exact ⟨hf.ibuf, hf.key, hf.obuf, hf.bbuf, hf.grid⟩

theorem runCommand_fits {c : Caps} {v : Byte} {s t : State} (hl : c.Legal) (hbyte : 1 ≤ c.nout) (hf : Fits c s)
    (h : runCommand v s = .next t) : Fits c t := by
  rcases runCommand_shape v s with ⟨i, -, hrun⟩ | ⟨why, -, hrun⟩
  · exact exec_fits hl (fun _ => hbyte) (s := issue v s) ⟨hf.ibuf, hf.key, hf.obuf, hf.bbuf, hf.grid⟩ (hrun.symm.trans h)
  · cases hrun.symm.trans h
    exact ⟨hf.ibuf, hf.key, hf.obuf, hf.bbuf, hf.grid⟩

theorem withChannel_pixCount (g : Grid) (ch : Channel) (m : Memory) : (withChannel g ch m).pixCount = g.pixCount := by
  cases ch <;> rfl

theorem hostMove_fits {c : Caps} {m : HostMove} {s t : State} (hl : c.Legal) (hcaps : s.caps = some c) (hbyte : 1 ≤ c.nout)
    (hinv : Inv s) (hf : Fits c s) (h : hostMove m s = .next t) : Fits c t := by
  cases m with
  | loadIbuf bs =>
    obtain ⟨hcap, rfl⟩ := loadIfFits_next (whileIdle_next h).2
    exact ⟨hcap c hcaps, hf.key, hf.obuf, hf.bbuf, hf.grid⟩
  | loadKey bs =>
    obtain ⟨hcap, rfl⟩ := loadIfFits_next (whileIdle_next h).2
    exact ⟨hf.ibuf, hcap c hcaps, hf.obuf, hf.bbuf, hf.grid⟩
  | loadBbuf bits =>
    obtain ⟨hcap, rfl⟩ := loadIfFits_next (whileIdle_next h).2
    exact ⟨hf.ibuf, hf.key, hf.obuf, hcap c hcaps, hf.grid⟩
  | attachGrid w h' red green blue alpha =>
    obtain ⟨-, hcap, rfl⟩ := attach_next (whileIdle_next h).2
    exact ⟨hf.ibuf, hf.key, hf.obuf, hf.bbuf, hcap c hcaps⟩
  | readPixel ch n =>
    obtain ⟨-, m, -, rfl⟩ := readPixel_next (whileIdle_next h).2
    exact ⟨hf.ibuf, hf.key, hf.obuf, hf.bbuf, hf.grid⟩
  | writePixel ch n v =>
    obtain ⟨-, m, -, rfl⟩ := writePixel_next (whileIdle_next h).2
    exact ⟨hf.ibuf, hf.key, hf.obuf, hf.bbuf, (withChannel_pixCount ..).trans_le hf.grid⟩
  | readReg r =>
    obtain ⟨-, v, -, rfl⟩ := readRegister_next h
    exact ⟨hf.ibuf, hf.key, hf.obuf, hf.bbuf, hf.grid⟩
  | readObuf k =>
    obtain ⟨v, -, rfl⟩ := readObufAt_next (whileIdle_next h).2
    exact ⟨hf.ibuf, hf.key, hf.obuf, hf.bbuf, hf.grid⟩
  | readBbuf k =>
    obtain ⟨b, -, rfl⟩ := readBbufAt_next (whileIdle_next h).2
    exact ⟨hf.ibuf, hf.key, hf.obuf, hf.bbuf, hf.grid⟩
  | writeReg r v => exact runCommand_fits hl hbyte hf (writeRegister_next (whileIdle_next h).2).2
  | issue v =>
    cases (whileIdle_next h).2
    exact ⟨hf.ibuf, hf.key, hf.obuf, hf.bbuf, hf.grid⟩
  | wait => exact coreStep_fits hl hbyte hinv hf h
  | reset =>
    cases h
    exact ⟨Nat.zero_le _, Nat.zero_le _, Nat.zero_le _, Nat.zero_le _, hf.grid⟩

/-- No loop invariant speaks of the host's script. -/
theorem runOk_withScript {s : State} (rest : List HostMove) (h : RunOk s) : RunOk { s with script := rest } := by
  unfold RunOk at h ⊢
  cases hop : decodeOp s.opl with
  | none =>
    rw [hop] at h
    exact h
  | some i =>
    rw [hop] at h
    cases i with
    | encrypt => exact ⟨h.key_nonempty, h.i_le, h.kidx_eq, h.out_eq⟩
    | decrypt => exact ⟨h.key_nonempty, h.i_le, h.kidx_eq, h.out_eq⟩
    | b2bits => exact ⟨h.i_le, h.out_eq, h.acc_zero, h.bcnt_zero⟩
    | bits2b => exact h
    | embed => exact ⟨h.fits, h.n_le, h.bcnt_eq⟩
    | extract => exact ⟨h.n_le, h.bcnt_eq, h.qlen_eq, h.i_eq, h.bytes_eq, h.acc_bits, h.no_match_before⟩
    | hide => exact ⟨h.key_nonempty, h.fits, h.n_le, h.bcnt_eq, h.i_eq, h.kidx_eq⟩
    | reveal => exact ⟨h.n_le, h.bcnt_eq, h.qlen_eq, h.i_eq, h.bytes_eq, h.acc_bits, h.no_match_before⟩

/-- Taking a move off the script keeps the invariant. -/
theorem inv_withScript {s : State} (rest : List HostMove) (h : Inv s) : Inv { s with script := rest } where
  status := ⟨h.status.busy_iff_not_idle, h.status.rsv_zero, h.status.err_listed⟩
  opl := h.opl
  grid := h.grid
  check hph :=
    have hc := h.check hph
    ⟨hc.n_zero, hc.i_zero, hc.kidx_zero, hc.acc_zero, hc.bcnt_zero, hc.qlen_zero, hc.result_empty⟩
  run hph := runOk_withScript rest (h.run hph)
  run2 hph :=
    have hr := h.run2 hph
    ⟨hr.opl_reveal, hr.key_nonempty, hr.i_le, hr.kidx_eq, hr.out_eq⟩

/-- Settles O49: a step is one of the host's moves or one of the sequencer, and each of them keeps the capacities; between the
steps of a command it is the loop invariant that bounds the result under construction. -/
theorem stepKeepsWithinCapacities : Obligations.StepKeepsWithinCapacities := by
  refine ⟨fun s t h => ⟨step_caps h, (step_next h).1⟩, fun s t c hcaps hbyte hinv hf h => ?_⟩
  obtain ⟨hlegal, ⟨-, hcore⟩ | ⟨m, rest, -, hmove⟩⟩ := step_next h
  · exact coreStep_fits (hlegal c hcaps) hbyte hinv hf hcore
  · exact hostMove_fits (s := { s with script := rest }) (hlegal c hcaps) hcaps hbyte (inv_withScript rest hinv)
      ⟨hf.ibuf, hf.key, hf.obuf, hf.bbuf, hf.grid⟩ hmove

end Sys2Proof.Machine

namespace Sys2Proof.Machine

/-! ### Runs of the sequencer that end at the command level's state -/

/-- A machine whose host makes no move, so that every step is one of the sequencer. -/
def Undisturbed (s : State) : Prop := LegalConfig s ∧ s.script = []

/-- From `s` the machine is idle after at most `bound` steps, in a state the host cannot tell from `t` (R18, R20). -/
def RunsTo (bound : Nat) (s t : State) : Prop :=
  ∃ k u, k ≤ bound ∧ Host.Core.run Sys2Proof.core k s = .next u ∧ u.ph = .idle ∧ archView u = archView t

theorem undisturbed_of_coreStep {s t : State} (hu : Undisturbed s) (h : coreStep s = .next t) : Undisturbed t := by
  have hkeep := coreStep_keepsOperands h
  exact ⟨fun c hc => hu.1 c (hkeep.caps ▸ hc), hkeep.script.trans hu.2⟩

theorem RunsTo.mono {a b : Nat} {s t : State} (h : RunsTo a s t) (hab : a ≤ b) : RunsTo b s t := by
  obtain ⟨k, u, hk, hrun⟩ := h
  exact ⟨k, u, hk.trans hab, hrun⟩

theorem RunsTo.congr {b : Nat} {s t t' : State} (h : RunsTo b s t) (ht : archView t = archView t') : RunsTo b s t' := by
  obtain ⟨k, u, hk, hrun, hidle, hview⟩ := h
  exact ⟨k, u, hk, hrun, hidle, hview.trans ht⟩

theorem runsTo_of_coreStep {b : Nat} {s s' t : State} (hu : Undisturbed s) (hstep : coreStep s = .next s')
    (h : RunsTo b s' t) : RunsTo (b + 1) s t := by
  obtain ⟨k, u, hk, hrun, hend⟩ := h
  refine ⟨k + 1, u, Nat.succ_le_succ hk, ?_, hend⟩
  rw [run_next k ((step_nil hu.1 hu.2).trans hstep)]
  exact hrun

/-- DONE to IDLE leaves what the command level leaves when it raises the code, or succeeds with it (R171, R184). -/
theorem doneStep_toDone (d : Dest) (e : ErrCode) (s : State) : doneStep (toDone d e s) = raiseErr d e s := by
  rw [doneStep, toDone_err]
  rfl

theorem runsTo_of_toDone {d : Dest} {e : ErrCode} {s u : State} (hu : Undisturbed s)
    (hstep : coreStep s = .next (toDone d e u)) : RunsTo 2 s (raiseErr d e u) := by
  have hu' := undisturbed_of_coreStep hu hstep
  have hlast : RunsTo 1 (toDone d e u) (raiseErr d e u) :=
    runsTo_of_coreStep hu' rfl ⟨0, raiseErr d e u, le_rfl, congrArg _ (doneStep_toDone d e u), rfl, rfl⟩
  exact runsTo_of_coreStep hu hstep hlast

/-- A loop of the sequencer: `P` is its invariant, `μ` bounds the steps left, and `f` gives the state the command ends in,
which an element step does not change but for what the host cannot see. -/
theorem runsTo_of_loop {P : State → Prop} {μ : State → Nat} {f : State → State}
    (hloop : ∀ s, Undisturbed s → P s → RunsTo (μ s) s (f s) ∨
      ∃ s', coreStep s = .next s' ∧ P s' ∧ μ s' < μ s ∧ archView (f s') = archView (f s))
    (s : State) (hu : Undisturbed s) (hP : P s) : RunsTo (μ s) s (f s) := by
  rcases hloop s hu hP with hends | ⟨s', hstep, hP', hμ, hf⟩
  · exact hends
  · have hrest := runsTo_of_loop hloop s' (undisturbed_of_coreStep hu hstep) hP'
    exact ((runsTo_of_coreStep hu hstep hrest).congr hf).mono hμ
termination_by μ s

/-! ### What the command level gives -/

/-- The state a command ends in at the command level (R8). -/
def commandResult (i : Instr) (s : State) : State :=
  match exec i s with
  | .next t => t
  | .fault _ => s
  | .refused _ => s

theorem commandResult_of_exec {i : Instr} {s t : State} (h : exec i s = .next t) : commandResult i s = t := by
  rw [commandResult, h]

theorem exec_eq_commandResult (i : Instr) (s : State) : exec i s = .next (commandResult i s) := by
  obtain ⟨e, t, hexec, -⟩ := exec_shape i s
  rw [commandResult_of_exec hexec, hexec]

theorem exec_cipher {s : State} (hk : s.klen ≠ 0) :
    cipherBuffer s = .next (finish .ok (setObuf (xorStream s.ibuf s.key) s)) := if_neg hk

theorem exec_extract_some {s : State} {out : List Byte} (h : extractFn s.grid = some out) :
    exec .extract s = .next (finish .ok (setObuf out s)) := by
  simp only [exec, execExtract, h]

theorem exec_extract_none {s : State} (h : extractFn s.grid = none) :
    exec .extract s = .next (raiseErr .obuf .terminatorNotFound s) := by
  simp only [exec, execExtract, h]

theorem exec_reveal_some {s : State} {out : List Byte} (h : extractFn s.grid = some out) (hk : s.klen ≠ 0) :
    exec .reveal s = .next (finish .ok (setObuf (xorStream out s.key) s)) := by
  simp only [exec, execReveal, h, hk, if_false]

theorem exec_reveal_noKey {s : State} {out : List Byte} (h : extractFn s.grid = some out) (hk : s.klen = 0) :
    exec .reveal s = .next (raiseErr .obuf .invalidKey s) := by
  simp only [exec, execReveal, h, hk, if_true]

theorem exec_reveal_none {s : State} (h : extractFn s.grid = none) :
    exec .reveal s = .next (raiseErr .obuf .terminatorNotFound s) := by
  simp only [exec, execReveal, h]

/-- A precondition that CHECK finds violated is the error the command level reports (R172, R186). -/
theorem exec_of_precheck {i : Instr} {s : State} {e : ErrCode} (h : precheck i s = some e) :
    exec i s = .next (raiseErr (destOf i) e s) := by
  have cipher : precheck .encrypt s = some e → cipherBuffer s = .next (raiseErr .obuf e s) := by
    intro h
    simp only [precheck] at h
    split at h <;> cases h
    exact if_pos ‹_›
  cases i with
  | encrypt => exact cipher h
  | decrypt => exact cipher h
  | b2bits => cases h
  | bits2b =>
    simp only [precheck] at h
    split at h <;> cases h
    exact if_neg ‹_›
  | embed =>
    simp only [precheck] at h
    split at h <;> cases h
    exact if_pos ‹_›
  | extract => cases h
  | hide =>
    simp only [precheck] at h
    split at h
    · cases h
      exact if_pos ‹_›
    · rename_i hk
      split at h <;> cases h
      exact (if_neg hk).trans (if_pos ‹_›)
  | reveal => cases h

/-- Everything a scanning command reads, and everything it leaves alone: the state but for OBUF, STATUS, PH and the working
registers. -/
def outsideObuf (s : State) : State := archView (finish .ok (setObuf [] s))

/-- What EXTRACT and REVEAL end in depends on nothing their scan changes (R77). -/
theorem commandResult_outsideObuf {i : Instr} (hi : i = .extract ∨ i = .reveal) (s : State) :
    archView (commandResult i s) = archView (commandResult i (outsideObuf s)) := by
  have hgrid : (outsideObuf s).grid = s.grid := rfl
  rcases hi with rfl | rfl
  · cases hx : extractFn s.grid with
    | none =>
      rw [commandResult_of_exec (exec_extract_none hx), commandResult_of_exec (exec_extract_none (hgrid ▸ hx))]
      rfl
    | some out =>
      rw [commandResult_of_exec (exec_extract_some hx), commandResult_of_exec (exec_extract_some (hgrid ▸ hx))]
      rfl
  · cases hx : extractFn s.grid with
    | none =>
      rw [commandResult_of_exec (exec_reveal_none hx), commandResult_of_exec (exec_reveal_none (hgrid ▸ hx))]
      rfl
    | some out =>
      by_cases hk : s.klen = 0
      · rw [commandResult_of_exec (exec_reveal_noKey hx hk),
          commandResult_of_exec (exec_reveal_noKey (s := outsideObuf s) hx hk)]
        rfl
      · rw [commandResult_of_exec (exec_reveal_some hx hk),
          commandResult_of_exec (exec_reveal_some (s := outsideObuf s) hx hk)]
        rfl

theorem commandResult_scan_congr {i : Instr} {s s' : State} (hi : i = .extract ∨ i = .reveal)
    (h : outsideObuf s' = outsideObuf s) : archView (commandResult i s') = archView (commandResult i s) := by
  rw [commandResult_outsideObuf hi, h, ← commandResult_outsideObuf hi]

/-! ### The loops -/

theorem coreStep_run {s : State} (h : s.ph = .run) : coreStep s = runStep s := by simp only [coreStep, h]

/-- ENCRYPT and DECRYPT, from any byte of their loop. -/
theorem cipher_runsTo {s : State} (hu : Undisturbed s) (hph : s.ph = .run)
    (hop : s.opl = opOf .encrypt ∨ s.opl = opOf .decrypt) (hok : CipherOk s) :
    RunsTo (s.ilen - s.i + 2) s (finish .ok (setObuf (xorStream s.ibuf s.key) s)) := by
  refine runsTo_of_loop (P := fun s => s.ph = .run ∧ (s.opl = opOf .encrypt ∨ s.opl = opOf .decrypt) ∧ CipherOk s)
    (μ := fun s => s.ilen - s.i + 2) (f := fun s => finish .ok (setObuf (xorStream s.ibuf s.key) s))
    (fun s hu ⟨hph, hop, hok⟩ => ?_) s hu ⟨hph, hop, hok⟩
  have hcore : coreStep s = cipherStep s := by
    rcases hop with hop | hop <;> simp only [coreStep_run hph, runStep, hop, decodeOp_opOf]
  rcases Nat.lt_or_ge s.i s.ilen with hi | hi
  · obtain ⟨o, k, hstep, hok'⟩ := cipherStep_advances hok hi
    exact .inr ⟨_, hcore.trans hstep, ⟨hph, hop, hok'⟩, (by omega : s.ilen - (s.i + 1) + 2 < s.ilen - s.i + 2), rfl⟩
  · have hobuf : s.obuf = xorStream s.ibuf s.key := by rw [hok.out_eq, List.take_of_length_le hi]
    refine .inl (.mono (.congr (runsTo_of_toDone hu (hcore.trans (cipherStep_ends hi))) ?_) (Nat.le_add_left 2 _))
    rw [← hobuf]
    rfl

/-- B2BITS, from any byte of its loop. -/
theorem b2bits_runsTo {s : State} (hu : Undisturbed s) (hph : s.ph = .run) (hop : s.opl = opOf .b2bits) (hok : B2bitsOk s) :
    RunsTo (s.ilen - s.i + 2) s (finish .ok (setBbuf (bytesToBits s.ibuf) s)) := by
  refine runsTo_of_loop (P := fun s => s.ph = .run ∧ s.opl = opOf .b2bits ∧ B2bitsOk s)
    (μ := fun s => s.ilen - s.i + 2) (f := fun s => finish .ok (setBbuf (bytesToBits s.ibuf) s))
    (fun s hu ⟨hph, hop, hok⟩ => ?_) s hu ⟨hph, hop, hok⟩
  have hcore : coreStep s = b2bitsStep s := by simp only [coreStep_run hph, runStep, hop, decodeOp_opOf]
  rcases Nat.lt_or_ge s.i s.ilen with hi | hi
  · obtain ⟨r, hstep, hok'⟩ := b2bitsStep_advances hok hi
    exact .inr ⟨_, hcore.trans hstep, ⟨hph, hop, hok'⟩, (by omega : s.ilen - (s.i + 1) + 2 < s.ilen - s.i + 2), rfl⟩
  · have hresult : s.result = bytesToBits s.ibuf := by rw [hok.out_eq, List.take_of_length_le hi]
    refine .inl (.mono (.congr (runsTo_of_toDone hu (hcore.trans (b2bitsStep_ends hi))) ?_) (Nat.le_add_left 2 _))
    rw [← hresult]
    rfl

/-- Inside a byte ACC holds the payload byte at N div 8 without the bits that have left it (R27, R134). -/
def AccHolds (p : List Byte) (s : State) : Prop :=
  s.n % 8 ≠ 0 → s.acc = p.getD (s.n / 8) 0x00#8 <<< (s.n % 8)

theorem accHolds_zero (p : List Byte) {s : State} (h : s.n = 0) : AccHolds p s := fun hn => absurd (by rw [h]) hn

theorem loadsByte_shifted {p : List Byte} {s : State} {v : Byte} (hacc : AccHolds p s) (hv : LoadsByte p s v) :
    v = p.getD (s.n / 8) 0x00#8 <<< (s.n % 8) := by
  by_cases h0 : s.n % 8 = 0
  · rw [hv.1 h0, h0, BitVec.shiftLeft_zero]
  · rw [hv.2 h0, hacc h0]

theorem accHolds_afterPixelOut {p : List Byte} {s : State} {v : Byte} (kidx i : Nat) (hacc : AccHolds p s)
    (hv : LoadsByte p s v) : AccHolds p (afterPixelOut v kidx i s) := by
  intro h
  replace h : (s.n + 1) % 8 ≠ 0 := h
  show v <<< 1 = p.getD ((s.n + 1) / 8) 0x00#8 <<< ((s.n + 1) % 8)
  rw [loadsByte_shifted hacc hv, show (s.n + 1) / 8 = s.n / 8 by omega, show (s.n + 1) % 8 = s.n % 8 + 1 by omega,
    BitVec.shiftLeft_add]

/-- The payload bits from pixel N on begin with bit 7 of ACC after its load (R120, R134). -/
theorem bits_from_n {p : List Byte} {s : State} {v : Byte} (hacc : AccHolds p s) (hv : LoadsByte p s v)
    (hn : s.n < 8 * p.length) : (bytesToBits p).drop s.n = v.getLsbD 7 :: (bytesToBits p).drop (s.n + 1) := by
  have hlt : s.n < (bytesToBits p).length := by rwa [bytesToBits_length]
  have hbit : v.getLsbD 7 = (p.getD (s.n / 8) 0x00#8).getLsbD (7 - s.n % 8) := by
    have h7 : ¬ 7 < s.n % 8 := by omega
    rw [loadsByte_shifted hacc hv, BitVec.getLsbD_shiftLeft]
    simp [h7]
  have hget : (bytesToBits p)[s.n] = v.getLsbD 7 := by
    rw [hbit]
    exact Option.some.inj ((List.getElem?_eq_getElem hlt).symm.trans (bytesToBits_getElem? p s.n hn))
  rw [List.drop_eq_getElem_cons hlt, hget]

/-- The state in which EMBED or HIDE ends that has still to write the payload bits from pixel N on (R131). -/
def withBitsFrom (p : List Byte) (s : State) : State :=
  finish .ok (setBlue (embedFrom s.grid.blue s.n ((bytesToBits p).drop s.n)) s)

theorem withBitsFrom_afterPixelOut {p : List Byte} {s : State} {v : Byte} (kidx i : Nat) (hacc : AccHolds p s)
    (hv : LoadsByte p s v) (hn : s.n < 8 * p.length) :
    archView (withBitsFrom p (afterPixelOut v kidx i s)) = archView (withBitsFrom p s) := by
  unfold withBitsFrom
  rw [bits_from_n hacc hv hn]
  rfl

theorem withBitsFrom_end {p : List Byte} {s : State} (hn : 8 * p.length ≤ s.n) : withBitsFrom p s = finish .ok s := by
  rw [withBitsFrom, List.drop_eq_nil_of_le (by rwa [bytesToBits_length])]
  rfl

theorem withBitsFrom_start {p : List Byte} {s : State} (hn : s.n = 0) :
    withBitsFrom p s = finish .ok (setBlue (embedFn s.grid p) s) := by
  rw [withBitsFrom, hn]
  rfl

/-- EMBED, from any pixel of its loop. -/
theorem embed_runsTo {s : State} (hu : Undisturbed s) (hph : s.ph = .run) (hop : s.opl = opOf .embed) (hok : EmbedOk s)
    (hacc : AccHolds s.ibuf s) : RunsTo (8 * s.ilen - s.n + 2) s (withBitsFrom s.ibuf s) := by
  refine runsTo_of_loop (P := fun s => s.ph = .run ∧ s.opl = opOf .embed ∧ EmbedOk s ∧ AccHolds s.ibuf s)
    (μ := fun s => 8 * s.ilen - s.n + 2) (f := fun s => withBitsFrom s.ibuf s)
    (fun s hu ⟨hph, hop, hok, hacc⟩ => ?_) s hu ⟨hph, hop, hok, hacc⟩
  have hcore : coreStep s = pixelOut loadEmbed (8 * s.ilen) s := by
    simp only [coreStep_run hph, runStep, hop, decodeOp_opOf]
  rcases Nat.lt_or_ge s.n (8 * s.ilen) with hn | hn
  · obtain ⟨v, hstep, hv, hok'⟩ := pixelOut_embed_advances hok hn
    exact .inr ⟨_, hcore.trans hstep, ⟨hph, hop, hok', accHolds_afterPixelOut _ _ hacc hv⟩,
      (by omega : 8 * s.ilen - (s.n + 1) + 2 < 8 * s.ilen - s.n + 2), withBitsFrom_afterPixelOut _ _ hacc hv hn⟩
  · refine .inl (.mono (.congr (runsTo_of_toDone hu (hcore.trans (pixelOut_ends hn))) ?_) (Nat.le_add_left 2 _))
    rw [withBitsFrom_end hn]
    rfl

/-- HIDE, from any pixel of its loop. -/
theorem hide_runsTo {s : State} (hu : Undisturbed s) (hph : s.ph = .run) (hop : s.opl = opOf .hide) (hok : HideOk s)
    (hacc : AccHolds (payload s.ibuf s.key) s) :
    RunsTo (8 * (s.ilen + 3) - s.n + 2) s (withBitsFrom (payload s.ibuf s.key) s) := by
  refine runsTo_of_loop (P := fun s => s.ph = .run ∧ s.opl = opOf .hide ∧ HideOk s ∧ AccHolds (payload s.ibuf s.key) s)
    (μ := fun s => 8 * (s.ilen + 3) - s.n + 2) (f := fun s => withBitsFrom (payload s.ibuf s.key) s)
    (fun s hu ⟨hph, hop, hok, hacc⟩ => ?_) s hu ⟨hph, hop, hok, hacc⟩
  have hcore : coreStep s = pixelOut loadHide (8 * (s.ilen + 3)) s := by
    simp only [coreStep_run hph, runStep, hop, decodeOp_opOf]
  have hlen := payload_length s.ibuf s.key
  rcases Nat.lt_or_ge s.n (8 * (s.ilen + 3)) with hn | hn
  · obtain ⟨v, k, j, hstep, hv, hok'⟩ := pixelOut_hide_advances hok hn
    exact .inr ⟨_, hcore.trans hstep, ⟨hph, hop, hok', accHolds_afterPixelOut _ _ hacc hv⟩,
      (by omega : 8 * (s.ilen + 3) - (s.n + 1) + 2 < 8 * (s.ilen + 3) - s.n + 2),
      withBitsFrom_afterPixelOut _ _ hacc hv (hlen ▸ hn)⟩
  · refine .inl (.mono (.congr (runsTo_of_toDone hu (hcore.trans (pixelOut_ends hn))) ?_) (Nat.le_add_left 2 _))
    rw [withBitsFrom_end (hlen ▸ hn)]
    rfl

/-- REVEAL's second phase, from any byte of its loop. -/
theorem run2_runsTo {s : State} (hu : Undisturbed s) (hph : s.ph = .run2) (hok : Run2Ok s) :
    RunsTo (s.olen - s.i + 2) s (commandResult .reveal s) := by
  refine runsTo_of_loop (P := fun s => s.ph = .run2 ∧ Run2Ok s) (μ := fun s => s.olen - s.i + 2)
    (f := commandResult .reveal) (fun s hu ⟨hph, hok⟩ => ?_) s hu ⟨hph, hok⟩
  have hcore : coreStep s = run2Step s := by simp only [coreStep, hph]
  rcases Nat.lt_or_ge s.i s.olen with hi | hi
  · obtain ⟨o, k, hstep, hlen, hok'⟩ := run2Step_advances hok hi
    refine .inr ⟨_, hcore.trans hstep, ⟨hph, hok'⟩, ?_, commandResult_scan_congr (.inr rfl) rfl⟩
    show o.length - (s.i + 1) + 2 < s.olen - s.i + 2
    omega
  · obtain ⟨out, hout, hobuf⟩ := run2Ok_deciphered hok hi
    refine .inl (.mono (.congr (runsTo_of_toDone hu (hcore.trans (run2Step_ends hok hi))) ?_) (Nat.le_add_left 2 _))
    rw [commandResult_of_exec (exec_reveal_some hout hok.key_nonempty), ← hobuf]
    rfl

/-- A pixel step of the detector changes nothing outside OBUF and the working registers (R145). -/
theorem pixelIn_outsideObuf {s t : State} (h : pixelIn s = .next t) : outsideObuf t = outsideObuf s := by
  obtain ⟨-, ⟨-, rfl⟩ | ⟨-, rfl⟩⟩ := pixelIn_next h
  · rw [byteStep_eq]
    split_ifs <;> rfl
  · rfl

theorem coreStep_scan {i : Instr} {s : State} (hph : s.ph = .run) (hi : i = .extract ∨ i = .reveal) (hop : s.opl = opOf i)
    (hf : found s = false) :
    coreStep s = if s.n < s.grid.pixCount then pixelIn s else .next (toDone .obuf .terminatorNotFound s) := by
  rcases hi with rfl | rfl
  · simp only [coreStep_run hph, runStep, hop, decodeOp_opOf, extractStep, hf, Bool.false_eq_true, if_false]
  · simp only [coreStep_run hph, runStep, hop, decodeOp_opOf, revealStep, hf, Bool.false_eq_true, if_false]

/-- A scan that exhausts the grid ends as the command level does (R147). -/
theorem commandResult_exhausted {i : Instr} {s : State} (hi : i = .extract ∨ i = .reveal) (h : extractFn s.grid = none) :
    commandResult i s = raiseErr .obuf .terminatorNotFound s := by
  rcases hi with rfl | rfl
  · exact commandResult_of_exec (exec_extract_none h)
  · exact commandResult_of_exec (exec_reveal_none h)

theorem extract_found_runsTo {s : State} (hu : Undisturbed s) (hph : s.ph = .run) (hop : s.opl = opOf .extract)
    (hok : ScanOk s) (hf : found s = true) : RunsTo 2 s (commandResult .extract s) := by
  have hcore : coreStep s = .next (succeed s) := by
    simp only [coreStep_run hph, runStep, hop, decodeOp_opOf, extractStep, hf, if_true]
  rw [commandResult_of_exec (exec_extract_some (extractFn_of_found hok hf))]
  exact runsTo_of_toDone hu hcore

theorem reveal_found_runsTo {s : State} (hu : Undisturbed s) (hph : s.ph = .run) (hop : s.opl = opOf .reveal)
    (hok : ScanOk s) (hf : found s = true) : RunsTo (s.olen + 3) s (commandResult .reveal s) := by
  by_cases hk : s.klen = 0
  · have hcore : coreStep s = .next (toDone .obuf .invalidKey s) := by
      simp only [coreStep_run hph, runStep, hop, decodeOp_opOf, revealStep, hf, hk, if_true]
    rw [commandResult_of_exec (exec_reveal_noKey (extractFn_of_found hok hf) hk)]
    exact (runsTo_of_toDone hu hcore).mono (by omega)
  · have hcore : coreStep s = .next { s with ph := .run2, i := 0, kidx := 0 } := by
      simp only [coreStep_run hph, runStep, hop, decodeOp_opOf, revealStep, hf, hk, if_true, if_false]
    have hrun2 := run2_runsTo (undisturbed_of_coreStep hu hcore) rfl (run2Ok_of_found hok hf hop hk)
    exact (runsTo_of_coreStep hu hcore hrun2).congr (commandResult_scan_congr (.inr rfl) rfl)

/-- EXTRACT and REVEAL, from any pixel of their scan. -/
theorem scan_runsTo {i : Instr} (hi : i = .extract ∨ i = .reveal) {s : State} (hu : Undisturbed s) (hph : s.ph = .run)
    (hop : s.opl = opOf i) (hok : ScanOk s) :
    RunsTo (s.grid.pixCount - s.n + (s.grid.pixCount + 3)) s (commandResult i s) := by
  refine runsTo_of_loop (P := fun s => s.ph = .run ∧ s.opl = opOf i ∧ ScanOk s)
    (μ := fun s => s.grid.pixCount - s.n + (s.grid.pixCount + 3)) (f := commandResult i)
    (fun s hu ⟨hph, hop, hok⟩ => ?_) s hu ⟨hph, hop, hok⟩
  cases hf : found s with
  | true =>
    have holen := scanOk_olen hok
    rcases hi with rfl | rfl
    · exact .inl ((extract_found_runsTo hu hph hop hok hf).mono (by omega))
    · exact .inl ((reveal_found_runsTo hu hph hop hok hf).mono (by omega))
  | false =>
    have hcore := coreStep_scan hph hi hop hf
    by_cases hn : s.n < s.grid.pixCount
    · rw [if_pos hn] at hcore
      obtain ⟨t, ht⟩ := pixelIn_of_lt hn
      obtain ⟨-, -, -, -, -, hgrid, hph', hop', hn', -⟩ := pixelIn_frame ht
      refine .inr ⟨t, hcore.trans ht, ⟨hph'.trans hph, hop'.trans hop, pixelIn_scanOk hok hf ht⟩, ?_,
        commandResult_scan_congr hi (pixelIn_outsideObuf ht)⟩
      show t.grid.pixCount - t.n + (t.grid.pixCount + 3) < s.grid.pixCount - s.n + (s.grid.pixCount + 3)
      rw [hgrid, hn']
      omega
    · rw [if_neg hn] at hcore
      rw [commandResult_exhausted hi (extractFn_of_exhausted hok hf (Nat.le_of_not_lt hn))]
      exact .inl ((runsTo_of_toDone hu hcore).mono (by omega))

/-! ### From the issue to the end -/

theorem startRun_cipherOk {i : Instr} {s : State} (hck : CheckOk s) (hd : destOf i = .obuf) (hk : s.klen ≠ 0) :
    CipherOk (startRun i s) := by
  have hstart : startRun i s = { setObuf [] s with ph := .run } := by rw [startRun, hd, clearResult_obuf]
  rw [hstart]
  refine ⟨hk, hck.i_zero.trans_le (Nat.zero_le _), ?_, ?_⟩
  · show s.kidx = s.i % s.klen
    rw [hck.kidx_zero, hck.i_zero, Nat.zero_mod]
  · show [] = xorStream (s.ibuf.take s.i) s.key
    rw [hck.i_zero]
    rfl

theorem startRun_b2bitsOk {s : State} (hck : CheckOk s) : B2bitsOk (startRun .b2bits s) := by
  refine ⟨hck.i_zero.trans_le (Nat.zero_le _), ?_, hck.acc_zero, hck.bcnt_zero⟩
  show s.result = bytesToBits (s.ibuf.take s.i)
  rw [hck.result_empty, hck.i_zero]
  rfl

theorem startRun_embedOk {s : State} (hck : CheckOk s) (hfit : 8 * s.ilen ≤ s.grid.pixCount) :
    EmbedOk (startRun .embed s) := by
  refine ⟨hfit, hck.n_zero.trans_le (Nat.zero_le _), ?_⟩
  show s.bcnt.toNat = s.n % 8
  rw [hck.bcnt_zero, hck.n_zero]
  rfl

theorem startRun_hideOk {s : State} (hck : CheckOk s) (hk : s.klen ≠ 0) (hfit : 8 * (s.ilen + 3) ≤ s.grid.pixCount) :
    HideOk (startRun .hide s) := by
  refine ⟨hk, hfit, hck.n_zero.trans_le (Nat.zero_le _), ?_, ?_, ?_⟩
  · show s.bcnt.toNat = s.n % 8
    rw [hck.bcnt_zero, hck.n_zero]
    rfl
  · show s.i = min ((s.n + 7) / 8) s.ilen
    rw [hck.i_zero, hck.n_zero]
    omega
  · show s.kidx = s.i % s.klen
    rw [hck.kidx_zero, hck.i_zero, Nat.zero_mod]

theorem startRun_scanOk {i : Instr} {s : State} (hck : CheckOk s) (hd : destOf i = .obuf) : ScanOk (startRun i s) := by
  have hstart : startRun i s = { setObuf [] s with ph := .run } := by rw [startRun, hd, clearResult_obuf]
  rw [hstart]
  have hn := hck.n_zero
  constructor
  case n_le => exact hn.trans_le (Nat.zero_le _)
  case bcnt_eq => simp [hn, hck.bcnt_zero]
  case qlen_eq => simp [hn, hck.qlen_zero]
  case i_eq => exact hck.i_zero
  case bytes_eq => simp [queueOf, hn, hck.qlen_zero]
  case acc_bits => simp [hn, hck.acc_zero]
  case no_match_before =>
    intro k hk
    simp [hn] at hk

theorem precheck_hide_none {s : State} (h : precheck .hide s = none) :
    s.klen ≠ 0 ∧ overCapacity s.grid (s.ilen + 3) = false := by
  simp only [precheck] at h
  split at h
  · cases h
  · rename_i hk
    split at h
    · cases h
    · exact ⟨hk, eq_false_of_ne_true ‹_›⟩

theorem startRun_cipher_runsTo {i : Instr} {s : State} (hi : i = .encrypt ∨ i = .decrypt) (hu : Undisturbed (startRun i s))
    (hck : CheckOk s) (hop : (startRun i s).opl = opOf i) (hp : precheck i s = none) :
    RunsTo (s.ilen + 2) (startRun i s) (commandResult i s) := by
  have hk : s.klen ≠ 0 := by rcases hi with rfl | rfl <;> simpa [precheck] using hp
  have hdest : destOf i = .obuf := by rcases hi with rfl | rfl <;> rfl
  have hexec : exec i s = .next (finish .ok (setObuf (xorStream s.ibuf s.key) s)) := by
    rcases hi with rfl | rfl <;> exact exec_cipher hk
  have hop' : (startRun i s).opl = opOf .encrypt ∨ (startRun i s).opl = opOf .decrypt := by
    rcases hi with rfl | rfl
    · exact .inl hop
    · exact .inr hop
  have hrun := cipher_runsTo hu rfl hop' (startRun_cipherOk hck hdest hk)
  rw [commandResult_of_exec hexec]
  rcases hi with rfl | rfl
  · exact (hrun.congr rfl).mono (Nat.add_le_add_right (Nat.sub_le ..) 2)
  · exact (hrun.congr rfl).mono (Nat.add_le_add_right (Nat.sub_le ..) 2)

theorem startRun_b2bits_runsTo {s : State} (hu : Undisturbed (startRun .b2bits s)) (hck : CheckOk s)
    (hop : (startRun .b2bits s).opl = opOf .b2bits) :
    RunsTo (s.ilen + 2) (startRun .b2bits s) (commandResult .b2bits s) := by
  have hrun := b2bits_runsTo hu rfl hop (startRun_b2bitsOk hck)
  exact (hrun.congr rfl).mono (Nat.add_le_add_right (Nat.sub_le ..) 2)

theorem startRun_bits2b_runsTo {s : State} (hu : Undisturbed (startRun .bits2b s))
    (hop : (startRun .bits2b s).opl = opOf .bits2b) (hp : precheck .bits2b s = none) :
    RunsTo 2 (startRun .bits2b s) (commandResult .bits2b s) := by
  have hb : s.blen = 8 := by simpa [precheck] using hp
  have hcore : coreStep (startRun .bits2b s) = .next (succeed (setObuf [bitsToByte s.bbuf] (startRun .bits2b s))) := by
    rw [coreStep_run rfl, runStep, hop]
    exact if_pos hb
  rw [commandResult_of_exec (i := .bits2b) (if_pos hb)]
  exact (runsTo_of_toDone hu hcore).congr rfl

theorem startRun_embed_runsTo {s : State} (hu : Undisturbed (startRun .embed s)) (hck : CheckOk s)
    (hop : (startRun .embed s).opl = opOf .embed) (hp : precheck .embed s = none) :
    RunsTo (8 * s.ilen + 2) (startRun .embed s) (commandResult .embed s) := by
  have hcap : overCapacity s.grid s.ilen = false := by simpa [precheck] using hp
  have hexec : exec .embed s = .next (finish .ok (setBlue (embedFn s.grid s.ibuf) s)) := if_neg (by simp [hcap])
  have hn : (startRun .embed s).n = 0 := hck.n_zero
  have hrun := embed_runsTo hu rfl hop (startRun_embedOk hck ((overCapacity_false_iff _ _).1 hcap)) (accHolds_zero _ hn)
  rw [withBitsFrom_start hn] at hrun
  rw [commandResult_of_exec hexec]
  exact (hrun.congr rfl).mono (Nat.add_le_add_right (Nat.sub_le ..) 2)

theorem startRun_hide_runsTo {s : State} (hu : Undisturbed (startRun .hide s)) (hck : CheckOk s)
    (hop : (startRun .hide s).opl = opOf .hide) (hp : precheck .hide s = none) :
    RunsTo (8 * (s.ilen + 3) + 2) (startRun .hide s) (commandResult .hide s) := by
  obtain ⟨hk, hcap⟩ := precheck_hide_none hp
  have hexec : exec .hide s = .next (finish .ok (setBlue (embedFn s.grid (payload s.ibuf s.key)) s)) :=
    (if_neg hk).trans (if_neg (by simp [hcap]))
  have hn : (startRun .hide s).n = 0 := hck.n_zero
  have hrun := hide_runsTo hu rfl hop (startRun_hideOk hck hk ((overCapacity_false_iff _ _).1 hcap)) (accHolds_zero _ hn)
  rw [withBitsFrom_start hn] at hrun
  rw [commandResult_of_exec hexec]
  exact (hrun.congr rfl).mono (Nat.add_le_add_right (Nat.sub_le ..) 2)

theorem startRun_scan_runsTo {i : Instr} {s : State} (hi : i = .extract ∨ i = .reveal) (hu : Undisturbed (startRun i s))
    (hck : CheckOk s) (hop : (startRun i s).opl = opOf i) :
    RunsTo (2 * s.grid.pixCount + 3) (startRun i s) (commandResult i s) := by
  have hdest : destOf i = .obuf := by rcases hi with rfl | rfl <;> rfl
  have hview : outsideObuf (startRun i s) = outsideObuf s := by rcases hi with rfl | rfl <;> rfl
  have hgrid : (startRun i s).grid = s.grid := by rcases hi with rfl | rfl <;> rfl
  have hrun := scan_runsTo hi hu rfl hop (startRun_scanOk hck hdest)
  refine (hrun.congr (commandResult_scan_congr hi hview)).mono ?_
  rw [hgrid]
  omega

/-- A command whose preconditions hold runs from RUN to the command level's state. -/
theorem startRun_runsTo {i : Instr} {s : State} (hu : Undisturbed (startRun i s)) (hck : CheckOk s) (hop : s.opl = opOf i)
    (hp : precheck i s = none) :
    RunsTo (8 * (s.ilen + 3) + 2 * s.grid.pixCount + 3) (startRun i s) (commandResult i s) := by
  have hop' : (startRun i s).opl = opOf i := (startRun_keepsOperands i s).opl.trans hop
  cases i with
  | encrypt => exact (startRun_cipher_runsTo (.inl rfl) hu hck hop' hp).mono (by omega)
  | decrypt => exact (startRun_cipher_runsTo (.inr rfl) hu hck hop' hp).mono (by omega)
  | b2bits => exact (startRun_b2bits_runsTo hu hck hop').mono (by omega)
  | bits2b => exact (startRun_bits2b_runsTo hu hop' hp).mono (by omega)
  | embed => exact (startRun_embed_runsTo hu hck hop' hp).mono (by omega)
  | extract => exact (startRun_scan_runsTo (.inl rfl) hu hck hop').mono (by omega)
  | hide => exact (startRun_hide_runsTo hu hck hop' hp).mono (by omega)
  | reveal => exact (startRun_scan_runsTo (.inr rfl) hu hck hop').mono (by omega)

theorem issue_checkOk (c : Byte) (s : State) : CheckOk (issue c s) := ⟨rfl, rfl, rfl, rfl, rfl, rfl, rfl⟩

/-- R176 for one issued byte, with the bound of R171: the sequencer ends where the command level does. -/
theorem issue_runsTo {s : State} (hu : Undisturbed s) (c : Byte) :
    ∃ t, runCommand c s = .next t ∧ RunsTo (8 * (s.ilen + 3) + 2 * s.grid.pixCount + 4) (issue c s) t := by
  have hui : Undisturbed (issue c s) := hu
  have hcheck : coreStep (issue c s) = .next (checkStep (issue c s)) := rfl
  cases hd : decode c with
  | illegal why =>
    have hcore : checkStep (issue c s) = toDone .nowhere .illegalOperation (issue c s) := by
      simp only [checkStep, issue_cmd, hd]
    rw [hcore] at hcheck
    exact ⟨_, by rw [runCommand, hd], (runsTo_of_toDone hui hcheck).mono (by omega)⟩
  | command i =>
    refine ⟨commandResult i (issue c s), by rw [runCommand_of_decode s hd, exec_eq_commandResult], ?_⟩
    cases hp : precheck i (issue c s) with
    | some e =>
      have hcore : checkStep (issue c s) = toDone (destOf i) e (issue c s) := by
        simp only [checkStep, issue_cmd, hd, hp]
      rw [hcore] at hcheck
      rw [commandResult_of_exec (exec_of_precheck hp)]
      exact (runsTo_of_toDone hui hcheck).mono (by omega)
    | none =>
      have hcore : checkStep (issue c s) = startRun i (issue c s) := by
        simp only [checkStep, issue_cmd, hd, hp]
      rw [hcore] at hcheck
      exact runsTo_of_coreStep hui hcheck
        (startRun_runsTo (undisturbed_of_coreStep hui hcheck) (issue_checkOk c s) (cmdOp_of_decode hd) hp)

/-- Settles O58: both levels start at the state issued with the byte, from which the sequencer's loops end in what the command
level gives. -/
theorem stepLevelReachesTheCommandLevelState : Obligations.StepLevelReachesTheCommandLevelState := by
  intro s c hc hb
  have hu : Undisturbed { s with script := [] } := ⟨hc, rfl⟩
  obtain ⟨t, hcommand, k, u, -, hrun, hidle, hview⟩ := issue_runsTo hu c
  have hstep : step { s with script := [.writeReg 0 c] } = .next t :=
    (step_writeCmd (s := { s with script := [.writeReg 0 c] }) hc hb rfl).trans hcommand
  have hissue : step { s with script := [.issue c] } = .next (issue c { s with script := [] }) :=
    step_issue (s := { s with script := [.issue c] }) hc hb rfl
  exact ⟨t, hstep, k + 1, u, (run_next k hissue).trans hrun, hidle, hview⟩

end Sys2Proof.Machine

/-!
SUPPORT. Proofs of the statements of the state (10_state.md): what each step can change of the machine's state, what every step
keeps, and what the host's accesses read and write.
-/

namespace Sys2Proof.Machine

/-! ### What one move of the host can do -/

/-- The moves by which the host reads (R173, R174). -/
def isRead (m : HostMove) : Bool :=
  match m with
  | .readPixel _ _ | .readReg _ | .readObuf _ | .readBbuf _ => true
  | _ => false

/-- What the move `m` of the host, where it is not refused, makes of the state `s`: one constructor per kind of move (R100, R173,
R174, R200). -/
inductive HostMoved (s : State) : HostMove → State → Prop
  | loadIbuf (bs : List Byte) (idle : s.busy = false) : HostMoved s (.loadIbuf bs) { s with ibuf := bs }
  | loadKey (bs : List Byte) (idle : s.busy = false) : HostMoved s (.loadKey bs) { s with key := bs }
  | loadBbuf (bits : List Bit) (idle : s.busy = false) : HostMoved s (.loadBbuf bits) { s with bbuf := bits }
  | attachGrid {w h : Nat} {red green blue : List Byte} {alpha : Option (List Byte)} (idle : s.busy = false)
      (shape : gridShapeOk w h red green blue alpha = true) :
      HostMoved s (.attachGrid w h red green blue alpha) { s with grid := gridOf w h red green blue alpha }
  | writePixel {c : Channel} {n : Nat} {m : Memory} (v : Byte) (idle : s.busy = false) (pixel : n < s.grid.pixCount)
      (channel : channelOf s.grid c = some m) :
      HostMoved s (.writePixel c n v) { s with grid := withChannel s.grid c (memWrite m n v) }
  | read {m : HostMove} (v : Nat) (reads : isRead m = true) : HostMoved s m { s with seen := v :: s.seen }
  | command {c : Byte} {t : State} (idle : s.busy = false) (run : runCommand c s = .next t) : HostMoved s (.writeReg 0 c) t
  | issue (c : Byte) (idle : s.busy = false) : HostMoved s (.issue c) (Machine.issue c s)
  | wait {t : State} (core : coreStep s = .next t) : HostMoved s .wait t
  | reset : HostMoved s .reset (coreReset s)

theorem hostMove_next {m : HostMove} {s t : State} (h : hostMove m s = .next t) : HostMoved s m t := by
  cases m with
  | loadIbuf bs =>
    obtain ⟨hb, h⟩ := whileIdle_next h
    obtain ⟨-, rfl⟩ := loadIfFits_next h
    exact .loadIbuf bs hb
  | loadKey bs =>
    obtain ⟨hb, h⟩ := whileIdle_next h
    obtain ⟨-, rfl⟩ := loadIfFits_next h
    exact .loadKey bs hb
  | loadBbuf bits =>
    obtain ⟨hb, h⟩ := whileIdle_next h
    obtain ⟨-, rfl⟩ := loadIfFits_next h
    exact .loadBbuf bits hb
  | attachGrid w h' red green blue alpha =>
    obtain ⟨hb, h⟩ := whileIdle_next h
    obtain ⟨hshape, -, rfl⟩ := attach_next h
    exact .attachGrid hb hshape
  | readPixel c n =>
    obtain ⟨-, m, -, rfl⟩ := readPixel_next (whileIdle_next h).2
    exact .read _ rfl
  | writePixel c n v =>
    obtain ⟨hb, h⟩ := whileIdle_next h
    obtain ⟨hn, m, hm, rfl⟩ := writePixel_next h
    exact .writePixel v hb hn hm
  | readReg r =>
    obtain ⟨-, v, -, rfl⟩ := readRegister_next h
    exact .read _ rfl
  | readObuf k =>
    obtain ⟨v, -, rfl⟩ := readObufAt_next (whileIdle_next h).2
    exact .read _ rfl
  | readBbuf k =>
    obtain ⟨b, -, rfl⟩ := readBbufAt_next (whileIdle_next h).2
    exact .read _ rfl
  | writeReg r v =>
    obtain ⟨hb, h⟩ := whileIdle_next h
    obtain ⟨rfl, hrun⟩ := writeRegister_next h
    exact .command hb hrun
  | issue v =>
    obtain ⟨hb, h⟩ := whileIdle_next h
    cases h
    exact .issue v hb
  | wait => exact .wait h
  | reset =>
    cases h
    exact .reset

/-- A step is a step of the core, or what the host's next move makes of the state with that move taken off the script. -/
theorem step_moved {s t : State} (h : step s = .next t) :
    (s.script = [] ∧ coreStep s = .next t) ∨
      ∃ m rest, s.script = m :: rest ∧ HostMoved { s with script := rest } m t := by
  obtain ⟨-, hcore | ⟨m, rest, hs, hmove⟩⟩ := step_next h
  · exact .inl hcore
  · exact .inr ⟨m, rest, hs, hostMove_next hmove⟩

/-! ### IBUF and KEY -/

theorem exec_keeps_operands {i : Instr} {s t : State} (h : exec i s = .next t) : t.ibuf = s.ibuf ∧ t.key = s.key := by
  obtain ⟨e, u, hexec, shape⟩ := exec_shape i s
  cases hexec.symm.trans h
  rcases shape with ⟨-, o, rfl, -⟩ | ⟨-, -, rfl⟩ | ⟨-, -, p, -, rfl⟩ | ⟨-, -, rfl⟩ <;> exact ⟨rfl, rfl⟩

theorem runCommand_keeps_operands {c : Byte} {s t : State} (h : runCommand c s = .next t) :
    t.ibuf = s.ibuf ∧ t.key = s.key := by
  rcases runCommand_shape c s with ⟨i, -, hrun⟩ | ⟨why, -, hrun⟩
  · exact exec_keeps_operands (s := issue c s) (hrun.symm.trans h)
  · cases hrun.symm.trans h
    exact ⟨rfl, rfl⟩

/-- Settles O44: of all that a host move can do only the loads and the reset touch IBUF or KEY, and the core touches neither. -/
theorem onlyLoadsWriteIbufAndKey : Obligations.OnlyLoadsWriteIbufAndKey := by
  intro s t h
  have unchanged : t.ibuf = s.ibuf ∧ t.key = s.key →
      (t.ibuf ≠ s.ibuf → ∃ rest, (∃ bs, s.script = .loadIbuf bs :: rest) ∨ s.script = .reset :: rest) ∧
      (t.key ≠ s.key → ∃ rest, (∃ bs, s.script = .loadKey bs :: rest) ∨ s.script = .reset :: rest) :=
    fun ⟨hibuf, hkey⟩ => ⟨fun hne => absurd hibuf hne, fun hne => absurd hkey hne⟩
  rcases step_moved h with ⟨-, hcore⟩ | ⟨m, rest, hs, hmoved⟩
  · exact unchanged ⟨(coreStep_keepsOperands hcore).ibuf, (coreStep_keepsOperands hcore).key⟩
  · cases hmoved with
    | loadIbuf bs => exact ⟨fun _ => ⟨rest, .inl ⟨bs, hs⟩⟩, fun hne => absurd rfl hne⟩
    | loadKey bs => exact ⟨fun hne => absurd rfl hne, fun _ => ⟨rest, .inl ⟨bs, hs⟩⟩⟩
    | reset => exact ⟨fun _ => ⟨rest, .inr hs⟩, fun _ => ⟨rest, .inr hs⟩⟩
    | command _ hrun => exact unchanged (runCommand_keeps_operands (s := { s with script := rest }) hrun)
    | wait hcore => exact unchanged ⟨(coreStep_keepsOperands hcore).ibuf, (coreStep_keepsOperands hcore).key⟩
    | loadBbuf bits => exact unchanged ⟨rfl, rfl⟩
    | attachGrid _ _ => exact unchanged ⟨rfl, rfl⟩
    | writePixel v _ _ _ => exact unchanged ⟨rfl, rfl⟩
    | read v _ => exact unchanged ⟨rfl, rfl⟩
    | issue c => exact unchanged ⟨rfl, rfl⟩

/-! ### STATUS, OBUF and the working registers of an idle machine -/

theorem coreStep_idle {s : State} (h : s.ph = .idle) : coreStep s = .next s := by simp only [coreStep, h]

/-- Settles O43: an idle core waits, and every host move but the write of CMD, the issue and the reset writes an operand buffer,
the grid or the host's own fields alone. -/
theorem onlyIssueOrResetChangesStatusAndObuf : Obligations.OnlyIssueOrResetChangesStatusAndObuf := by
  intro s t _ hph h hother
  rcases step_moved h with ⟨-, hcore⟩ | ⟨m, rest, hs, hmoved⟩
  · cases (coreStep_idle hph).symm.trans hcore
    simp
  · obtain ⟨not_command, not_issue, not_reset⟩ := hother m rest hs
    cases hmoved with
    | command _ _ => exact absurd rfl (not_command _)
    | issue c => exact absurd rfl (not_issue c)
    | reset => exact absurd rfl not_reset
    | wait hcore =>
      cases (coreStep_idle (s := { s with script := rest }) hph).symm.trans hcore
      simp
    | loadIbuf bs => simp
    | loadKey bs => simp
    | loadBbuf bits => simp
    | attachGrid _ _ => simp
    | writePixel v _ _ _ => simp
    | read v _ => simp

/-! ### The grid -/

/-- `g'` is `g` with other LSBs in pixels of its blue channel: all that the core can change of a grid (R62, R133). -/
structure BlueLsbEdit (g g' : Grid) : Prop where
  only_blue : g' = { g with blue := g'.blue }
  high_bits : ∀ n k, 1 ≤ k → (memRead g'.blue n).getLsbD k = (memRead g.blue n).getLsbD k
  plane : g.blue.planeOf g.pixCount → g'.blue.planeOf g.pixCount

theorem BlueLsbEdit.refl (g : Grid) : BlueLsbEdit g g := ⟨rfl, fun _ _ _ => rfl, id⟩

theorem BlueLsbEdit.of_eq {g g' : Grid} (h : g' = g) : BlueLsbEdit g g' := h ▸ .refl g

theorem BlueLsbEdit.frame {g g' : Grid} (h : BlueLsbEdit g g') :
    g'.w = g.w ∧ g'.h = g.h ∧ g'.hasAlpha = g.hasAlpha ∧ g'.red = g.red ∧ g'.green = g.green ∧ g'.alpha = g.alpha := by
  rw [h.only_blue]
  simp

theorem BlueLsbEdit.wf {g g' : Grid} (h : BlueLsbEdit g g') (hg : g.wf) : g'.wf := by
  obtain ⟨red, green, blue, alpha, no_alpha⟩ := hg
  rw [h.only_blue]
  exact ⟨red, green, h.plane blue, alpha, no_alpha⟩

/-- Writing the LSB of one pixel (R132). -/
theorem blueLsbEdit_write {g : Grid} {n : Nat} (b : Bit) (hn : n < g.pixCount) :
    BlueLsbEdit g { g with blue := memWrite g.blue n (lsbWrite (memRead g.blue n) b) } where
  only_blue := rfl
  high_bits k j hj := by
    show (memRead (memWrite _ _ _) k).getLsbD j = _
    rw [memRead_memWrite]
    split
    · rename_i hk
      rw [lsbWrite_getLsbD, if_neg (by omega), hk]
    · rfl
  plane h := memWrite_planeOf _ h hn

/-- Embedding a payload that fits (R135). -/
theorem blueLsbEdit_embedFn {g : Grid} {p : List Byte} (hfit : 8 * p.length ≤ g.pixCount) :
    BlueLsbEdit g { g with blue := embedFn g p } where
  only_blue := rfl
  high_bits := embedFn_keeps_high_bits g p
  plane h := embedFn_planeOf h hfit

theorem exec_blueLsbEdit {i : Instr} {s t : State} (h : exec i s = .next t) : BlueLsbEdit s.grid t.grid := by
  obtain ⟨e, u, hexec, shape⟩ := exec_shape i s
  cases hexec.symm.trans h
  rcases shape with ⟨-, o, rfl, -⟩ | ⟨-, -, rfl⟩ | ⟨-, -, p, hfit, rfl⟩ | ⟨-, -, rfl⟩
  · exact .refl _
  · exact .refl _
  · exact blueLsbEdit_embedFn hfit
  · exact .refl _

theorem runCommand_blueLsbEdit {c : Byte} {s t : State} (h : runCommand c s = .next t) : BlueLsbEdit s.grid t.grid := by
  rcases runCommand_shape c s with ⟨i, -, hrun⟩ | ⟨why, -, hrun⟩
  · exact exec_blueLsbEdit (s := issue c s) (hrun.symm.trans h)
  · cases hrun.symm.trans h
    exact .refl _

theorem checkStep_grid (s : State) : (checkStep s).grid = s.grid := by
  rcases checkStep_cases s with ⟨d, e, -, h⟩ | ⟨i, -, -, h⟩
  · rw [h, toDone_grid]
  · rw [h]
    cases i <;> rfl

theorem pixelOut_blueLsbEdit {load : State → Option State} {bits : Nat} {s t : State}
    (hload : ∀ u, load s = some u → u.grid = s.grid) (h : pixelOut load bits s = .next t) : BlueLsbEdit s.grid t.grid := by
  rcases pixelOut_next h with ⟨-, u, hu, hshift⟩ | ⟨-, rfl⟩
  · obtain ⟨hn, rfl⟩ := shiftOut_next hshift
    exact hload u hu ▸ blueLsbEdit_write _ hn
  · exact .refl _

theorem loadEmbed_grid {s u : State} (h : loadEmbed s = some u) : u.grid = s.grid := by
  rcases loadEmbed_some h with ⟨-, v, -, rfl⟩ | ⟨-, rfl⟩ <;> rfl

theorem loadHide_grid {s u : State} (h : loadHide s = some u) : u.grid = s.grid := by
  rcases loadHide_some h with ⟨-, -, b, k, -, -, rfl⟩ | ⟨-, -, v, -, rfl⟩ | ⟨-, rfl⟩ <;> rfl

theorem pixelIn_grid {s t : State} (h : pixelIn s = .next t) : t.grid = s.grid := by
  obtain ⟨-, -, -, -, -, hgrid, -⟩ := pixelIn_frame h
  exact hgrid

theorem extractStep_grid {s t : State} (h : extractStep s = .next t) : t.grid = s.grid := by
  rcases extractStep_next h with ⟨-, rfl⟩ | ⟨-, hp⟩ | ⟨-, -, rfl⟩
  · rfl
  · exact pixelIn_grid hp
  · rfl

theorem revealStep_grid {s t : State} (h : revealStep s = .next t) : t.grid = s.grid := by
  rcases revealStep_next h with ⟨-, -, rfl⟩ | ⟨-, -, rfl⟩ | ⟨-, hp⟩ | ⟨-, -, rfl⟩
  · rfl
  · rfl
  · exact pixelIn_grid hp
  · rfl

theorem cipherStep_grid {s t : State} (h : cipherStep s = .next t) : t.grid = s.grid := by
  rcases cipherStep_next h with ⟨-, b, k, -, -, rfl⟩ | ⟨-, rfl⟩ <;> rfl

theorem b2bitsStep_grid {s t : State} (h : b2bitsStep s = .next t) : t.grid = s.grid := by
  rcases b2bitsStep_next h with ⟨-, b, r, a, c, -, -, rfl⟩ | ⟨-, rfl⟩ <;> rfl

theorem bits2bStep_grid {s t : State} (h : bits2bStep s = .next t) : t.grid = s.grid := by
  obtain ⟨-, rfl⟩ := bits2bStep_next h
  rfl

/-- The row RUN of the sequencer's table for the command `i` (R172). -/
def elementStep (i : Instr) (s : State) : Host.Outcome State Fault Refusal :=
  match i with
  | .encrypt => cipherStep s
  | .decrypt => cipherStep s
  | .b2bits => b2bitsStep s
  | .bits2b => bits2bStep s
  | .embed => pixelOut loadEmbed (8 * s.ilen) s
  | .extract => extractStep s
  | .hide => pixelOut loadHide (8 * (s.ilen + 3)) s
  | .reveal => revealStep s

theorem runStep_eq {s : State} {i : Instr} (hop : decodeOp s.opl = some i) : runStep s = elementStep i s := by
  rw [runStep, hop]
  cases i <;> rfl

/-- An element step is that of the command OPL holds. -/
theorem runStep_next {s t : State} (h : runStep s = .next t) :
    ∃ i, decodeOp s.opl = some i ∧ elementStep i s = .next t := by
  cases hop : decodeOp s.opl with
  | none =>
    rw [runStep, hop] at h
    cases h
  | some i => exact ⟨i, rfl, runStep_eq hop ▸ h⟩

/-- Only the element steps of EMBED and HIDE write the grid. -/
theorem runStep_blueLsbEdit {s t : State} (h : runStep s = .next t) : BlueLsbEdit s.grid t.grid := by
  obtain ⟨i, -, h⟩ := runStep_next h
  cases i with
  | encrypt => exact .of_eq (cipherStep_grid h)
  | decrypt => exact .of_eq (cipherStep_grid h)
  | b2bits => exact .of_eq (b2bitsStep_grid h)
  | bits2b => exact .of_eq (bits2bStep_grid h)
  | embed => exact pixelOut_blueLsbEdit (fun _ => loadEmbed_grid) h
  | extract => exact .of_eq (extractStep_grid h)
  | hide => exact pixelOut_blueLsbEdit (fun _ => loadHide_grid) h
  | reveal => exact .of_eq (revealStep_grid h)

theorem coreStep_blueLsbEdit {s t : State} (h : coreStep s = .next t) : BlueLsbEdit s.grid t.grid := by
  rcases coreStep_next h with ⟨-, rfl⟩ | ⟨-, rfl⟩ | ⟨-, hrun⟩ | ⟨-, hrun2⟩ | ⟨-, rfl⟩
  · exact .refl _
  · exact .of_eq (checkStep_grid s)
  · exact runStep_blueLsbEdit hrun
  · rcases run2Step_next hrun2 with ⟨-, ⟨-, b, k, -, -, rfl⟩ | ⟨-, rfl⟩⟩
    · exact .refl _
    · exact .refl _
  · exact .refl _

/-- What a host move can do to the grid: attach another one, write a pixel of a channel, or let the core write blue LSBs. -/
theorem hostMoved_grid {m : HostMove} {s t : State} (h : HostMoved s m t) :
    BlueLsbEdit s.grid t.grid ∨
    (∃ w h red green blue alpha, m = .attachGrid w h red green blue alpha ∧
      gridShapeOk w h red green blue alpha = true ∧ t.grid = gridOf w h red green blue alpha) ∨
    (∃ c n v p, m = .writePixel c n v ∧ n < s.grid.pixCount ∧ channelOf s.grid c = some p ∧
      t.grid = withChannel s.grid c (memWrite p n v)) := by
  cases h with
  | attachGrid _ shape => exact .inr (.inl ⟨_, _, _, _, _, _, rfl, shape, rfl⟩)
  | writePixel v _ pixel channel => exact .inr (.inr ⟨_, _, v, _, rfl, pixel, channel, rfl⟩)
  | command _ hrun => exact .inl (runCommand_blueLsbEdit hrun)
  | wait hcore => exact .inl (coreStep_blueLsbEdit hcore)
  | loadIbuf bs => exact .inl (.refl _)
  | loadKey bs => exact .inl (.refl _)
  | loadBbuf bits => exact .inl (.refl _)
  | read v _ => exact .inl (.refl _)
  | issue c => exact .inl (.refl _)
  | reset => exact .inl (.refl _)

/-- Settles O45: where the host does not edit the grid itself, what a step can do to it is to write blue LSBs. -/
theorem coreChangesOnlyBlueLsbs : Obligations.CoreChangesOnlyBlueLsbs := by
  intro s t h hother
  have hedit : BlueLsbEdit s.grid t.grid := by
    rcases step_moved h with ⟨-, hcore⟩ | ⟨m, rest, hs, hmoved⟩
    · exact coreStep_blueLsbEdit hcore
    · obtain ⟨not_attach, not_write⟩ := hother m rest hs
      rcases hostMoved_grid hmoved with hedit | ⟨w, h, red, green, blue, alpha, hm, -⟩ | ⟨c, n, v, p, hm, -⟩
      · exact hedit
      · exact absurd hm (not_attach w h red green blue alpha)
      · exact absurd hm (not_write c n v)
  obtain ⟨hw, hh, hasAlpha, hred, hgreen, halpha⟩ := hedit.frame
  exact ⟨hw, hh, hasAlpha, hred, hgreen, halpha, hedit.high_bits⟩

/-- A grid of the shape the attach asks for is well formed (R202). -/
theorem gridOf_wf {w h : Nat} {red green blue : List Byte} {alpha : Option (List Byte)}
    (hshape : gridShapeOk w h red green blue alpha = true) : (gridOf w h red green blue alpha).wf := by
  obtain ⟨hr, hg, hb, ha⟩ := (gridShapeOk_iff ..).1 hshape
  have plane : ∀ {vs : List Byte}, vs.length = w * h → (memOfList 0 vs).planeOf (w * h) := fun hlen =>
    hlen ▸ memOfList_planeOf _
  refine ⟨plane hr, plane hg, plane hb, ?_, ?_⟩
  · cases alpha with
    | none => exact ⟨⟨.nil, by simp [gridOf, memOfList]⟩, by simp [gridOf, memOfList]⟩
    | some a => exact plane (ha a rfl)
  · intro hno
    cases alpha with
    | none => rfl
    | some a => cases hno

/-- A pixel written in a channel the grid has keeps it well formed. -/
theorem withChannel_wf {g : Grid} {c : Channel} {m : Memory} {n : Nat} (v : Byte) (hg : g.wf) (hn : n < g.pixCount)
    (hc : channelOf g c = some m) : (withChannel g c (memWrite m n v)).wf := by
  obtain ⟨red, green, blue, alpha, no_alpha⟩ := hg
  cases c with
  | red =>
    cases hc
    exact ⟨memWrite_planeOf v red hn, green, blue, alpha, no_alpha⟩
  | green =>
    cases hc
    exact ⟨red, memWrite_planeOf v green hn, blue, alpha, no_alpha⟩
  | blue =>
    cases hc
    exact ⟨red, green, memWrite_planeOf v blue hn, alpha, no_alpha⟩
  | alpha =>
    simp only [channelOf] at hc
    split at hc <;> cases hc
    rename_i has_alpha
    refine ⟨red, green, blue, memWrite_planeOf v alpha hn, fun hno => ?_⟩
    exact absurd has_alpha (by simpa [withChannel] using hno)

theorem hostMoved_grid_wf {m : HostMove} {s t : State} (h : HostMoved s m t) (hg : s.grid.wf) : t.grid.wf := by
  rcases hostMoved_grid h with hedit | ⟨w, h, red, green, blue, alpha, -, hshape, ht⟩ | ⟨c, n, v, p, -, hn, hp, ht⟩
  · exact hedit.wf hg
  · exact ht ▸ gridOf_wf hshape
  · exact ht ▸ withChannel_wf v hg hn hp

/-- Settles O46: the core writes LSBs of pixels the grid has, and the host attaches well-formed grids and writes pixels of
channels the grid has. -/
theorem stepKeepsGridCanonical : Obligations.StepKeepsGridCanonical := by
  intro s t hg h
  rcases step_moved h with ⟨-, hcore⟩ | ⟨m, rest, -, hmoved⟩
  · exact (coreStep_blueLsbEdit hcore).wf hg
  · exact hostMoved_grid_wf hmoved hg

end Sys2Proof.Machine

namespace Sys2Proof.Machine

/-! ### The machine invariant -/

theorem statusOk_finish (e : ErrCode) (s : State) : StatusOk (finish e s) :=
  ⟨finish_busy e s, finish_rsv e s, by simpa using errNumber_le e⟩

theorem statusOk_toDone (d : Dest) (e : ErrCode) (s : State) : StatusOk (toDone d e s) :=
  ⟨toDone_busy d e s, toDone_rsv d e s, by simpa using errNumber_le e⟩

theorem statusOk_issue (c : Byte) (s : State) : StatusOk (issue c s) :=
  ⟨issue_busy c s, issue_rsv c s, by simp⟩

theorem statusOk_coreReset (s : State) : StatusOk (coreReset s) :=
  ⟨(by decide : (0x00#8 : Byte).getLsbD 7 = false), (by decide : (0x00#8 : Byte).extractLsb' 3 4 = 0#4), Nat.zero_le 4⟩

/-- STATUS stays good while it stays as it is and the machine neither starts nor stops being idle. -/
theorem statusOk_congr {s t : State} (h : StatusOk s) (hstatus : t.status = s.status) (hidle : t.ph = .idle ↔ s.ph = .idle) :
    StatusOk t where
  busy_iff_not_idle := by
    rw [State.busy, hstatus, decide_eq_decide.2 (not_congr hidle)]
    exact h.busy_iff_not_idle
  rsv_zero := by
    rw [State.statusRsv, hstatus]
    exact h.rsv_zero
  err_listed := by
    rw [State.err, hstatus]
    exact h.err_listed

theorem statusOk_of_running {s t : State} (h : StatusOk s) (hs : s.ph ≠ .idle) (ht : t.ph ≠ .idle)
    (hstatus : t.status = s.status) : StatusOk t :=
  statusOk_congr h hstatus (iff_of_false ht hs)

theorem ph_idle_of_not_busy {s : State} (h : StatusOk s) (hb : s.busy = false) : s.ph = .idle := by
  simpa [hb] using h.busy_iff_not_idle

/-- What the invariant asks of the working registers in the phase `p`. -/
def PhaseOk (p : Phase) (s : State) : Prop :=
  match p with
  | .idle => True
  | .check => CheckOk s
  | .run => RunOk s
  | .run2 => Run2Ok s
  | .done => True

theorem inv_of_phase {s : State} {p : Phase} (hph : s.ph = p) (hstatus : StatusOk s)
    (hopl : p ≠ .idle → s.opl = cmdOp s.cmd) (hgrid : s.grid.wf) (hphase : PhaseOk p s) : Inv s where
  status := hstatus
  opl h := hopl (hph ▸ h)
  grid := hgrid
  check h := by
    obtain rfl := hph.symm.trans h
    exact hphase
  run h := by
    obtain rfl := hph.symm.trans h
    exact hphase
  run2 h := by
    obtain rfl := hph.symm.trans h
    exact hphase

theorem inv_of_idle {s : State} (hph : s.ph = .idle) (hstatus : StatusOk s) (hgrid : s.grid.wf) : Inv s :=
  inv_of_phase hph hstatus (fun h => absurd rfl h) hgrid trivial

theorem inv_toDone {d : Dest} {e : ErrCode} {s : State} (hopl : (toDone d e s).opl = cmdOp (toDone d e s).cmd)
    (hgrid : (toDone d e s).grid.wf) : Inv (toDone d e s) :=
  inv_of_phase (toDone_ph d e s) (statusOk_toDone d e s) (fun _ => hopl) hgrid trivial

/-- Settles O47: the reset state is idle and its grid has no pixel. -/
theorem invariantHoldsAtReset : Obligations.InvariantHoldsAtReset :=
  inv_of_idle rfl (statusOk_coreReset State.reset) (by decide)

/-- Settles O32, field by field, and the last clause because an idle core without a host move waits. -/
theorem resetStateHoldsTheListedValues : Obligations.ResetStateHoldsTheListedValues := by
  have waits : step State.reset = .next State.reset :=
    (step_nil (fun c hc => by simp [State.reset] at hc) rfl).trans (coreStep_idle rfl)
  exact ⟨rfl, rfl, rfl, rfl, rfl, rfl, rfl, rfl, rfl, rfl, rfl, rfl, rfl, rfl, rfl, rfl, waits⟩

/-- The loop invariant of the command `i`. -/
def LoopOk (i : Instr) (s : State) : Prop :=
  match i with
  | .encrypt => CipherOk s
  | .decrypt => CipherOk s
  | .b2bits => B2bitsOk s
  | .bits2b => s.blen = 8
  | .embed => EmbedOk s
  | .extract => ScanOk s
  | .hide => HideOk s
  | .reveal => ScanOk s

/-- RUN's invariant is the loop invariant of the command that OPL holds. -/
theorem runOk_iff {s : State} {i : Instr} (hop : decodeOp s.opl = some i) : RunOk s ↔ LoopOk i s := by
  unfold RunOk
  rw [hop]
  cases i <;> rfl

/-- No loop invariant speaks of what the host has read. -/
theorem loopOk_withSeen {i : Instr} {s : State} (seen : List Nat) (h : LoopOk i s) : LoopOk i { s with seen := seen } := by
  cases i with
  | encrypt => exact ⟨h.key_nonempty, h.i_le, h.kidx_eq, h.out_eq⟩
  | decrypt => exact ⟨h.key_nonempty, h.i_le, h.kidx_eq, h.out_eq⟩
  | b2bits => exact ⟨h.i_le, h.out_eq, h.acc_zero, h.bcnt_zero⟩
  | bits2b => exact h
  | embed => exact ⟨h.fits, h.n_le, h.bcnt_eq⟩
  | extract => exact ⟨h.n_le, h.bcnt_eq, h.qlen_eq, h.i_eq, h.bytes_eq, h.acc_bits, h.no_match_before⟩
  | hide => exact ⟨h.key_nonempty, h.fits, h.n_le, h.bcnt_eq, h.i_eq, h.kidx_eq⟩
  | reveal => exact ⟨h.n_le, h.bcnt_eq, h.qlen_eq, h.i_eq, h.bytes_eq, h.acc_bits, h.no_match_before⟩

theorem runOk_decodes {s : State} (h : RunOk s) : ∃ i, decodeOp s.opl = some i := by
  unfold RunOk at h
  cases hop : decodeOp s.opl with
  | none =>
    rw [hop] at h
    exact h.elim
  | some i => exact ⟨i, rfl⟩

/-- A read keeps the invariant, also the read of STATUS that R206 allows during a command. -/
theorem inv_withSeen {s : State} (seen : List Nat) (h : Inv s) : Inv { s with seen := seen } where
  status := ⟨h.status.busy_iff_not_idle, h.status.rsv_zero, h.status.err_listed⟩
  opl := h.opl
  grid := h.grid
  check hph :=
    have hc := h.check hph
    ⟨hc.n_zero, hc.i_zero, hc.kidx_zero, hc.acc_zero, hc.bcnt_zero, hc.qlen_zero, hc.result_empty⟩
  run hph := by
    obtain ⟨i, hop⟩ := runOk_decodes (h.run hph)
    exact (runOk_iff (s := { s with seen := seen }) hop).2 (loopOk_withSeen seen ((runOk_iff hop).1 (h.run hph)))
  run2 hph :=
    have hr := h.run2 hph
    ⟨hr.opl_reveal, hr.key_nonempty, hr.i_le, hr.kidx_eq, hr.out_eq⟩

/-- CHECK to RUN establishes the loop invariant of the command (R172). -/
theorem startRun_runOk {i : Instr} {s : State} (hck : CheckOk s) (hop : s.opl = opOf i) (hp : precheck i s = none) :
    RunOk (startRun i s) := by
  have hop' : decodeOp (startRun i s).opl = some i := by
    rw [(startRun_keepsOperands i s).opl, hop, decodeOp_opOf]
  rw [runOk_iff hop']
  cases i with
  | encrypt => exact startRun_cipherOk hck rfl (by simpa [precheck] using hp)
  | decrypt => exact startRun_cipherOk hck rfl (by simpa [precheck] using hp)
  | b2bits => exact startRun_b2bitsOk hck
  | bits2b => exact (by simpa [precheck] using hp : s.blen = 8)
  | embed =>
    have hcap : overCapacity s.grid s.ilen = false := by simpa [precheck] using hp
    exact startRun_embedOk hck ((overCapacity_false_iff _ _).1 hcap)
  | extract => exact startRun_scanOk hck rfl
  | hide =>
    obtain ⟨hk, hcap⟩ := precheck_hide_none hp
    exact startRun_hideOk hck hk ((overCapacity_false_iff _ _).1 hcap)
  | reveal => exact startRun_scanOk hck rfl

/-- What one element step leaves of the invariant of RUN: it ends the command, stays in RUN with the loop invariant kept, or
enters RUN2 with that phase's invariant established. -/
inductive RunStepOk (s t : State) : Prop
  | ends (d : Dest) (e : ErrCode) (u : State) (eq : t = toDone d e u)
  | stays (status : t.status = s.status) (ph : t.ph = .run) (ok : RunOk t)
  | deciphers (status : t.status = s.status) (ph : t.ph = .run2) (ok : Run2Ok t)

theorem cipherStep_ok {s t : State} (hph : s.ph = .run) (hok : CipherOk s) (h : cipherStep s = .next t)
    (hloop : CipherOk t → RunOk t) : RunStepOk s t := by
  rcases Nat.lt_or_ge s.i s.ilen with hi | hi
  · obtain ⟨o, k, hstep, hok'⟩ := cipherStep_advances hok hi
    cases hstep.symm.trans h
    exact .stays rfl hph (hloop hok')
  · cases (cipherStep_ends hi).symm.trans h
    exact .ends _ _ _ rfl

theorem b2bitsStep_ok {s t : State} (hph : s.ph = .run) (hok : B2bitsOk s) (h : b2bitsStep s = .next t)
    (hloop : B2bitsOk t → RunOk t) : RunStepOk s t := by
  rcases Nat.lt_or_ge s.i s.ilen with hi | hi
  · obtain ⟨r, hstep, hok'⟩ := b2bitsStep_advances hok hi
    cases hstep.symm.trans h
    exact .stays rfl hph (hloop hok')
  · cases (b2bitsStep_ends hi).symm.trans h
    exact .ends _ _ _ rfl

theorem embedStep_ok {s t : State} (hph : s.ph = .run) (hok : EmbedOk s)
    (h : pixelOut loadEmbed (8 * s.ilen) s = .next t) (hloop : EmbedOk t → RunOk t) : RunStepOk s t := by
  rcases Nat.lt_or_ge s.n (8 * s.ilen) with hn | hn
  · obtain ⟨v, hstep, -, hok'⟩ := pixelOut_embed_advances hok hn
    cases hstep.symm.trans h
    exact .stays rfl hph (hloop hok')
  · cases (pixelOut_ends hn).symm.trans h
    exact .ends _ _ _ rfl

theorem hideStep_ok {s t : State} (hph : s.ph = .run) (hok : HideOk s)
    (h : pixelOut loadHide (8 * (s.ilen + 3)) s = .next t) (hloop : HideOk t → RunOk t) : RunStepOk s t := by
  rcases Nat.lt_or_ge s.n (8 * (s.ilen + 3)) with hn | hn
  · obtain ⟨v, k, j, hstep, -, hok'⟩ := pixelOut_hide_advances hok hn
    cases hstep.symm.trans h
    exact .stays rfl hph (hloop hok')
  · cases (pixelOut_ends hn).symm.trans h
    exact .ends _ _ _ rfl

theorem pixelIn_ok {s t : State} (hph : s.ph = .run) (hok : ScanOk s) (hf : found s = false) (h : pixelIn s = .next t)
    (hloop : ScanOk t → RunOk t) : RunStepOk s t := by
  obtain ⟨-, hstatus, -, -, -, -, hph', -⟩ := pixelIn_frame h
  exact .stays hstatus (hph'.trans hph) (hloop (pixelIn_scanOk hok hf h))

theorem extractStep_ok {s t : State} (hph : s.ph = .run) (hok : ScanOk s) (h : extractStep s = .next t)
    (hloop : ScanOk t → RunOk t) : RunStepOk s t := by
  rcases extractStep_next h with ⟨-, rfl⟩ | ⟨hf, hp⟩ | ⟨-, -, rfl⟩
  · exact .ends _ _ _ rfl
  · exact pixelIn_ok hph hok hf hp hloop
  · exact .ends _ _ _ rfl

theorem revealStep_ok {s t : State} (hph : s.ph = .run) (hop : s.opl = opOf .reveal) (hok : ScanOk s)
    (h : revealStep s = .next t) (hloop : ScanOk t → RunOk t) : RunStepOk s t := by
  rcases revealStep_next h with ⟨-, -, rfl⟩ | ⟨hf, hk, rfl⟩ | ⟨hf, hp⟩ | ⟨-, -, rfl⟩
  · exact .ends _ _ _ rfl
  · exact .deciphers rfl rfl (run2Ok_of_found hok hf hop hk)
  · exact pixelIn_ok hph hok hf hp hloop
  · exact .ends _ _ _ rfl

theorem runStep_ok {s t : State} (hph : s.ph = .run) (hok : RunOk s) (h : runStep s = .next t) : RunStepOk s t := by
  have hopl := (runStep_keepsOperands h).opl
  obtain ⟨i, hop, h⟩ := runStep_next h
  have hloop := (runOk_iff (s := t) (hopl ▸ hop)).2
  rw [runOk_iff hop] at hok
  cases i with
  | encrypt => exact cipherStep_ok hph hok h hloop
  | decrypt => exact cipherStep_ok hph hok h hloop
  | b2bits => exact b2bitsStep_ok hph hok h hloop
  | bits2b =>
    obtain ⟨-, rfl⟩ := bits2bStep_next h
    exact .ends _ _ _ rfl
  | embed => exact embedStep_ok hph hok h hloop
  | extract => exact extractStep_ok hph hok h hloop
  | hide => exact hideStep_ok hph hok h hloop
  | reveal => exact revealStep_ok hph (opOf_of_decodeOp hop) hok h hloop

theorem checkStep_inv {s : State} (hinv : Inv s) (hph : s.ph = .check) : Inv (checkStep s) := by
  have hkeep := checkStep_keepsOperands s
  have hne : s.ph ≠ .idle := by simp [hph]
  have hopl : (checkStep s).opl = cmdOp (checkStep s).cmd := by rw [hkeep.opl, hkeep.cmd, hinv.opl hne]
  have hgrid : (checkStep s).grid.wf := checkStep_grid s ▸ hinv.grid
  rcases checkStep_cases s with ⟨d, e, -, h⟩ | ⟨i, hd, hp, h⟩
  · rw [h] at hopl hgrid ⊢
    exact inv_toDone hopl hgrid
  · have hop : s.opl = opOf i := (hinv.opl hne).trans (cmdOp_of_decode hd)
    have hstatus : (startRun i s).status = s.status := by cases i <;> rfl
    rw [h] at hopl hgrid ⊢
    exact inv_of_phase (p := .run) rfl (statusOk_of_running hinv.status hne nofun hstatus) (fun _ => hopl) hgrid
      (startRun_runOk (hinv.check hph) hop hp)

theorem runStep_inv {s t : State} (hinv : Inv s) (hph : s.ph = .run) (h : runStep s = .next t) : Inv t := by
  have hkeep := runStep_keepsOperands h
  have hne : s.ph ≠ .idle := by simp [hph]
  have hopl : t.opl = cmdOp t.cmd := by rw [hkeep.opl, hkeep.cmd, hinv.opl hne]
  have hgrid : t.grid.wf := (runStep_blueLsbEdit h).wf hinv.grid
  cases runStep_ok hph (hinv.run hph) h with
  | ends d e u eq =>
    subst eq
    exact inv_toDone hopl hgrid
  | stays hstatus hph' hok =>
    exact inv_of_phase hph' (statusOk_of_running hinv.status hne (by simp [hph']) hstatus) (fun _ => hopl) hgrid hok
  | deciphers hstatus hph' hok =>
    exact inv_of_phase hph' (statusOk_of_running hinv.status hne (by simp [hph']) hstatus) (fun _ => hopl) hgrid hok

theorem run2Step_inv {s t : State} (hinv : Inv s) (hph : s.ph = .run2) (h : run2Step s = .next t) : Inv t := by
  have hne : s.ph ≠ .idle := by simp [hph]
  rcases Nat.lt_or_ge s.i s.olen with hi | hi
  · obtain ⟨o, k, hstep, -, hok'⟩ := run2Step_advances (hinv.run2 hph) hi
    cases hstep.symm.trans h
    exact inv_of_phase hph (statusOk_of_running hinv.status hne hne rfl) (fun _ => hinv.opl hne) hinv.grid hok'
  · cases (run2Step_ends (hinv.run2 hph) hi).symm.trans h
    exact inv_toDone (hinv.opl hne) hinv.grid

theorem doneStep_inv {s : State} (hinv : Inv s) : Inv (doneStep s) :=
  inv_of_idle (doneStep_ph s)
    ⟨doneStep_busy s, doneStep_rsv s, (doneStep_err s).symm ▸ hinv.status.err_listed⟩ hinv.grid

/-- Every row of the sequencer's table keeps the invariant (R172). -/
theorem coreStep_inv {s t : State} (hinv : Inv s) (h : coreStep s = .next t) : Inv t := by
  rcases coreStep_next h with ⟨-, rfl⟩ | ⟨hph, rfl⟩ | ⟨hph, hrun⟩ | ⟨hph, hrun2⟩ | ⟨-, rfl⟩
  · exact hinv
  · exact checkStep_inv hinv hph
  · exact runStep_inv hinv hph hrun
  · exact run2Step_inv hinv hph hrun2
  · exact doneStep_inv hinv

/-- A command completes (R171), so that the machine is idle behind it with STATUS as R22 has it. -/
theorem runCommand_finishes {c : Byte} {s t : State} (h : runCommand c s = .next t) : ∃ e u, t = finish e u := by
  rcases runCommand_shape c s with ⟨i, -, hrun⟩ | ⟨why, -, hrun⟩
  · obtain ⟨e, u, hexec, -⟩ := exec_shape i (issue c s)
    cases (hrun.trans hexec).symm.trans h
    exact ⟨e, u, rfl⟩
  · cases hrun.symm.trans h
    exact ⟨_, _, rfl⟩

/-- Every move of the host keeps the invariant: loads and pixel writes find the machine idle and leave it idle, a read changes
nothing the invariant speaks of, an issue puts the machine in CHECK with its registers initialised, and a whole command or a
reset ends idle. -/
theorem hostMoved_inv {m : HostMove} {s t : State} (hinv : Inv s) (h : HostMoved s m t) : Inv t := by
  have hgrid : t.grid.wf := hostMoved_grid_wf h hinv.grid
  have still_idle : s.busy = false → t.status = s.status → t.ph = s.ph → Inv t := fun hb hstatus hph =>
    inv_of_idle (hph.trans (ph_idle_of_not_busy hinv.status hb)) (statusOk_congr hinv.status hstatus (by rw [hph])) hgrid
  cases h with
  | loadIbuf bs hb => exact still_idle hb rfl rfl
  | loadKey bs hb => exact still_idle hb rfl rfl
  | loadBbuf bits hb => exact still_idle hb rfl rfl
  | attachGrid hb _ => exact still_idle hb rfl rfl
  | writePixel v hb _ _ => exact still_idle hb rfl rfl
  | read v _ => exact inv_withSeen _ hinv
  | command _ hrun =>
    obtain ⟨e, u, rfl⟩ := runCommand_finishes hrun
    exact inv_of_idle rfl (statusOk_finish e u) hgrid
  | issue c _ => exact inv_of_phase (p := .check) rfl (statusOk_issue c s) (fun _ => rfl) hgrid (issue_checkOk c s)
  | wait hcore => exact coreStep_inv hinv hcore
  | reset => exact inv_of_idle rfl (statusOk_coreReset s) hgrid

/-- Settles O48: the sequencer keeps the invariant phase by phase, and so does every move of the host. -/
theorem stepKeepsInvariant : Obligations.StepKeepsInvariant := by
  intro s t hinv h
  rcases step_moved h with ⟨-, hcore⟩ | ⟨m, rest, -, hmoved⟩
  · exact coreStep_inv hinv hcore
  · exact hostMoved_inv (inv_withScript rest hinv) hmoved

end Sys2Proof.Machine

namespace Sys2Proof.Machine

/-! ### Single steps of the sequencer's loops -/

theorem coreStep_run2 {s : State} (h : s.ph = .run2) : coreStep s = run2Step s := by simp only [coreStep, h]

theorem coreStep_of_opl {s : State} (i : Instr) (hph : s.ph = .run) (hop : s.opl = opOf i) :
    coreStep s = elementStep i s := by
  rw [coreStep_run hph, runStep_eq (hop ▸ decodeOp_opOf i)]

/-- Settles O52: the byte step of the two ciphering commands, and what the loop invariant says when it ends. -/
theorem cipherByteStepKeepsKeystreamIndex : Obligations.CipherByteStepKeepsKeystreamIndex := by
  intro s hph hop hok
  have hcore : coreStep s = cipherStep s := by
    rcases hop with hop | hop
    · exact coreStep_of_opl .encrypt hph hop
    · exact coreStep_of_opl .decrypt hph hop
  rw [hcore]
  refine ⟨fun hi => ?advances, fun hi => ?ends⟩
  case advances =>
    obtain ⟨o, k, hstep, hok'⟩ := cipherStep_advances hok hi
    exact ⟨_, hstep, hph, rfl, hok'⟩
  case ends =>
    refine ⟨_, cipherStep_ends hi.ge, rfl, toDone_err _ _ s, ?_⟩
    show s.obuf = _
    rw [hok.out_eq, List.take_of_length_le hi.ge]

theorem afterPixelOut_blue (v : Byte) (kidx i k : Nat) (s : State) :
    memRead (afterPixelOut v kidx i s).grid.blue k =
      if k = s.n then lsbWrite (memRead s.grid.blue s.n) (v.getLsbD 7) else memRead s.grid.blue k :=
  memRead_memWrite ..

/-- The payload of HIDE holds the ciphertext at each index below ILEN (R160). -/
theorem payload_getD_of_lt {m : List Byte} (p : List Byte) {j : Nat} (hj : j < m.length) :
    (payload m p).getD j 0x00#8 = m.getD j 0x00#8 ^^^ p.getD (j % p.length) 0x00#8 := by
  rw [payload, List.getD_eq_getElem?_getD, List.getElem?_append_left (by rwa [xorStream_length]), xorStream_getElem?,
    List.getElem?_eq_getElem hj, List.getD_eq_getElem _ _ hj]
  rfl

/-- The payload of HIDE holds the terminator from index ILEN on: two zero bytes and 0x03 (R160). -/
theorem payload_getD_of_ge {m : List Byte} (p : List Byte) {j : Nat} (hj : m.length ≤ j) :
    (payload m p).getD j 0x00#8 = if j = m.length + 2 then 0x03#8 else 0x00#8 := by
  obtain ⟨d, rfl⟩ := Nat.exists_eq_add_of_le hj
  rw [payload, List.getD_eq_getElem?_getD, List.getElem?_append_right (by rw [xorStream_length]; exact hj),
    xorStream_length, Nat.add_sub_cancel_left]
  rcases d with _ | _ | _ | d <;> simp [term]

/-- Settles O54: both commands' pixel step is `afterPixelOut` of the byte their load gives. -/
theorem pixelOutStepWritesPixelN : Obligations.PixelOutStepWritesPixelN := by
  intro s bits hph hcmd
  rcases hcmd with ⟨hop, hok, rfl⟩ | ⟨hop, hok, rfl⟩
  case inl =>
    have hcore : coreStep s = pixelOut loadEmbed (8 * s.ilen) s := coreStep_of_opl .embed hph hop
    have not_hide : s.opl ≠ 0x7#4 := by simp [hop]
    rw [hcore]
    refine ⟨fun hn => ?_, fun hn => ⟨_, pixelOut_ends hn.ge, rfl, toDone_err _ _ s, rfl⟩⟩
    obtain ⟨v, hstep, ⟨load, keep⟩, hok'⟩ := pixelOut_embed_advances hok hn
    refine ⟨_, hstep, hph, rfl, hok'.bcnt_eq, fun _ => hok', fun h => absurd h not_hide,
      fun k hk => (afterPixelOut_blue ..).trans (if_neg hk), v, rfl, (afterPixelOut_blue ..).trans (if_pos rfl), keep,
      fun h0 _ => load h0, fun _ h => absurd h not_hide, fun _ h => absurd h not_hide⟩
  case inr =>
    have hcore : coreStep s = pixelOut loadHide (8 * (s.ilen + 3)) s := coreStep_of_opl .hide hph hop
    have not_embed : s.opl ≠ 0x5#4 := by simp [hop]
    rw [hcore]
    refine ⟨fun hn => ?_, fun hn => ⟨_, pixelOut_ends hn.ge, rfl, toDone_err _ _ s, rfl⟩⟩
    obtain ⟨v, k, j, hstep, ⟨load, keep⟩, hok'⟩ := pixelOut_hide_advances hok hn
    exact ⟨_, hstep, hph, rfl, hok'.bcnt_eq, fun h => absurd h not_embed, fun _ => hok',
      fun k hk => (afterPixelOut_blue ..).trans (if_neg hk), v, rfl, (afterPixelOut_blue ..).trans (if_pos rfl), keep,
      fun _ h => absurd h not_embed, fun h0 _ hj => (load h0).trans (payload_getD_of_lt s.key hj),
      fun h0 _ hj => (load h0).trans (payload_getD_of_ge s.key hj)⟩

/-- Settles O57: the byte step of RUN2 with the OBUF it writes named, and what the invariant says when it ends. -/
theorem revealSecondPhaseDeciphersInPlace : Obligations.RevealSecondPhaseDeciphersInPlace := by
  intro s hph hok
  rw [coreStep_run2 hph]
  refine ⟨fun hi => ?advances, fun hi => ⟨run2Step_ends hok hi.ge, run2Ok_deciphered hok hi.ge⟩⟩
  case advances =>
    obtain ⟨o, k, hstep, hlen, hok'⟩ := run2Step_advances hok hi
    obtain rfl : k = (s.i + 1) % s.key.length := hok'.kidx_eq
    refine ⟨o, hstep, hlen, fun j => ?_, hok'⟩
    obtain ⟨-, ⟨-, b, q, hb, hq, ht⟩ | ⟨hge, -⟩⟩ := run2Step_next hstep
    · obtain rfl : o = s.obuf.set s.i (b ^^^ q) := congrArg State.obuf ht
      rw [List.getD_eq_getElem?_getD, List.getElem?_set]
      by_cases hj : j = s.i
      · subst hj
        simp only [if_true, hi, List.getD_eq_getElem?_getD, hb, hq, Option.getD_some]
      · simp [List.getD_eq_getElem?_getD, hj, Ne.symm hj]
    · exact absurd hi (Nat.not_lt.2 hge)

end Sys2Proof.Machine

namespace Sys2Proof.Machine

/-! ### A message in two pieces -/

/-- The keystream starts again at every multiple of KLEN (R26, R205). -/
theorem xorFrom_aligned {p : List Byte} {pos : Nat} (h : pos % p.length = 0) (bs : List Byte) :
    xorFrom p pos bs = xorStream bs p := by
  apply List.ext_getElem?
  intro k
  rw [xorFrom_getElem?, xorStream_getElem?, Nat.add_mod, h, Nat.zero_add, Nat.mod_mod]

/-- Settles O9: the second piece is ciphered from the start of the password, where the whole is at that point too. -/
theorem alignedPiecesCipherAsTheWhole : Obligations.AlignedPiecesCipherAsTheWhole := by
  intro s a b hkey hibuf haligned
  have hk : s.klen ≠ 0 := fun h => hkey (List.length_eq_zero_iff.1 h)
  refine ⟨_, _, _, exec_cipher hk, exec_cipher (s := { s with ibuf := a }) hk, exec_cipher (s := { s with ibuf := b }) hk, ?_⟩
  show xorStream s.ibuf s.key = xorStream a s.key ++ xorStream b s.key
  rw [hibuf, xorStream, xorFrom_append, Nat.zero_add, xorFrom_aligned haligned]
  rfl

/-! ### What a command reads -/

/-- The scan's result depends on the grid's dimensions and blue channel alone (R203). -/
theorem extractFn_congr {g g' : Grid} (hw : g.w = g'.w) (hh : g.h = g'.h) (hb : g.blue = g'.blue) :
    extractFn g = extractFn g' := by
  have hbytes : streamByte g = streamByte g' := by
    funext j
    simp only [streamByte, blueLsb, hb]
  simp only [extractFn, byteStream, Grid.pixCount, hw, hh, hbytes]

/-- The command `i` answers in `s` and in `u` with the same code, and on success with the same content of the space it
writes. -/
def SameResult (i : Instr) (s u : State) : Prop :=
  ∃ e t v, exec i s = .next (finish e t) ∧ exec i u = .next (finish e v) ∧
    (e = .ok → ∀ sp, sp ∈ writesOf i → agreeOn sp t v)

theorem sameResult_obuf {i : Instr} {s u : State} {e : ErrCode} {o : List Byte} (hdest : destOf i = .obuf)
    (hs : exec i s = .next (finish e (setObuf o s))) (hu : exec i u = .next (finish e (setObuf o u))) :
    SameResult i s u := by
  refine ⟨e, _, _, hs, hu, fun _ sp hsp => ?_⟩
  rw [writesOf, hdest, List.mem_singleton] at hsp
  subst hsp
  rfl

theorem sameResult_grid {i : Instr} {s u : State} {p : List Byte} (hdest : destOf i = .grid)
    (hs : exec i s = .next (finish .ok (setBlue (embedFn s.grid p) s)))
    (hu : exec i u = .next (finish .ok (setBlue (embedFn u.grid p) u))) (hg : agreeOn .pixb s u) : SameResult i s u := by
  refine ⟨.ok, _, _, hs, hu, fun _ sp hsp => ?_⟩
  obtain ⟨hw, hh, hb⟩ := hg
  rw [writesOf, hdest, List.mem_singleton] at hsp
  subst hsp
  exact ⟨hw, hh, by simp only [setBlue_grid_blue, embedFn, hb]⟩

theorem sameResult_error {i : Instr} {s u : State} {e : ErrCode} (he : e ≠ .ok)
    (hs : exec i s = .next (raiseErr (destOf i) e s)) (hu : exec i u = .next (raiseErr (destOf i) e u)) :
    SameResult i s u :=
  ⟨e, _, _, hs, hu, fun h => absurd h he⟩

theorem cipher_sameResult {i : Instr} {s u : State} (hi : i = .encrypt ∨ i = .decrypt) (hibuf : agreeOn .ibuf s u)
    (hkey : agreeOn .key s u) : SameResult i s u := by
  have hexec : ∀ s, exec i s = cipherBuffer s := by rcases hi with rfl | rfl <;> exact fun _ => rfl
  have hdest : destOf i = .obuf := by rcases hi with rfl | rfl <;> rfl
  have hlen : s.klen = u.klen := congrArg List.length hkey
  by_cases hk : s.klen = 0
  · refine sameResult_error (e := .invalidKey) (by decide) ?_ ?_ <;> rw [hexec, hdest]
    · exact if_pos hk
    · exact if_pos (hlen ▸ hk)
  · refine sameResult_obuf (e := .ok) (o := xorStream s.ibuf s.key) hdest ((hexec s).trans (exec_cipher hk)) ?_
    rw [hexec, exec_cipher (hlen ▸ hk), show s.ibuf = u.ibuf from hibuf, show s.key = u.key from hkey]

theorem b2bits_sameResult {s u : State} (hibuf : agreeOn .ibuf s u) : SameResult .b2bits s u := by
  refine ⟨.ok, _, _, rfl, rfl, fun _ sp hsp => ?_⟩
  obtain rfl : sp = .bbuf := List.mem_singleton.1 hsp
  exact congrArg bytesToBits hibuf

theorem bits2b_sameResult {s u : State} (hbbuf : agreeOn .bbuf s u) : SameResult .bits2b s u := by
  have hlen : s.blen = u.blen := congrArg List.length hbbuf
  by_cases hb : s.blen = 8
  · refine sameResult_obuf (e := .ok) (o := [bitsToByte s.bbuf]) rfl (if_pos hb) ?_
    rw [show s.bbuf = u.bbuf from hbbuf]
    exact if_pos (hlen ▸ hb)
  · exact sameResult_error (e := .illegalOperation) (by decide) (if_neg hb) (if_neg (hlen ▸ hb))

theorem overCapacity_congr {s u : State} (hg : agreeOn .pixb s u) (len : Nat) :
    overCapacity s.grid len = overCapacity u.grid len := by
  obtain ⟨hw, hh, -⟩ := hg
  simp only [overCapacity, Grid.pixCount, hw, hh]

theorem embed_sameResult {s u : State} (hibuf : agreeOn .ibuf s u) (hg : agreeOn .pixb s u) : SameResult .embed s u := by
  have hlen : s.ilen = u.ilen := congrArg List.length hibuf
  have hcap : overCapacity u.grid u.ilen = overCapacity s.grid s.ilen := by rw [overCapacity_congr hg, hlen]
  by_cases h : overCapacity s.grid s.ilen
  · exact sameResult_error (e := .capacity) (by decide) (if_pos h) (if_pos (hcap.trans h))
  · refine sameResult_grid (p := s.ibuf) rfl (if_neg h) ?_ hg
    rw [show s.ibuf = u.ibuf from hibuf]
    exact if_neg (hcap ▸ h)

theorem hide_sameResult {s u : State} (hibuf : agreeOn .ibuf s u) (hkey : agreeOn .key s u) (hg : agreeOn .pixb s u) :
    SameResult .hide s u := by
  have hlen : s.ilen = u.ilen := congrArg List.length hibuf
  have hklen : s.klen = u.klen := congrArg List.length hkey
  have hcap : overCapacity u.grid (u.ilen + 3) = overCapacity s.grid (s.ilen + 3) := by rw [overCapacity_congr hg, hlen]
  by_cases hk : s.klen = 0
  · exact sameResult_error (e := .invalidKey) (by decide) (if_pos hk) (if_pos (hklen ▸ hk))
  · have hk' : u.klen ≠ 0 := hklen ▸ hk
    by_cases h : overCapacity s.grid (s.ilen + 3)
    · exact sameResult_error (e := .capacity) (by decide) ((if_neg hk).trans (if_pos h))
        ((if_neg hk').trans (if_pos (hcap.trans h)))
    · refine sameResult_grid (p := payload s.ibuf s.key) rfl ((if_neg hk).trans (if_neg h)) ?_ hg
      rw [show s.ibuf = u.ibuf from hibuf, show s.key = u.key from hkey]
      exact (if_neg hk').trans (if_neg (hcap ▸ h))

theorem extract_sameResult {s u : State} (hg : agreeOn .pixb s u) : SameResult .extract s u := by
  obtain ⟨hw, hh, hb⟩ := hg
  have hscan := extractFn_congr hw hh hb
  cases hx : extractFn s.grid with
  | none =>
    exact sameResult_error (e := .terminatorNotFound) (by decide) (exec_extract_none hx) (exec_extract_none (hscan ▸ hx))
  | some out => exact sameResult_obuf rfl (exec_extract_some hx) (exec_extract_some (hscan ▸ hx))

theorem reveal_sameResult {s u : State} (hkey : agreeOn .key s u) (hg : agreeOn .pixb s u) : SameResult .reveal s u := by
  obtain ⟨hw, hh, hb⟩ := hg
  have hscan := extractFn_congr hw hh hb
  have hklen : s.klen = u.klen := congrArg List.length hkey
  cases hx : extractFn s.grid with
  | none =>
    exact sameResult_error (e := .terminatorNotFound) (by decide) (exec_reveal_none hx) (exec_reveal_none (hscan ▸ hx))
  | some out =>
    by_cases hk : s.klen = 0
    · exact sameResult_error (e := .invalidKey) (by decide) (exec_reveal_noKey hx hk)
        (exec_reveal_noKey (hscan ▸ hx) (hklen ▸ hk))
    · refine sameResult_obuf rfl (exec_reveal_some hx hk) ?_
      rw [show s.key = u.key from hkey]
      exact exec_reveal_some (hscan ▸ hx) (hklen ▸ hk)

theorem sameResult_of_agree {i : Instr} {s u : State} (h : ∀ sp, sp ∈ readsOf i → agreeOn sp s u) : SameResult i s u := by
  cases i with
  | encrypt => exact cipher_sameResult (.inl rfl) (h .ibuf (by decide)) (h .key (by decide))
  | decrypt => exact cipher_sameResult (.inr rfl) (h .ibuf (by decide)) (h .key (by decide))
  | b2bits => exact b2bits_sameResult (h .ibuf (by decide))
  | bits2b => exact bits2b_sameResult (h .bbuf (by decide))
  | embed => exact embed_sameResult (h .ibuf (by decide)) (h .pixb (by decide))
  | extract => exact extract_sameResult (h .pixb (by decide))
  | hide => exact hide_sameResult (h .ibuf (by decide)) (h .key (by decide)) (h .pixb (by decide))
  | reveal => exact reveal_sameResult (h .key (by decide)) (h .pixb (by decide))

theorem agreeOn_finish {sp : Space} {e : ErrCode} {t v : State} (h : agreeOn sp t v) :
    agreeOn sp (finish e t) (finish e v) := by
  cases sp <;> exact h

theorem errNumber_eq_zero {e : ErrCode} (h : errNumber e = 0#3) : e = .ok := by
  revert h
  cases e <;> decide

/-- Settles O30: both commands end with the same code, and with `ok` in the same destination. -/
theorem commandReadsOnlyItsOperands : Obligations.CommandReadsOnlyItsOperands := by
  intro i s u h
  obtain ⟨e, t, v, hs, hu, hagree⟩ := sameResult_of_agree h
  refine ⟨_, _, hs, hu, rfl, fun herr sp hsp => ?_⟩
  rw [finish_err] at herr
  exact agreeOn_finish (hagree (errNumber_eq_zero herr) sp hsp)

end Sys2Proof.Machine

namespace Sys2Proof.Machine

/-! ### The host's accesses -/

/-- A move that the host may make while the machine is idle is the operation it names. -/
theorem step_whileIdle {s : State} {m : HostMove} {rest : List HostMove} {o : Host.Outcome State Fault Refusal}
    (hc : LegalConfig s) (hb : s.busy = false) (hs : s.script = m :: rest)
    (hm : hostMove m { s with script := rest } = whileIdle { s with script := rest } o) : step s = o := by
  rw [step_cons hc hs, hm]
  exact whileIdle_of_idle (s := { s with script := rest }) o hb

/-- Settles O33: the reset takes effect in any phase, and the idle core it leaves waits. -/
theorem coreResetKeepsTheGridAndWaits : Obligations.CoreResetKeepsTheGridAndWaits := by
  intro s rest hc hs
  have hstep : step s = .next (coreReset { s with script := rest }) := step_cons hc hs
  have hlengths : ∀ r, 2 ≤ r → r ≤ 5 → regValue (coreReset { s with script := rest }) r = some 0 := by
    intro r h2 h5
    interval_cases r <;> rfl
  exact ⟨_, hstep, rfl, rfl, rfl, rfl, rfl, rfl, hlengths, rfl, rfl, rfl, rfl, rfl, rfl, rfl, rfl, rfl, rfl, rfl, rfl,
    (step_nil (s := { coreReset { s with script := rest } with script := [] }) hc rfl).trans (coreStep_idle rfl)⟩

theorem loadIfFits_of_le {cap : Caps → Nat} {len : Nat} {s : State} (h : ∀ c, s.caps = some c → len ≤ cap c) :
    loadIfFits cap len s = .next s :=
  if_pos ((withinCap_iff ..).2 h)

theorem attach_of_fits {w h : Nat} {red green blue : List Byte} {alpha : Option (List Byte)} {s : State}
    (hshape : gridShapeOk w h red green blue alpha = true) (hcap : ∀ c, s.caps = some c → w * h ≤ c.maxpix) :
    attach w h red green blue alpha s = .next { s with grid := gridOf w h red green blue alpha } := by
  rw [attach, if_pos hshape]
  exact loadIfFits_of_le (s := { s with grid := gridOf w h red green blue alpha }) hcap

theorem memRead_memOfList_zero (vs : List Byte) (n : Nat) : memRead (memOfList 0 vs) n = vs.getD n 0x00#8 := by
  have h := memRead_memOfList vs 0 n
  rw [Nat.zero_add] at h
  exact h

/-- Settles O36: each load is an accepted one, and the grid attached reads as the lists it was made of. -/
theorem hostLoadsReplaceBufferOrGrid : Obligations.HostLoadsReplaceBufferOrGrid := by
  intro s rest hc hb
  refine ⟨fun bs hs hcap => ?ibuf, fun bs hs hcap => ?key, fun bits hs hcap => ?bbuf,
    fun w h red green blue alpha hs hr hg hbl ha hcap => ?grid⟩
  case ibuf =>
    exact (step_whileIdle hc hb hs rfl).trans (loadIfFits_of_le (s := { s with ibuf := bs, script := rest }) hcap)
  case key =>
    exact (step_whileIdle hc hb hs rfl).trans (loadIfFits_of_le (s := { s with key := bs, script := rest }) hcap)
  case bbuf =>
    exact (step_whileIdle hc hb hs rfl).trans (loadIfFits_of_le (s := { s with bbuf := bits, script := rest }) hcap)
  case grid =>
    have hshape := (gridShapeOk_iff ..).2 ⟨hr, hg, hbl, ha⟩
    exact ⟨gridOf w h red green blue alpha,
      (step_whileIdle hc hb hs rfl).trans (attach_of_fits (s := { s with script := rest }) hshape hcap),
      gridOf_wf hshape, rfl, rfl, rfl, fun n => ⟨memRead_memOfList_zero red n, memRead_memOfList_zero green n,
        memRead_memOfList_zero blue n, memRead_memOfList_zero (alpha.getD []) n⟩⟩

/-- A channel is present unless it is alpha of a grid without one (R9). -/
theorem channelOf_present {g : Grid} {c : Channel} (h : c = .alpha → g.hasAlpha = true) : ∃ m, channelOf g c = some m := by
  cases c with
  | red => exact ⟨_, rfl⟩
  | green => exact ⟨_, rfl⟩
  | blue => exact ⟨_, rfl⟩
  | alpha => exact ⟨g.alpha, if_pos (h rfl)⟩

/-- The channels of a grid after one of them was replaced. -/
theorem channelOf_withChannel {g : Grid} {c d : Channel} {p m : Memory} (p' : Memory) (hc : channelOf g c = some p)
    (hd : channelOf g d = some m) :
    channelOf (withChannel g c p') d = some (if d = c then p' else m) := by
  cases d with
  | red =>
    cases hd
    cases c <;> rfl
  | green =>
    cases hd
    cases c <;> rfl
  | blue =>
    cases hd
    cases c <;> rfl
  | alpha =>
    have has_alpha : g.hasAlpha = true := by
      by_contra hno
      simp [channelOf, hno] at hd
    rw [channelOf, if_pos has_alpha] at hd
    cases hd
    cases c <;> exact if_pos has_alpha

theorem readPixel_of_lt {c : Channel} {n : Nat} {s : State} {m : Memory} (hm : channelOf s.grid c = some m)
    (hn : n < s.grid.pixCount) : readPixel c n s = .next { s with seen := (memRead m n).toNat :: s.seen } := by
  simp only [readPixel, hm, hn, if_true, answer]

theorem writePixel_of_lt {c : Channel} {n : Nat} {s : State} {m : Memory} (v : Byte) (hm : channelOf s.grid c = some m)
    (hn : n < s.grid.pixCount) :
    writePixel c n v s = .next { s with grid := withChannel s.grid c (memWrite m n v) } := by
  simp only [writePixel, hm, hn, if_true]

/-- Settles O37: the write replaces one cell of one plane, and the read finds the plane of its own channel. -/
theorem pixelReadAfterPixelWrite : Obligations.PixelReadAfterPixelWrite := by
  intro s rest c d n k v m hc hb hs hn hk hpresent hd
  obtain ⟨p, hp⟩ := channelOf_present hpresent
  have hdims : (withChannel s.grid c (memWrite p n v)).w = s.grid.w ∧ (withChannel s.grid c (memWrite p n v)).h = s.grid.h := by
    cases c <;> exact ⟨rfl, rfl⟩
  have hwrite := (step_whileIdle hc hb hs rfl).trans
    (writePixel_of_lt (s := { s with script := .readPixel d k :: rest }) v hp hn)
  have hread := (step_whileIdle (m := .readPixel d k) (rest := rest)
      (s := { s with script := .readPixel d k :: rest, grid := withChannel s.grid c (memWrite p n v) }) hc hb rfl rfl).trans
    (readPixel_of_lt (s := { s with script := rest, grid := withChannel s.grid c (memWrite p n v) })
      (channelOf_withChannel _ hp hd) ((withChannel_pixCount ..).symm ▸ hk))
  refine ⟨_, (run_next 1 hwrite).trans ((run_next 0 hread).trans (run_zero _)), ?_, hdims.1, hdims.2, rfl, rfl, rfl⟩
  show (memRead (if d = c then memWrite p n v else m) k).toNat :: s.seen = _
  by_cases hdc : d = c
  · subst hdc
    obtain rfl : p = m := Option.some.inj (hp.symm.trans hd)
    rw [if_pos rfl, memRead_memWrite]
    by_cases hkn : k = n <;> simp [hkn]
  · simp [hdc]

/-- The registers by number (R68). -/
theorem regValue_eq (s : State) (r : Nat) :
    regValue s r = [s.cmd.toNat, s.status.toNat, s.ilen, s.klen, s.olen, s.blen, s.gw, s.gh][r]? := by
  rcases Nat.lt_or_ge r 8 with hr | hr
  · interval_cases r <;> rfl
  · obtain ⟨d, rfl⟩ := Nat.exists_eq_add_of_le' hr
    rfl

theorem readRegister_of_some {r v : Nat} {s : State} (hallowed : s.busy = true → r = 1) (hv : regValue s r = some v) :
    readRegister r s = .next { s with seen := v :: s.seen } := by
  have hpass : ¬ (s.busy && r != 1) = true := by
    intro h
    obtain ⟨hbusy, hr⟩ := Bool.and_eq_true_iff.1 h
    exact (bne_iff_ne.1 hr) (hallowed hbusy)
  rw [readRegister, if_neg hpass, hv]
  rfl

/-- Settles O38: an allowed read returns the register's value; any other during a command is refused. -/
theorem registerReadsReturnCurrentValues : Obligations.RegisterReadsReturnCurrentValues := by
  intro s rest r hc hs
  have hstep : step s = readRegister r { s with script := rest } := step_cons hc hs
  rw [hstep]
  refine ⟨fun hb hr => ?idle, fun _ hr => ?status, fun hb hr => ?refused⟩
  case idle =>
    refine readRegister_of_some (s := { s with script := rest }) (fun hbusy => absurd (hb.symm.trans hbusy) nofun) ?_
    rw [regValue_eq, List.getD_eq_getElem _ _ hr]
    exact List.getElem?_eq_getElem hr
  case status =>
    subst hr
    exact readRegister_of_some (fun _ => rfl) rfl
  case refused =>
    have hblocked : (State.busy { s with script := rest } && r != 1) = true :=
      Bool.and_eq_true_iff.2 ⟨hb, bne_iff_ne.2 hr⟩
    rw [readRegister, if_pos hblocked]

theorem readRegister_absent {r : Nat} {s : State} (hb : s.busy = false) (hr : 8 ≤ r) :
    readRegister r s = .refused .noSuchRegister := by
  have hv : regValue s r = none := (regValue_eq s r).trans (List.getElem?_eq_none hr)
  rw [readRegister, hb, hv]
  rfl

theorem readObufAt_of_some {k : Nat} {v : Byte} {s : State} (h : s.obuf[k]? = some v) :
    readObufAt k s = .next { s with seen := v.toNat :: s.seen } := by
  simp only [readObufAt, h, answer]

theorem readObufAt_of_ge {k : Nat} {s : State} (h : s.olen ≤ k) : readObufAt k s = .refused .noSuchElement := by
  simp only [readObufAt, List.getElem?_eq_none h]

theorem readBbufAt_of_some {k : Nat} {b : Bit} {s : State} (h : s.bbuf[k]? = some b) :
    readBbufAt k s = .next { s with seen := b.toNat :: s.seen } := by
  simp only [readBbufAt, h, answer]

theorem readBbufAt_of_ge {k : Nat} {s : State} (h : s.blen ≤ k) : readBbufAt k s = .refused .noSuchElement := by
  simp only [readBbufAt, List.getElem?_eq_none h]

theorem readPixel_absent_channel {s : State} (n : Nat) (h : s.grid.hasAlpha = false) :
    readPixel .alpha n s = .refused .noSuchChannel := by
  simp [readPixel, channelOf, h]

theorem writePixel_absent_channel {s : State} (n : Nat) (v : Byte) (h : s.grid.hasAlpha = false) :
    writePixel .alpha n v s = .refused .noSuchChannel := by
  simp [writePixel, channelOf, h]

theorem readPixel_outside {s : State} {c : Channel} {n : Nat} (hc : c = .alpha → s.grid.hasAlpha = true)
    (hn : s.grid.pixCount ≤ n) : readPixel c n s = .refused .noSuchPixel := by
  obtain ⟨m, hm⟩ := channelOf_present hc
  simp only [readPixel, hm, Nat.not_lt.2 hn, if_false]

theorem writePixel_outside {s : State} {c : Channel} {n : Nat} (v : Byte) (hc : c = .alpha → s.grid.hasAlpha = true)
    (hn : s.grid.pixCount ≤ n) : writePixel c n v s = .refused .noSuchPixel := by
  obtain ⟨m, hm⟩ := channelOf_present hc
  simp only [writePixel, hm, Nat.not_lt.2 hn, if_false]

theorem writeRegister_readOnly {r : Nat} {v : Byte} {s : State} (h1 : 1 ≤ r) (h7 : r ≤ 7) :
    writeRegister r v s = .refused .readOnlyRegister := by
  have hw : registerWritable r = false := decide_eq_false (by omega)
  have he : registerExists r = true := decide_eq_true (by omega)
  simp [writeRegister, hw, he]

theorem writeRegister_absent {r : Nat} {v : Byte} {s : State} (h8 : 8 ≤ r) :
    writeRegister r v s = .refused .noSuchRegister := by
  have hw : registerWritable r = false := decide_eq_false (by omega)
  have he : registerExists r = false := decide_eq_false (by omega)
  simp [writeRegister, hw, he]

/-- Settles O40: on an idle machine each move is the operation it names, which answers or refuses by its own test. -/
theorem accessesOutsideTheRulesAreRefused : Obligations.AccessesOutsideTheRulesAreRefused := by
  intro s rest hc hb
  refine ⟨fun k hs => ?obuf, fun k hs => ?bbuf, fun r hs h8 => ?readReg, fun r v hs h1 h7 => ?readOnly,
    fun r v hs h8 => ?writeReg, fun c n hs => ?readPixel, fun c n v hs => ?writePixel⟩
  case obuf =>
    rw [step_whileIdle hc hb hs rfl]
    exact ⟨fun v hv => readObufAt_of_some (s := { s with script := rest }) hv,
      fun hk => readObufAt_of_ge (s := { s with script := rest }) hk⟩
  case bbuf =>
    rw [step_whileIdle hc hb hs rfl]
    exact ⟨fun b hv => readBbufAt_of_some (s := { s with script := rest }) hv,
      fun hk => readBbufAt_of_ge (s := { s with script := rest }) hk⟩
  case readReg => exact (step_cons hc hs).trans (readRegister_absent (s := { s with script := rest }) hb h8)
  case readOnly => exact (step_whileIdle hc hb hs rfl).trans (writeRegister_readOnly h1 h7)
  case writeReg => exact (step_whileIdle hc hb hs rfl).trans (writeRegister_absent h8)
  case readPixel =>
    rw [step_whileIdle hc hb hs rfl]
    refine ⟨fun halpha hno => ?_, fun hpresent hn => readPixel_outside (s := { s with script := rest }) hpresent hn⟩
    subst halpha
    exact readPixel_absent_channel n hno
  case writePixel =>
    rw [step_whileIdle hc hb hs rfl]
    refine ⟨fun halpha hno => ?_, fun hpresent hn => writePixel_outside (s := { s with script := rest }) v hpresent hn⟩
    subst halpha
    exact writePixel_absent_channel n v hno

end Sys2Proof.Machine

/-!
SUPPORT. Proofs of the statements of the memories (20_memory.md): the linear pixel index, and that no step addresses an element
that does not exist.
-/

namespace Sys2Proof.Machine

/-! ### The linear pixel index (R61) -/

theorem pixelIndex_lt {w h x y : Nat} (hx : x < w) (hy : y < h) : pixelIndex w x y < w * h :=
  calc y * w + x < y * w + w := Nat.add_lt_add_left hx _
    _ = w * (y + 1) := by rw [Nat.mul_succ, Nat.mul_comm]
    _ ≤ w * h := Nat.mul_le_mul_left w hy

theorem pixelIndex_mod {w x : Nat} (hx : x < w) (y : Nat) : pixelIndex w x y % w = x := by
  rw [pixelIndex, Nat.mul_comm, Nat.mul_add_mod, Nat.mod_eq_of_lt hx]

theorem pixelIndex_div {w x : Nat} (hx : x < w) (y : Nat) : pixelIndex w x y / w = y := by
  rw [pixelIndex, Nat.mul_comm, Nat.mul_add_div (Nat.zero_lt_of_lt hx), Nat.div_eq_of_lt hx, Nat.add_zero]

theorem pixelIndex_mod_div (w n : Nat) : pixelIndex w (n % w) (n / w) = n :=
  Nat.div_add_mod' n w

/-- Settles O42: row-major order is division with remainder by W, which is not 0 where the grid has a pixel. -/
theorem pixelIndexIsRowMajor : Obligations.PixelIndexIsRowMajor := by
  refine ⟨fun w h x y hx hy => ⟨pixelIndex_lt hx hy, pixelIndex_mod hx y, pixelIndex_div hx y⟩, fun w h n hn => ?_⟩
  have hw : 0 < w := Nat.pos_of_mul_pos_right (Nat.zero_lt_of_lt hn)
  exact ⟨Nat.mod_lt n hw, Nat.div_lt_of_lt_mul hn, pixelIndex_mod_div w n⟩

/-! ### Every row of the sequencer's table finds the elements it addresses (R63) -/

theorem cipherStep_answers {s : State} (h : CipherOk s) : ∃ t, cipherStep s = .next t := by
  rcases Nat.lt_or_ge s.i s.ilen with hi | hi
  · obtain ⟨o, k, hstep, -⟩ := cipherStep_advances h hi
    exact ⟨_, hstep⟩
  · exact ⟨_, cipherStep_ends hi⟩

theorem b2bitsStep_answers {s : State} (h : B2bitsOk s) : ∃ t, b2bitsStep s = .next t := by
  rcases Nat.lt_or_ge s.i s.ilen with hi | hi
  · obtain ⟨r, hstep, -⟩ := b2bitsStep_advances h hi
    exact ⟨_, hstep⟩
  · exact ⟨_, b2bitsStep_ends hi⟩

theorem embedStep_answers {s : State} (h : EmbedOk s) : ∃ t, pixelOut loadEmbed (8 * s.ilen) s = .next t := by
  rcases Nat.lt_or_ge s.n (8 * s.ilen) with hn | hn
  · obtain ⟨v, hstep, -⟩ := pixelOut_embed_advances h hn
    exact ⟨_, hstep⟩
  · exact ⟨_, pixelOut_ends hn⟩

theorem hideStep_answers {s : State} (h : HideOk s) : ∃ t, pixelOut loadHide (8 * (s.ilen + 3)) s = .next t := by
  rcases Nat.lt_or_ge s.n (8 * (s.ilen + 3)) with hn | hn
  · obtain ⟨v, k, j, hstep, -⟩ := pixelOut_hide_advances h hn
    exact ⟨_, hstep⟩
  · exact ⟨_, pixelOut_ends hn⟩

/-- The scan tests for exhaustion before it reads a pixel (R147), so it needs no loop invariant. -/
theorem extractStep_answers (s : State) : ∃ t, extractStep s = .next t := by
  unfold extractStep
  split_ifs with hf hn
  · exact ⟨_, rfl⟩
  · exact pixelIn_of_lt hn
  · exact ⟨_, rfl⟩

theorem revealStep_answers (s : State) : ∃ t, revealStep s = .next t := by
  unfold revealStep
  split_ifs with hf hk hn
  · exact ⟨_, rfl⟩
  · exact ⟨_, rfl⟩
  · exact pixelIn_of_lt hn
  · exact ⟨_, rfl⟩

theorem run2Step_answers {s : State} (h : Run2Ok s) : ∃ t, run2Step s = .next t := by
  rcases Nat.lt_or_ge s.i s.olen with hi | hi
  · obtain ⟨o, k, hstep, -⟩ := run2Step_advances h hi
    exact ⟨_, hstep⟩
  · exact ⟨_, run2Step_ends h hi⟩

/-- Under a command's loop invariant every element that its row of RUN addresses exists. -/
theorem elementStep_answers {i : Instr} {s : State} (h : LoopOk i s) : ∃ t, elementStep i s = .next t := by
  cases i with
  | encrypt => exact cipherStep_answers h
  | decrypt => exact cipherStep_answers h
  | b2bits => exact b2bitsStep_answers h
  | bits2b => exact ⟨_, if_pos h⟩
  | embed => exact embedStep_answers h
  | extract => exact extractStep_answers s
  | hide => exact hideStep_answers h
  | reveal => exact revealStep_answers s

theorem runStep_answers {s : State} (h : RunOk s) : ∃ t, runStep s = .next t := by
  obtain ⟨i, hop⟩ := runOk_decodes h
  rw [runStep_eq hop]
  exact elementStep_answers ((runOk_iff hop).1 h)

/-- In a state that meets the invariant the sequencer goes on, whatever its phase. -/
theorem coreStep_answers {s : State} (h : Inv s) : ∃ t, coreStep s = .next t := by
  cases hph : s.ph with
  | idle => exact ⟨_, coreStep_idle hph⟩
  | check => exact ⟨checkStep s, by simp only [coreStep, hph]⟩
  | run => exact coreStep_run hph ▸ runStep_answers (h.run hph)
  | run2 => exact coreStep_run2 hph ▸ run2Step_answers (h.run2 hph)
  | done => exact ⟨doneStep s, by simp only [coreStep, hph]⟩

/-! ### No operation of the host raises a fault -/

/-- The outcome is a next state or a refusal. -/
def FaultFree (o : Host.Outcome State Fault Refusal) : Prop := ∀ r, o ≠ .fault r

theorem faultFree_next (t : State) : FaultFree (.next t) := nofun

theorem faultFree_refused (r : Refusal) : FaultFree (.refused r) := nofun

theorem faultFree_of_answers {o : Host.Outcome State Fault Refusal} (h : ∃ t, o = .next t) : FaultFree o := by
  obtain ⟨t, rfl⟩ := h
  exact faultFree_next t

theorem faultFree_ite {p : Prop} [Decidable p] {o o' : Host.Outcome State Fault Refusal} (h : FaultFree o)
    (h' : FaultFree o') : FaultFree (if p then o else o') := by
  split_ifs
  · exact h
  · exact h'

theorem whileIdle_faultFree {s : State} {o : Host.Outcome State Fault Refusal} (h : FaultFree o) :
    FaultFree (whileIdle s o) :=
  faultFree_ite (faultFree_refused _) h

theorem loadIfFits_faultFree (cap : Caps → Nat) (len : Nat) (s : State) : FaultFree (loadIfFits cap len s) :=
  faultFree_ite (faultFree_next _) (faultFree_refused _)

theorem attach_faultFree (w h : Nat) (red green blue : List Byte) (alpha : Option (List Byte)) (s : State) :
    FaultFree (attach w h red green blue alpha s) :=
  faultFree_ite (loadIfFits_faultFree _ _ _) (faultFree_refused _)

theorem readPixel_faultFree (c : Channel) (n : Nat) (s : State) : FaultFree (readPixel c n s) := by
  unfold readPixel
  split
  · exact faultFree_refused _
  · exact faultFree_ite (faultFree_next _) (faultFree_refused _)

theorem writePixel_faultFree (c : Channel) (n : Nat) (v : Byte) (s : State) : FaultFree (writePixel c n v s) := by
  unfold writePixel
  split
  · exact faultFree_refused _
  · exact faultFree_ite (faultFree_next _) (faultFree_refused _)

theorem readRegister_faultFree (r : Nat) (s : State) : FaultFree (readRegister r s) := by
  refine faultFree_ite (faultFree_refused _) ?_
  split
  · exact faultFree_next _
  · exact faultFree_refused _

theorem readObufAt_faultFree (k : Nat) (s : State) : FaultFree (readObufAt k s) := by
  unfold readObufAt
  split
  · exact faultFree_next _
  · exact faultFree_refused _

theorem readBbufAt_faultFree (k : Nat) (s : State) : FaultFree (readBbufAt k s) := by
  unfold readBbufAt
  split
  · exact faultFree_next _
  · exact faultFree_refused _

/-- A whole command answers a next state from every state (R171). -/
theorem runCommand_faultFree (c : Byte) (s : State) : FaultFree (runCommand c s) := by
  rcases runCommand_shape c s with ⟨i, -, hrun⟩ | ⟨why, -, hrun⟩
  · exact faultFree_of_answers ⟨_, hrun.trans (exec_eq_commandResult i _)⟩
  · exact faultFree_of_answers ⟨_, hrun⟩

theorem writeRegister_faultFree (r : Nat) (v : Byte) (s : State) : FaultFree (writeRegister r v s) :=
  faultFree_ite (runCommand_faultFree v s) (faultFree_ite (faultFree_refused _) (faultFree_refused _))

/-- Of the host's moves only a wait, which lets the sequencer run, could stop the machine. -/
theorem hostMove_faultFree {s : State} (hcore : FaultFree (coreStep s)) (m : HostMove) : FaultFree (hostMove m s) := by
  cases m with
  | loadIbuf bs => exact whileIdle_faultFree (loadIfFits_faultFree _ _ _)
  | loadKey bs => exact whileIdle_faultFree (loadIfFits_faultFree _ _ _)
  | loadBbuf bits => exact whileIdle_faultFree (loadIfFits_faultFree _ _ _)
  | attachGrid w h red green blue alpha => exact whileIdle_faultFree (attach_faultFree w h red green blue alpha s)
  | readPixel c n => exact whileIdle_faultFree (readPixel_faultFree c n s)
  | writePixel c n v => exact whileIdle_faultFree (writePixel_faultFree c n v s)
  | readReg r => exact readRegister_faultFree r s
  | readObuf k => exact whileIdle_faultFree (readObufAt_faultFree k s)
  | readBbuf k => exact whileIdle_faultFree (readBbufAt_faultFree k s)
  | writeReg r v => exact whileIdle_faultFree (writeRegister_faultFree r v s)
  | issue v => exact whileIdle_faultFree (faultFree_next _)
  | wait => exact hcore
  | reset => exact faultFree_next _

/-- Settles O50: under the invariant every row of the sequencer answers a next state, and no other part of a step can fault. -/
theorem noStepFaults : Obligations.NoStepFaults := by
  intro s r hinv hfault
  obtain ⟨-, ⟨-, hcore⟩ | ⟨m, rest, -, hmove⟩⟩ := step_cases hfault nofun
  · exact faultFree_of_answers (coreStep_answers hinv) r hcore
  · exact hostMove_faultFree (faultFree_of_answers (coreStep_answers (inv_withScript rest hinv))) m r hmove

end Sys2Proof.Machine

/-!
SUPPORT. Proofs of the statements of the encodings (30_encoding.md): the command byte, the bytes that encode no command, and the
sequences that HIDE and REVEAL stand for.
-/

namespace Sys2Proof

/-! ### The command byte (R95, R96, R98) -/

theorem cmdOp_toNat (c : Byte) : (cmdOp c).toNat = c.toNat % 16 := by simp [cmdOp]

theorem cmdRsv_toNat (c : Byte) : (cmdRsv c).toNat = c.toNat / 16 := by
  have hc := c.isLt
  simp only [cmdRsv, BitVec.extractLsb'_toNat, Nat.shiftRight_eq_div_pow]
  omega

theorem decode_encode (i : Instr) : decode (encode i) = .command i := by cases i <;> rfl

theorem decode_eq_command_iff (c : Byte) (i : Instr) : decode c = .command i ↔ c = encode i :=
  ⟨encode_of_decode, fun h => h ▸ decode_encode i⟩

/-- OP is reserved at 0 and from 9 on (R98). -/
theorem decodeOp_eq_none_iff (op : BitVec 4) : decodeOp op = none ↔ op = 0#4 ∨ 9 ≤ op.toNat := by
  revert op
  decide

theorem decode_eq_rsvNotZero_iff (c : Byte) : decode c = .illegal .rsvNotZero ↔ cmdRsv c ≠ 0#4 := by
  by_cases hrsv : cmdRsv c = 0#4
  · cases hop : decodeOp (cmdOp c) <;> simp [decode, hrsv, hop]
  · simp [decode, hrsv]

theorem decode_eq_opReserved_iff (c : Byte) :
    decode c = .illegal .opReserved ↔ cmdRsv c = 0#4 ∧ decodeOp (cmdOp c) = none := by
  by_cases hrsv : cmdRsv c = 0#4
  · cases hop : decodeOp (cmdOp c) <;> simp [decode, hrsv, hop]
  · simp [decode, hrsv]

/-- Settles O2: the encoder inverts the decoder on commands, and the two tests of the decoder are the two reasons. -/
theorem decodeAndEncodeAgree : Obligations.DecodeAndEncodeAgree :=
  ⟨decode_eq_command_iff, decode_eq_rsvNotZero_iff,
    fun c => (decode_eq_opReserved_iff c).trans (and_congr_right fun _ => decodeOp_eq_none_iff (cmdOp c))⟩

/-- Settles O1: the eight words are the encodings of R96. -/
theorem decoderReadsTheEightCommandBytes : Obligations.DecoderReadsTheEightCommandBytes :=
  ⟨decode_encode .encrypt, decode_encode .decrypt, decode_encode .b2bits, decode_encode .bits2b, decode_encode .embed,
    decode_encode .extract, decode_encode .hide, decode_encode .reveal⟩

/-- The bytes that encode no command, as numbers: RSV is the byte's quotient by 16 and OP its remainder (R98). -/
theorem decode_illegal_iff (c : Byte) : (∃ why, decode c = .illegal why) ↔ c.toNat = 0 ∨ 9 ≤ c.toNat := by
  have hrsv : decode c = .illegal .rsvNotZero ↔ c.toNat / 16 ≠ 0 := by
    rw [decode_eq_rsvNotZero_iff, ← cmdRsv_toNat, ne_eq, ← BitVec.toNat_inj, BitVec.toNat_zero]
  have hop : decode c = .illegal .opReserved ↔ c.toNat / 16 = 0 ∧ (c.toNat % 16 = 0 ∨ 9 ≤ c.toNat % 16) := by
    rw [decode_eq_opReserved_iff, decodeOp_eq_none_iff, ← cmdRsv_toNat, ← cmdOp_toNat, ← BitVec.toNat_inj,
      ← BitVec.toNat_inj (x := cmdOp c), BitVec.toNat_zero]
  constructor
  · rintro ⟨why, h⟩
    cases why with
    | rsvNotZero =>
      have hhigh := hrsv.1 h
      omega
    | opReserved =>
      have hlow := hop.1 h
      omega
  · intro h
    by_cases hc : c.toNat / 16 = 0
    · exact ⟨_, hop.2 (by omega)⟩
    · exact ⟨_, hrsv.2 hc⟩

theorem decode_command_iff (c : Byte) : (∃ i, decode c = .command i) ↔ 1 ≤ c.toNat ∧ c.toNat ≤ 8 := by
  have hillegal := decode_illegal_iff c
  cases h : decode c with
  | command i =>
    have hlegal : ¬ (c.toNat = 0 ∨ 9 ≤ c.toNat) := fun hc => by
      obtain ⟨why, hwhy⟩ := hillegal.2 hc
      cases h.symm.trans hwhy
    exact iff_of_true ⟨i, rfl⟩ (by omega)
  | illegal why =>
    have hc := hillegal.1 ⟨why, h⟩
    exact iff_of_false nofun (by omega)

end Sys2Proof

namespace Sys2Proof.Machine

/-- A byte that encodes no command is issued and completes at once with IllegalOperation (R98). -/
theorem runCommand_of_illegal {c : Byte} {why : Illegal} (s : State) (h : decode c = .illegal why) :
    runCommand c s = .next (finish .illegalOperation (issue c s)) := by
  unfold runCommand
  rw [h]
  rfl

/-- Settles O3: the legal bytes by number, and the one step that issues an illegal byte and completes it. -/
theorem illegalByteOnlySetsErr4 : Obligations.IllegalByteOnlySetsErr4 := by
  refine ⟨fun c d i hc hd => (encode_of_decode hc).trans (encode_of_decode hd).symm,
    ⟨decode_encode .encrypt, decode_encode .decrypt, fun _ => rfl⟩, decode_command_iff, fun s c rest hl hb hs hc => ?_⟩
  obtain ⟨why, hwhy⟩ := (decode_illegal_iff c).2 hc
  exact ⟨_, (step_writeCmd hl hb hs).trans (runCommand_of_illegal _ hwhy), finish_err _ _, finish_busy _ _, finish_rsv _ _,
    rfl, rfl, rfl, rfl, rfl, rfl, rfl, rfl, rfl⟩

/-! ### The sequences of R101 (b) -/

/-- What EMBED and HIDE leave for the payload `p`: CapacityError, or the payload's bits in the blue channel (R131, R161). -/
def embedResult (p : List Byte) (s : State) : State :=
  if overCapacity s.grid p.length then raiseErr .grid .capacity s
  else finish .ok (setBlue (embedFn s.grid p) s)

theorem exec_embed (s : State) : exec .embed s = .next (embedResult s.ibuf s) := by
  simp only [exec, execEmbed, embedResult]
  split <;> rfl

theorem exec_hide_key {s : State} (hk : s.klen ≠ 0) : exec .hide s = .next (embedResult (payload s.ibuf s.key) s) := by
  simp only [exec, execHide, embedResult, hk, payload_length, if_false]
  split <;> rfl

/-- Of the state only the grid decides which grid and which error are left. -/
theorem embedResult_congr {s u : State} (p : List Byte) (hg : s.grid = u.grid) :
    (embedResult p s).grid = (embedResult p u).grid ∧ (embedResult p s).err = (embedResult p u).err := by
  unfold embedResult
  rw [hg]
  split
  · exact ⟨hg, rfl⟩
  · exact ⟨by rw [finish_grid, finish_grid, setBlue_grid, setBlue_grid, hg], rfl⟩

theorem raiseErr_err_ne_zero {e : ErrCode} (he : e ≠ .ok) (d : Dest) (s : State) : (raiseErr d e s).err ≠ 0#3 :=
  fun h => he (errNumber_eq_zero ((finish_err _ _).symm.trans h))

/-- Settles O25: with a password both sides embed the payload into the one grid; without one HIDE fails as ENCRYPT does. -/
theorem hideEqualsEncryptThenEmbed : Obligations.HideEqualsEncryptThenEmbed := by
  intro s
  by_cases hk : s.klen = 0
  · exact ⟨_, _, _, exec_of_precheck (if_pos hk), exec_embed _, exec_of_precheck (if_pos hk),
      fun herr => absurd herr (raiseErr_err_ne_zero (by decide) _ _), fun _ => ⟨rfl, rfl⟩⟩
  · exact ⟨_, _, _, exec_cipher hk, exec_embed _, exec_hide_key hk,
      fun _ => embedResult_congr (payload s.ibuf s.key) rfl, fun herr => absurd (finish_err _ _) herr⟩

/-- Settles O26: after a successful EXTRACT both sides decipher the same bytes with the same password; REVEAL scans before it
tests the password, so it fails as EXTRACT does. -/
theorem revealEqualsExtractThenDecrypt : Obligations.RevealEqualsExtractThenDecrypt := by
  intro s
  cases hx : extractFn s.grid with
  | none =>
    exact ⟨_, _, _, exec_extract_none hx, exec_eq_commandResult _ _, exec_reveal_none hx,
      fun herr => absurd herr (raiseErr_err_ne_zero (by decide) _ _), fun _ => ⟨rfl, rfl⟩⟩
  | some c =>
    by_cases hk : s.klen = 0
    · exact ⟨_, _, _, exec_extract_some hx, exec_of_precheck (if_pos hk), exec_reveal_noKey hx hk,
        fun _ => ⟨rfl, rfl⟩, fun herr => absurd (finish_err _ _) herr⟩
    · exact ⟨_, _, _, exec_extract_some hx, exec_cipher hk, exec_reveal_some hx hk,
        fun _ => ⟨rfl, rfl⟩, fun herr => absurd (finish_err _ _) herr⟩

end Sys2Proof.Machine

/-!
SUPPORT. Proofs of the statements of the stream cipher (41_stream_cipher.md): what ENCRYPT and DECRYPT leave byte by byte, and
that the one undoes the other.
-/

namespace Sys2Proof.Machine

/-! ### The keystream XOR byte by byte (R110, R113) -/

theorem xorStream_getElem?_of_lt {bs : List Byte} {k : Nat} (p : List Byte) (hk : k < bs.length) :
    (xorStream bs p)[k]? = some (bs.getD k 0x00#8 ^^^ p.getD (k % p.length) 0x00#8) := by
  rw [xorStream_getElem?, List.getElem?_eq_getElem hk, Option.map_some, List.getD_eq_getElem bs _ hk]

/-- Byte k meets the same password byte in both passes, and XOR with one byte twice cancels (R113). -/
theorem xorStream_xorStream (bs p : List Byte) : xorStream (xorStream bs p) p = bs := by
  apply List.ext_getElem?
  intro k
  have hcancel (b q : Byte) : b ^^^ q ^^^ q = b := by rw [BitVec.xor_assoc, BitVec.xor_self, BitVec.xor_zero]
  cases hb : bs[k]? with
  | none => simp only [xorStream_getElem?, hb, Option.map_none]
  | some b => simp only [xorStream_getElem?, hb, Option.map_some, hcancel]

/-! ### The commands -/

theorem klen_ne_zero {s : State} (hkey : s.key ≠ []) : s.klen ≠ 0 := mt List.length_eq_zero_iff.1 hkey

theorem cipherBuffer_noKey {s : State} (hk : s.klen = 0) : cipherBuffer s = .next (raiseErr .obuf .invalidKey s) := if_pos hk

/-- What ENCRYPT and DECRYPT both answer (R111, R112), with the state left and its OBUF written out. -/
theorem cipherBuffer_cycles_key (s : State) :
    (s.key ≠ [] → ∃ o : List Byte,
      cipherBuffer s = .next { s with obuf := o, status := 0x00#8, ph := .idle } ∧
      o.length = s.ibuf.length ∧
      ∀ k, k < s.ibuf.length → o[k]? = some (s.ibuf.getD k 0x00#8 ^^^ s.key.getD (k % s.key.length) 0x00#8)) ∧
    (s.key = [] → cipherBuffer s = .next { s with obuf := [], status := 0x01#8, ph := .idle }) := by
  constructor
  · intro hkey
    exact ⟨xorStream s.ibuf s.key, exec_cipher (klen_ne_zero hkey), xorStream_length _ _,
      fun _ => xorStream_getElem?_of_lt s.key⟩
  · intro hkey
    exact cipherBuffer_noKey (List.length_eq_zero_iff.2 hkey)

/-- Settles O6: ENCRYPT is the ciphering of IBUF under the code 1. -/
theorem encryptXorsIbufWithCyclingKey : Obligations.EncryptXorsIbufWithCyclingKey :=
  ⟨decode_encode .encrypt, cipherBuffer_cycles_key⟩

/-- Settles O7: DECRYPT is the same ciphering under the code 2. -/
theorem decryptXorsIbufWithCyclingKey : Obligations.DecryptXorsIbufWithCyclingKey :=
  ⟨decode_encode .decrypt, cipherBuffer_cycles_key⟩

/-- Settles O8: ENCRYPT leaves KEY as it was, so DECRYPT applies the same keystream to its result. -/
theorem decryptUndoesEncrypt : Obligations.DecryptUndoesEncrypt := by
  refine ⟨fun bs p _ => xorStream_xorStream bs p, fun s hkey => ?_⟩
  have hk : s.klen ≠ 0 := klen_ne_zero hkey
  exact ⟨_, _, exec_cipher hk, exec_cipher hk, xorStream_xorStream s.ibuf s.key, finish_err _ _⟩

end Sys2Proof.Machine

/-!
SUPPORT. Proofs of the statements of the bit packer (42_bit_packer.md): what B2BITS and BITS2B leave bit by bit, that their
functions undo each other, that a shift register computes both, and their steps at the step level.
-/

namespace Sys2Proof.Machine

/-! ### A byte and its eight bits (R120, R121, R124) -/

/-- Bit i of the packed byte is `b[7 - i]` (R121), an absent bit counting as 0. -/
theorem bitsToByte_getLsbD (b : List Bit) {k : Nat} (hk : k < 8) : (bitsToByte b).getLsbD (7 - k) = b.getD k false := by
  have reads_eight_bits : bitsToByte b = bitsToByte [b.getD 0 false, b.getD 1 false, b.getD 2 false, b.getD 3 false,
      b.getD 4 false, b.getD 5 false, b.getD 6 false, b.getD 7 false] := rfl
  rw [reads_eight_bits, bitsToByte_eight]
  interval_cases k <;> rfl

theorem bitAt_le_one (b : List Bit) (k : Nat) : bitAt b k ≤ 1 := Bool.toNat_le _

/-- The weighted sum is at most 255 and does not overflow the byte (R121). -/
theorem bitsToByte_toNat (b : List Bit) :
    (bitsToByte b).toNat = 128 * bitAt b 0 + 64 * bitAt b 1 + 32 * bitAt b 2 + 16 * bitAt b 3 + 8 * bitAt b 4 +
      4 * bitAt b 5 + 2 * bitAt b 6 + 1 * bitAt b 7 := by
  rw [bitsToByte, BitVec.toNat_ofNat, Nat.mod_eq_of_lt]
  have h0 := bitAt_le_one b 0
  have h1 := bitAt_le_one b 1
  have h2 := bitAt_le_one b 2
  have h3 := bitAt_le_one b 3
  have h4 := bitAt_le_one b 4
  have h5 := bitAt_le_one b 5
  have h6 := bitAt_le_one b 6
  have h7 := bitAt_le_one b 7
  omega

theorem bytesToBits_singleton_getElem? (v : Byte) {k : Nat} (hk : k < 8) :
    (bytesToBits [v])[k]? = some (v.getLsbD (7 - k)) := byteBits_getElem? v k hk

theorem bitsToByte_bytesToBits (v : Byte) : bitsToByte (bytesToBits [v]) = v := by
  refine byte_ext fun k hk => ?_
  rw [bitsToByte_getLsbD _ hk, List.getD_eq_getElem?_getD, bytesToBits_singleton_getElem? v hk, Option.getD_some]

theorem bytesToBits_bitsToByte {b : List Bit} (hb : b.length = 8) : bytesToBits [bitsToByte b] = b := by
  refine List.ext_getElem ((bytesToBits_length _).trans hb.symm) fun k hk hkb => ?_
  have hk8 : k < 8 := hb ▸ hkb
  apply Option.some.inj
  rw [← List.getElem?_eq_getElem hk, bytesToBits_singleton_getElem? _ hk8, bitsToByte_getLsbD b hk8,
    List.getD_eq_getElem b _ hkb]

/-- Settles O12: both round trips hold bit by bit, and joining is an induction on the first sequence. -/
theorem bitPackerInverseLaws : Obligations.BitPackerInverseLaws :=
  ⟨bitsToByte_bytesToBits, fun _ => bytesToBits_bitsToByte, bytesToBits_append⟩

/-! ### The shift register (R27, R126) -/

/-- After shifting a sequence into an empty ACC, bit k of ACC is the k-th last bit that arrived (R126). -/
theorem foldl_shiftIn_getLsbD (b : List Bit) {k : Nat} (hk : k < 8) :
    (b.foldl shiftIn 0x00#8).getLsbD k = b.reverse.getD k false := by
  induction b using List.reverseRecOn generalizing k with
  | nil => simp
  | append_singleton b x ih =>
    rw [List.foldl_append, List.foldl_cons, List.foldl_nil, shiftIn_getLsbD _ _ _ hk, List.reverse_concat]
    cases k with
    | zero => rfl
    | succ k => exact ih (Nat.lt_of_succ_lt hk)

theorem foldl_shiftIn_eq_bitsToByte {b : List Bit} (hb : b.length = 8) : b.foldl shiftIn 0x00#8 = bitsToByte b := by
  refine byte_ext fun k hk => ?_
  have hlast : b.length - 1 - (7 - k) = k := by omega
  rw [foldl_shiftIn_getLsbD b (by omega), bitsToByte_getLsbD b hk, List.getD_eq_getElem?_getD,
    List.getElem?_reverse (by omega), hlast, List.getD_eq_getElem?_getD]

/-- After j left shifts bit 7 of ACC is what was bit 7 - j (R27). -/
theorem shiftLeft_getLsbD_seven (v : Byte) {j : Nat} (hj : j < 8) : (v <<< j).getLsbD 7 = v.getLsbD (7 - j) := by
  have hle : ¬ 7 < j := by omega
  rw [BitVec.getLsbD_shiftLeft, decide_eq_false hle]
  rfl

/-- Settles O13: the serial-in half bit by bit, and the serial-out half from the bit map of bytesToBits. -/
theorem shiftRegisterPacksAndUnpacks : Obligations.ShiftRegisterPacksAndUnpacks := by
  refine ⟨fun _ => foldl_shiftIn_eq_bitsToByte, fun bs k hk => ?_⟩
  rw [bytesToBits_getElem? bs k hk, shiftLeft_getLsbD_seven _ (Nat.mod_lt k (by decide))]

/-! ### The commands (R122, R123) -/

/-- Settles O10: BBUF takes bytesToBits of IBUF, eight bits per byte, for which a legal configuration has room. -/
theorem b2bitsEmitsBitsMsbFirst : Obligations.B2bitsEmitsBitsMsbFirst := by
  refine ⟨decode_encode .b2bits, fun s => ⟨bytesToBits s.ibuf, rfl, bytesToBits_length _, fun c hc hin => ?_,
    bytesToBits_getElem? s.ibuf⟩⟩
  calc (bytesToBits s.ibuf).length = 8 * s.ibuf.length := bytesToBits_length _
    _ ≤ 8 * c.nin := Nat.mul_le_mul_left 8 hin
    _ ≤ c.nbit := hc.bits_hold_input

theorem exec_bits2b {s : State} (hb : s.blen = 8) :
    exec .bits2b s = .next (finish .ok (setObuf [bitsToByte s.bbuf] s)) := if_pos hb

/-- Settles O11: with eight bits the byte of their weighted sum; another BLEN is the precondition CHECK tests. -/
theorem bits2bAppliesTheWeights : Obligations.Bits2bAppliesTheWeights := by
  refine ⟨decode_encode .bits2b, fun s => ⟨fun b0 b1 b2 b3 b4 b5 b6 b7 hb => ?eight, fun hb => ?other⟩⟩
  case eight =>
    exact ⟨bitsToByte s.bbuf, exec_bits2b (congrArg List.length hb), hb ▸ bitsToByte_toNat _⟩
  case other => exact exec_of_precheck (i := .bits2b) (if_neg hb)

/-! ### The step level (R127) -/

/-- The bits of byte i extend those of the bytes before it (R127). -/
theorem bytesToBits_take_succ {bs : List Byte} {i : Nat} (hi : i < bs.length) :
    bytesToBits (bs.take (i + 1)) = bytesToBits (bs.take i) ++ bytesToBits [bs.getD i 0x00#8] := by
  rw [← bytesToBits_append, List.take_add_one, List.getElem?_eq_getElem hi, List.getD_eq_getElem bs _ hi,
    Option.toList_some]

theorem b2bitsOk_result_of_end {s : State} (h : B2bitsOk s) (hi : s.ilen ≤ s.i) : s.result = bytesToBits s.ibuf := by
  rw [h.out_eq, List.take_of_length_le hi]

theorem bits2bStep_ends {s : State} (hb : s.blen = 8) :
    bits2bStep s = .next (succeed (setObuf [bitsToByte s.bbuf] s)) := if_pos hb

/-- Settles O53: the loop invariant before and after a byte step says what the step appended, and at I = ILEN what BBUF
takes. -/
theorem bitPackerByteStepsBuildTheResult : Obligations.BitPackerByteStepsBuildTheResult := by
  refine ⟨fun s hph hop hok => ?b2bits, fun s hph hop hb => ?bits2b⟩
  case b2bits =>
    have hcore : coreStep s = b2bitsStep s := coreStep_of_opl .b2bits hph hop
    rw [hcore]
    refine ⟨fun hi => ?advances, fun hi => ?ends⟩
    case advances =>
      obtain ⟨r, hstep, hok'⟩ := b2bitsStep_advances hok hi
      have appended : r = s.result ++ bytesToBits [s.ibuf.getD s.i 0x00#8] := by
        rw [hok.out_eq, ← bytesToBits_take_succ hi]
        exact hok'.out_eq
      exact ⟨_, hstep, hph, rfl, rfl, appended, hok'⟩
    case ends =>
      exact ⟨_, b2bitsStep_ends hi.ge, rfl, toDone_err _ _ _, b2bitsOk_result_of_end hok hi.ge⟩
  case bits2b =>
    have hcore : coreStep s = bits2bStep s := coreStep_of_opl .bits2b hph hop
    exact ⟨_, hcore.trans (bits2bStep_ends hb), rfl, toDone_err _ _ _, rfl, rfl⟩

end Sys2Proof.Machine

/-!
SUPPORT. Proofs of the statements of the embedder (43_embedder.md): what the LSB write does to a byte, what EMBED leaves in each
pixel, and which pixels are written when a reset cuts the pixel loop of EMBED short.
-/

namespace Sys2Proof.Machine

/-! ### The LSB write (R132) -/

theorem lsbWrite_eq (old : Byte) (b : Bit) : lsbWrite old b = (old &&& 0xFE#8) ||| (if b then 0x01#8 else 0x00#8) := by
  rw [lsbWrite, zextBit_eq]

theorem lsbWrite_getLsbD_zero (old : Byte) (b : Bit) : (lsbWrite old b).getLsbD 0 = b :=
  (lsbWrite_getLsbD old b 0).trans (if_pos rfl)

theorem lsbWrite_getLsbD_of_pos (old : Byte) (b : Bit) {k : Nat} (hk : 1 ≤ k) :
    (lsbWrite old b).getLsbD k = old.getLsbD k :=
  (lsbWrite_getLsbD old b k).trans (if_neg (Nat.one_le_iff_ne_zero.1 hk))

/-- Bits 7 to 1 weigh twice what they weigh alone, and bit 0 is added. -/
theorem byte_toNat_split (v : Byte) : v.toNat = 2 * (v >>> 1).toNat + (v.getLsbD 0).toNat := by
  rw [BitVec.toNat_ushiftRight, Nat.shiftRight_one, BitVec.getLsbD, Nat.toNat_testBit]
  omega

theorem lsbWrite_shiftRight (old : Byte) (b : Bit) : lsbWrite old b >>> 1 = old >>> 1 := by
  apply BitVec.eq_of_getLsbD_eq
  intro k _
  rw [BitVec.getLsbD_ushiftRight, BitVec.getLsbD_ushiftRight, lsbWrite_getLsbD_of_pos old b (Nat.le_add_right 1 k)]

/-- Both values share their upper bits, so they differ by what bit 0 changes. -/
theorem lsbWrite_toNat (old : Byte) (b : Bit) :
    (lsbWrite old b).toNat = if old.getLsbD 0 = b then old.toNat else if b then old.toNat + 1 else old.toNat - 1 := by
  rw [byte_toNat_split (lsbWrite old b), lsbWrite_shiftRight, lsbWrite_getLsbD_zero, byte_toNat_split old]
  cases old.getLsbD 0 <;> cases b <;> rfl

/-- Settles O15: the four laws of the LSB write. -/
theorem lsbWriteChangesOnlyBitZero : Obligations.LsbWriteChangesOnlyBitZero := fun old b =>
  ⟨lsbWrite_eq old b, lsbWrite_getLsbD_zero old b, fun _ => lsbWrite_getLsbD_of_pos old b, lsbWrite_toNat old b⟩

/-! ### EMBED (R131, R135) -/

theorem exec_embed_of_fits {s : State} (h : 8 * s.ilen ≤ s.grid.pixCount) :
    exec .embed s = .next (finish .ok (setBlue (embedFn s.grid s.ibuf) s)) := by
  rw [exec_embed, embedResult, (overCapacity_false_iff _ _).2 h, if_neg Bool.false_ne_true]

theorem exec_embed_of_over {s : State} (h : s.grid.pixCount < 8 * s.ilen) :
    exec .embed s = .next (raiseErr .grid .capacity s) := by
  rw [exec_embed, embedResult, (overCapacity_iff _ _).2 h, if_pos rfl]

/-- Settles O14: the blue channel is that of `EmbedFn`, and CapacityError leaves the grid. -/
theorem embedWritesThePayloadBits : Obligations.EmbedWritesThePayloadBits := by
  refine ⟨decode_encode .embed, fun s => ⟨fun hfits => ?fits, exec_embed_of_over⟩⟩
  case fits =>
    refine ⟨embedFn s.grid s.ibuf, exec_embed_of_fits hfits, fun n => ?_⟩
    rw [embedFn_read, lsbWrite_eq]

/-! ### The first steps of the pixel loop (R134, R165) -/

/-- The grid after the first `k` pixel steps of the loop that embeds `p`. -/
def embedPrefix (g : Grid) (p : List Byte) (k : Nat) : Grid :=
  { g with blue := embedFrom g.blue 0 ((bytesToBits p).take k) }

theorem embedPrefix_zero (g : Grid) (p : List Byte) : embedPrefix g p 0 = g := rfl

theorem embedPrefix_read (g : Grid) {p : List Byte} {k : Nat} (hk : k ≤ 8 * p.length) (n : Nat) :
    memRead (embedPrefix g p k).blue n =
      if n < k then lsbWrite (memRead g.blue n) ((p.getD (n / 8) 0x00#8).getLsbD (7 - n % 8)) else memRead g.blue n := by
  have hlen : ((bytesToBits p).take k).length = k := by
    rw [List.length_take, bytesToBits_length, Nat.min_eq_left hk]
  rw [embedPrefix, memRead_embedFrom, hlen]
  by_cases hn : n < k
  · simp [hn, List.getD_eq_getElem?_getD, bytesToBits_getElem? p n (hn.trans_le hk)]
  · simp [hn]

/-- The loop's last bit goes into the pixel after those of the bits before it (R131). -/
theorem embedFrom_concat (m : Memory) (pos : Nat) (bits : List Bit) (b : Bit) :
    embedFrom m pos (bits ++ [b]) = memWrite (embedFrom m pos bits) (pos + bits.length)
      (lsbWrite (memRead (embedFrom m pos bits) (pos + bits.length)) b) := by
  induction bits generalizing m pos with
  | nil => rfl
  | cons c rest ih =>
    rw [List.length_cons, Nat.add_comm rest.length, ← Nat.add_assoc]
    exact ih ..

/-- A pixel step adds pixel N to the pixels below N that are embedded. -/
theorem embedPrefix_afterPixelOut {g : Grid} {p : List Byte} {s : State} {v : Byte} (kidx i : Nat)
    (hgrid : s.grid = embedPrefix g p s.n) (hacc : AccHolds p s) (hv : LoadsByte p s v) (hn : s.n < 8 * p.length) :
    (afterPixelOut v kidx i s).grid = embedPrefix g p (s.n + 1) := by
  have hbit : (bytesToBits p)[s.n]? = some (v.getLsbD 7) := by
    rw [← List.head?_drop, bits_from_n hacc hv hn, List.head?_cons]
  have hlen : ((bytesToBits p).take s.n).length = s.n := by
    rw [List.length_take, bytesToBits_length, Nat.min_eq_left hn.le]
  have hblue : (embedPrefix g p (s.n + 1)).blue =
      memWrite s.grid.blue s.n (lsbWrite (memRead s.grid.blue s.n) (v.getLsbD 7)) := by
    rw [embedPrefix, List.take_add_one, hbit, Option.toList_some, embedFrom_concat, hlen, Nat.zero_add, hgrid]
    rfl
  show { s.grid with blue := memWrite s.grid.blue s.n (lsbWrite (memRead s.grid.blue s.n) (v.getLsbD 7)) } = _
  rw [← hblue, hgrid]
  rfl

/-- The command `i` writes the payload `p` into the blue LSBs: EMBED that of IBUF (R131), HIDE that of R160. -/
def WritesPayload (i : Instr) (p : List Byte) (s : State) : Prop :=
  (i = .embed ∧ p = s.ibuf) ∨ (i = .hide ∧ p = payload s.ibuf s.key)

/-- The pixel step of either command, by its payload (R134, R165). -/
theorem pixelStep_advances {i : Instr} {p : List Byte} {s : State} (hw : WritesPayload i p s) (hph : s.ph = .run)
    (hop : s.opl = opOf i) (hok : LoopOk i s) (hn : s.n < 8 * p.length) :
    ∃ v kidx j, coreStep s = .next (afterPixelOut v kidx j s) ∧ LoadsByte p s v ∧ LoopOk i (afterPixelOut v kidx j s) := by
  rw [coreStep_of_opl i hph hop]
  rcases hw with ⟨rfl, rfl⟩ | ⟨rfl, rfl⟩
  case inl =>
    obtain ⟨v, hadvances⟩ := pixelOut_embed_advances hok hn
    exact ⟨v, s.kidx, s.i, hadvances⟩
  case inr =>
    exact pixelOut_hide_advances hok (payload_length s.ibuf s.key ▸ hn)

/-- The machine runs the command `i`, and of its payload `p` it has embedded the first `k` bits into the grid `g`. -/
structure PixelLoop (i : Instr) (p : List Byte) (g : Grid) (k : Nat) (s : State) : Prop where
  writes : WritesPayload i p s
  running : s.ph = .run
  opl_eq : s.opl = opOf i
  loop : RunOk s
  n_eq : s.n = k
  acc : AccHolds p s
  grid_eq : s.grid = embedPrefix g p k

theorem PixelLoop.withScript {i : Instr} {p : List Byte} {g : Grid} {k : Nat} {s : State} (rest : List HostMove)
    (h : PixelLoop i p g k s) : PixelLoop i p g k { s with script := rest } :=
  ⟨h.writes, h.running, h.opl_eq, runOk_withScript rest h.loop, h.n_eq, h.acc, h.grid_eq⟩

theorem PixelLoop.advances {i : Instr} {p : List Byte} {g : Grid} {k : Nat} {s : State} (h : PixelLoop i p g k s)
    (hk : k < 8 * p.length) : ∃ t, coreStep s = .next t ∧ PixelLoop i p g (k + 1) t := by
  obtain ⟨hw, hph, hop, hok, rfl, hacc, hgrid⟩ := h
  have hdec : decodeOp s.opl = some i := hop ▸ decodeOp_opOf i
  obtain ⟨v, kidx, j, hstep, hv, hok'⟩ := pixelStep_advances hw hph hop ((runOk_iff hdec).1 hok) hk
  exact ⟨_, hstep, hw, hph, hop, (runOk_iff (s := afterPixelOut v kidx j s) hdec).2 hok', rfl,
    accHolds_afterPixelOut kidx j hacc hv, embedPrefix_afterPixelOut kidx j hgrid hacc hv hk⟩

/-- CHECK to RUN begins the loop before its first pixel. -/
theorem pixelLoop_startRun {i : Instr} {p : List Byte} {s : State} (hw : WritesPayload i p s) (hck : CheckOk s)
    (hop : s.opl = opOf i) (hp : precheck i s = none) : PixelLoop i p s.grid 0 (startRun i s) := by
  have hrun : RunOk (startRun i s) := startRun_runOk hck hop hp
  rcases hw with ⟨rfl, rfl⟩ | ⟨rfl, rfl⟩
  case inl => exact ⟨.inl ⟨rfl, rfl⟩, rfl, hop, hrun, hck.n_zero, accHolds_zero _ hck.n_zero, (embedPrefix_zero ..).symm⟩
  case inr => exact ⟨.inr ⟨rfl, rfl⟩, rfl, hop, hrun, hck.n_zero, accHolds_zero _ hck.n_zero, (embedPrefix_zero ..).symm⟩

/-! ### A reset inside the pixel loop (R200, R211) -/

/-- While the host waits, the step is one of the sequencer. -/
theorem step_wait {s : State} {rest : List HostMove} (hc : LegalConfig s) (h : s.script = .wait :: rest) :
    step s = coreStep { s with script := rest } := step_cons hc h

theorem step_reset {s : State} {rest : List HostMove} (hc : LegalConfig s) (h : s.script = .reset :: rest) :
    step s = .next (coreReset { s with script := rest }) := step_cons hc h

theorem KeepsOperands.refl (s : State) : KeepsOperands s s := ⟨rfl, rfl, rfl, rfl, rfl, rfl, rfl, rfl, rfl⟩

theorem KeepsOperands.withScript {s t : State} (h : KeepsOperands s t) (rest : List HostMove) :
    KeepsOperands { s with script := rest } { t with script := rest } :=
  ⟨h.cmd, h.opl, h.ibuf, h.key, h.grid_w, h.grid_h, h.caps, rfl, h.seen⟩

/-- As long as bits are left, each wait of the host is one pixel step. -/
theorem run_pixelSteps {i : Instr} {p : List Byte} {g : Grid} {rest : List HostMove} {k : Nat} :
    ∀ {j : Nat} {s : State}, LegalConfig s → PixelLoop i p g j s → j + k ≤ 8 * p.length →
      s.script = List.replicate k .wait ++ rest →
      ∃ t, Host.Core.run Sys2Proof.core k s = .next t ∧ PixelLoop i p g (j + k) t ∧
        KeepsOperands { s with script := rest } t := by
  induction k with
  | zero =>
    intro j s _ hloop _ hs
    obtain rfl : s.script = rest := hs
    exact ⟨s, run_zero s, hloop, .refl s⟩
  | succ k ih =>
    intro j s hc hloop hk hs
    obtain ⟨u, hcore, hloop'⟩ := (hloop.withScript (List.replicate k .wait ++ rest)).advances (by omega)
    have hkeep := coreStep_keepsOperands hcore
    have hc' : LegalConfig u := fun c h => hc c (hkeep.caps ▸ h)
    obtain ⟨t, hrun, hend, hkeep'⟩ := ih hc' hloop' (by omega) hkeep.script
    refine ⟨t, ?_, by rwa [Nat.add_right_comm, Nat.add_assoc] at hend, (hkeep.withScript rest).trans hkeep'⟩
    rw [run_next k ((step_wait hc hs).trans hcore)]
    exact hrun

theorem checkStep_of_precheck {i : Instr} {s : State} (hd : decode s.cmd = .command i) (hp : precheck i s = none) :
    checkStep s = startRun i s := by
  simp only [checkStep, hd, hp]

theorem precheck_issue (i : Instr) (c : Byte) (s : State) : precheck i (issue c s) = precheck i s := by cases i <;> rfl

/-- The issue and one wait of the host take an EMBED or HIDE that passes CHECK to its first pixel. -/
theorem run_issue_wait {i : Instr} {p : List Byte} {s : State} {rest : List HostMove} (hc : LegalConfig s)
    (hb : s.busy = false) (hw : WritesPayload i p s) (hp : precheck i s = none)
    (hs : s.script = .issue (encode i) :: .wait :: rest) :
    ∃ t, Host.Core.run Sys2Proof.core 2 s = .next t ∧ PixelLoop i p s.grid 0 t ∧
      t.script = rest ∧ t.caps = s.caps ∧ t.seen = s.seen := by
  have hd : decode (encode i) = .command i := decode_encode i
  have hp' : precheck i (issue (encode i) { s with script := rest }) = none := (precheck_issue ..).trans hp
  have hwait : step (issue (encode i) { s with script := .wait :: rest }) =
      .next (startRun i (issue (encode i) { s with script := rest })) :=
    (step_wait (s := issue (encode i) { s with script := .wait :: rest }) hc rfl).trans
      (congrArg Host.Outcome.next (checkStep_of_precheck hd hp'))
  have hkeep := startRun_keepsOperands i (issue (encode i) { s with script := rest })
  exact ⟨_, (run_next 1 (step_issue hc hb hs)).trans (run_next 0 hwait),
    pixelLoop_startRun (s := issue (encode i) { s with script := rest }) hw (issue_checkOk _ _) (cmdOp_of_decode hd) hp',
    hkeep.script, hkeep.caps, hkeep.seen⟩

/-- A reset after `k` pixel steps finds `k` payload bits embedded. -/
theorem run_pixelSteps_reset {i : Instr} {p : List Byte} {g : Grid} {k : Nat} {s : State} (hc : LegalConfig s)
    (hloop : PixelLoop i p g 0 s) (hk : k ≤ 8 * p.length) (hs : s.script = List.replicate k .wait ++ [.reset]) :
    Host.Core.run Sys2Proof.core (k + 1) s =
      .next { State.reset with grid := embedPrefix g p k, caps := s.caps, seen := s.seen } := by
  obtain ⟨t, hpixels, hend, hkeep⟩ := run_pixelSteps hc hloop (by rwa [Nat.zero_add]) hs
  have hreset : step t = .next (coreReset { t with script := [] }) :=
    step_reset (fun c h => hc c (hkeep.caps ▸ h)) hkeep.script
  rw [run_add hpixels, run_next 0 hreset, run_zero, coreReset, hend.grid_eq, hkeep.caps, hkeep.seen, Nat.zero_add]
  rfl

/-- An EMBED or HIDE that passes CHECK and is reset after `k` pixel steps leaves the reset core and the grid with `k` payload
bits embedded. -/
theorem reset_leaves_pixel_prefix {i : Instr} {p : List Byte} {s : State} {k : Nat} (hc : LegalConfig s)
    (hb : s.busy = false) (hw : WritesPayload i p s) (hp : precheck i s = none) (hk : k ≤ 8 * p.length)
    (hs : s.script = .issue (encode i) :: (List.replicate (k + 1) .wait ++ [.reset])) :
    Host.Core.run Sys2Proof.core (k + 3) s =
      .next { State.reset with grid := embedPrefix s.grid p k, caps := s.caps, seen := s.seen } := by
  rw [List.replicate_succ, List.cons_append] at hs
  obtain ⟨t, hstart, hloop, hscript, hcaps, hseen⟩ := run_issue_wait hc hb hw hp hs
  rw [show k + 3 = 2 + (k + 1) by omega, run_add hstart,
    run_pixelSteps_reset (fun c h => hc c (hcaps ▸ h)) hloop hk hscript, hcaps, hseen]

/-- Settles O34: EMBED passes CHECK because the payload fits, and `k` of its bits are embedded when the reset comes. -/
theorem resetDuringEmbedLeavesAPrefix : Obligations.ResetDuringEmbedLeavesAPrefix := by
  intro s k hc hb hk hfits hs
  have hp : precheck .embed s = none := by
    simp only [precheck, (overCapacity_false_iff s.grid s.ilen).2 hfits, Bool.false_eq_true, if_false]
  exact ⟨_, reset_leaves_pixel_prefix hc hb (.inl ⟨rfl, rfl⟩) hp hk hs, embedPrefix_read s.grid hk⟩

end Sys2Proof.Machine

/-!
SUPPORT. Proofs of the statements of the extractor (44_extractor.md): where the terminator stands in a byte stream and
what EXTRACT makes of it, that the queue and the two-bit zero counter match at the same bytes, and the steps of the detector.
-/

namespace Sys2Proof.Machine

/-! ### Where the terminator stands (R142, R149) -/

/-- The terminator at an index, byte by byte. -/
theorem termAt_iff (L : List Byte) (k : Nat) :
    termAt L k ↔ L[k]? = some 0x00#8 ∧ L[k + 1]? = some 0x00#8 ∧ L[k + 2]? = some 0x03#8 := by
  have hget (i : Nat) : L[k + i]? = (L.drop k)[i]? := List.getElem?_drop.symm
  rw [hget 1, hget 2, show L[k]? = (L.drop k)[0]? from hget 0]
  unfold termAt
  rcases L.drop k with _ | ⟨a, _ | ⟨b, _ | ⟨d, rest⟩⟩⟩ <;> simp [term]

theorem termAt_append_left {L : List Byte} {k : Nat} (rest : List Byte) (h : termAt L k) : termAt (L ++ rest) k := by
  have hlen := termAt_length h
  rw [termAt_iff] at h ⊢
  rwa [List.getElem?_append_left (by omega), List.getElem?_append_left (by omega), List.getElem?_append_left (by omega)]

theorem termAt_append_length (L tail : List Byte) : termAt (L ++ term ++ tail) L.length := by
  rw [termAt, List.append_assoc, List.drop_left]
  rfl

/-- No occurrence straddles the end of `L`: it would end at one of the two zero bytes that begin the terminator. -/
theorem termAt_of_termAt_append_term {L tail : List Byte} {k : Nat} (hk : k < L.length)
    (h : termAt (L ++ term ++ tail) k) : termAt L k := by
  rw [termAt_iff, List.append_assoc] at h
  obtain ⟨h0, h1, h2⟩ := h
  have inside : k + 2 < L.length := by
    by_contra hge
    rw [List.getElem?_append_right (by omega)] at h2
    obtain hd | hd : k + 2 - L.length = 0 ∨ k + 2 - L.length = 1 := by omega
    · simp [hd, term] at h2
    · simp [hd, term] at h2
  rw [List.getElem?_append_left (by omega)] at h0 h1 h2
  exact (termAt_iff L k).2 ⟨h0, h1, h2⟩

/-- The only stream of a grid is the one the model computes (R94, R140). -/
theorem eq_streamByte_of_isStream {g : Grid} {B : Nat → Byte} (h : IsStream g B) : B = streamByte g :=
  funext fun j => streamByte_unique (h j)

/-- The terminator at a list index of the stream is a window of R142 that ends two bytes later. -/
theorem termAt_byteStream_iff (g : Grid) (k : Nat) :
    termAt (byteStream g) k ↔ k + 2 < g.pixCount / 8 ∧ WindowAt (streamByte g) (k + 2) := by
  rw [termAt_iff]
  by_cases hk : k + 2 < g.pixCount / 8
  · rw [byteStream_getElem? g k (by omega), byteStream_getElem? g (k + 1) (by omega), byteStream_getElem? g (k + 2) hk]
    simp [WindowAt, hk]
  · have hnone : (byteStream g)[k + 2]? = none := List.getElem?_eq_none (by rw [byteStream_length]; omega)
    simp [hnone, hk]

/-! ### EXTRACT (R142, R143) -/

theorem extractFn_of_firstTerm {g : Grid} {k : Nat} (hk : termAt (byteStream g) k)
    (hmin : ∀ j, j < k → ¬ termAt (byteStream g) j) : extractFn g = some ((byteStream g).take k) :=
  scan_found _ k hk hmin

theorem extractFn_of_firstWindow {g : Grid} {t : Nat} (h : FirstWindow g (streamByte g) t) :
    extractFn g = some ((List.range (t - 2)).map (streamByte g)) := by
  obtain ⟨h2, hlt, hwindow, hmin⟩ := h
  obtain ⟨k, rfl⟩ := Nat.exists_eq_add_of_le' h2
  have hfirst := extractFn_of_firstTerm ((termAt_byteStream_iff g k).2 ⟨hlt, hwindow⟩) fun j hj hterm =>
    hmin (j + 2) (by omega) (by omega) ((termAt_byteStream_iff g j).1 hterm).2
  rw [hfirst, byteStream, ← List.map_take, List.take_range, Nat.add_sub_cancel, Nat.min_eq_left (by omega)]

theorem extractFn_of_noWindow {g : Grid} (h : NoWindow g (streamByte g)) : extractFn g = none :=
  scan_none _ fun k hterm => by
    obtain ⟨hlt, hwindow⟩ := (termAt_byteStream_iff g k).1 hterm
    exact h (k + 2) (by omega) hlt hwindow

/-- EXTRACT with a result, the state left written out. -/
theorem exec_extract_found {s : State} {out : List Byte} (h : extractFn s.grid = some out) :
    exec .extract s = .next { s with obuf := out, status := 0x00#8, ph := .idle } := exec_extract_some h

theorem exec_extract_notFound {s : State} (h : extractFn s.grid = none) :
    exec .extract s = .next { s with obuf := [], status := 0x03#8, ph := .idle } := exec_extract_none h

/-- Settles O16: the stream is `streamByte`, and the least window of R142 is where the scan stops. -/
theorem extractReturnsBytesBeforeFirstTerminator : Obligations.ExtractReturnsBytesBeforeFirstTerminator := by
  refine ⟨decode_encode .extract, fun s B hB => ?_⟩
  obtain rfl := eq_streamByte_of_isStream hB
  refine ⟨fun t ht => ?_, fun hnone => exec_extract_notFound (extractFn_of_noWindow hnone)⟩
  have hexec := exec_extract_found (extractFn_of_firstWindow ht)
  obtain ⟨h2, hlt, -⟩ := ht
  replace hlt : t < s.grid.w * s.grid.h / 8 := hlt
  refine ⟨hexec, by omega, fun c hc hpix => ?_⟩
  calc t - 2 < s.grid.w * s.grid.h / 8 := by omega
    _ ≤ c.maxpix / 8 := Nat.div_le_div_right hpix
    _ ≤ c.nout := hc.out_holds_stream

/-- Settles O18: an occurrence below `c.length` is one in `c`, and at `c.length` there always is one. -/
theorem extractTruncatesAtFirstTermInside : Obligations.ExtractTruncatesAtFirstTermInside := by
  intro s c tail hstream
  have first {k : Nat} (hk : termAt (c ++ term ++ tail) k) (hle : k ≤ c.length) (hmin : ∀ j, j < k → ¬ termAt c j) :
      extractFn s.grid = some (c.take k) := by
    rw [extractFn_of_firstTerm (hstream ▸ hk) fun j hj hterm =>
      hmin j hj (termAt_of_termAt_append_term (hj.trans_le hle) (hstream ▸ hterm)),
      hstream, List.append_assoc, List.take_append_of_le_length hle]
  refine ⟨fun hnone => exec_extract_found ?_, fun k hk hmin => ?_⟩
  · rw [first (termAt_append_length c tail) le_rfl fun j _ => hnone j, List.take_length]
  · have hlen := termAt_length hk
    refine ⟨exec_extract_found (first ?_ (by omega) hmin), fun heq => ?_⟩
    · rw [List.append_assoc]
      exact termAt_append_left _ hk
    · have := congrArg List.length heq
      rw [List.length_take] at this
      omega

/-- Settles O20: the first three bytes of the stream are the terminator, with no byte before them. -/
theorem neverEmbeddedGridCanSucceed : Obligations.NeverEmbeddedGridCanSucceed := by
  intro s hpix hlsb
  have byte_is {j : Nat} {v : Byte} (hj : j < 3) (hv : ∀ k, k < 8 → v.getLsbD (7 - k) = decide (22 ≤ 8 * j + k)) :
      (byteStream s.grid)[j]? = some v := by
    rw [byteStream_getElem? _ _ (by show j < s.grid.w * s.grid.h / 8; omega), streamByte_unique fun k hk =>
      (hv k hk).trans (hlsb (8 * j + k) (by omega)).symm]
  have hterm : termAt (byteStream s.grid) 0 :=
    (termAt_iff _ 0).2 ⟨byte_is (by decide) (by decide), byte_is (by decide) (by decide), byte_is (by decide) (by decide)⟩
  exact exec_extract_found (extractFn_of_firstTerm hterm fun j hj => absurd hj (Nat.not_lt_zero j))

/-! ### What the scan reads (R140, R203) -/

theorem byteStream_congr {g g' : Grid} (hcount : g.pixCount = g'.pixCount)
    (hlsb : ∀ n, n < 8 * (g.pixCount / 8) → blueLsb g n = blueLsb g' n) : byteStream g = byteStream g' := by
  rw [byteStream, byteStream, ← hcount]
  refine List.map_congr_left fun j hj => streamByte_unique fun k hk => ?_
  have hj := List.mem_range.1 hj
  rw [streamByte_getLsbD g j k hk, hlsb _ (by omega)]

/-- EXTRACT and REVEAL end in one OBUF and one code where the scan gives one result and KEY is the same. -/
theorem commandResult_scan_answer {i : Instr} {s u : State} (hi : i = .extract ∨ i = .reveal) (hkey : s.key = u.key)
    (hscan : extractFn s.grid = extractFn u.grid) :
    (commandResult i s).obuf = (commandResult i u).obuf ∧ (commandResult i s).err = (commandResult i u).err := by
  cases hx : extractFn s.grid with
  | none =>
    rw [commandResult_exhausted hi hx, commandResult_exhausted hi (hscan ▸ hx)]
    exact ⟨rfl, rfl⟩
  | some out =>
    have hx' : extractFn u.grid = some out := hscan ▸ hx
    rcases hi with rfl | rfl
    · rw [commandResult_of_exec (exec_extract_some hx), commandResult_of_exec (exec_extract_some hx')]
      exact ⟨rfl, rfl⟩
    · have hklen : s.klen = u.klen := congrArg List.length hkey
      by_cases hk : s.klen = 0
      · rw [commandResult_of_exec (exec_reveal_noKey hx hk), commandResult_of_exec (exec_reveal_noKey hx' (hklen ▸ hk))]
        exact ⟨rfl, rfl⟩
      · rw [commandResult_of_exec (exec_reveal_some hx hk), commandResult_of_exec (exec_reveal_some hx' (hklen ▸ hk)), hkey]
        exact ⟨rfl, rfl⟩

/-- Settles O17: both grids have one byte stream, so the scans of both commands give one result. -/
theorem extractionDependsOnlyOnBlueLsbs : Obligations.ExtractionDependsOnlyOnBlueLsbs := by
  intro s u hcount hkey hlsb
  have hscan : extractFn s.grid = extractFn u.grid := congrArg (scan [] []) (byteStream_congr hcount hlsb)
  obtain ⟨hobuf, herr⟩ := commandResult_scan_answer (.inl rfl) hkey hscan
  obtain ⟨hobuf', herr'⟩ := commandResult_scan_answer (.inr rfl) hkey hscan
  exact ⟨_, _, _, _, exec_eq_commandResult .extract s, exec_eq_commandResult .extract u, hobuf, herr,
    exec_eq_commandResult .reveal s, exec_eq_commandResult .reveal u, hobuf', herr'⟩

/-! ### The queue and the zero counter (R146, R151) -/

/-- The zero counter is at its cap when a zero byte follows a count that is not 0. -/
theorem zNext_eq_two_iff (z : BitVec 2) (v : Byte) : zNext z v = 2#2 ↔ v = 0x00#8 ∧ z ≠ 0#2 := by
  unfold zNext
  split
  · rename_i hv
    rw [hv]
    revert z
    decide
  · rename_i hv
    simp [hv]

theorem zNext_ne_zero_iff (z : BitVec 2) (v : Byte) : zNext z v ≠ 0#2 ↔ v = 0x00#8 := by
  unfold zNext
  split
  · rename_i hv
    rw [hv]
    revert z
    decide
  · rename_i hv
    simp [hv]

theorem concat_suffix_concat_iff (P L : List Byte) (a b : Byte) : P ++ [a] <:+ L ++ [b] ↔ a = b ∧ P <:+ L := by
  rw [← List.reverse_prefix, List.reverse_concat, List.reverse_concat, List.cons_prefix_cons, List.reverse_prefix]

/-- The counter is not 0 when the last byte is zero. -/
theorem foldl_zNext_ne_zero_iff (L : List Byte) : L.foldl zNext 0#2 ≠ 0#2 ↔ [0x00#8] <:+ L := by
  obtain rfl | ⟨L, b, rfl⟩ := L.eq_nil_or_concat'
  · simp
  · rw [List.foldl_concat, zNext_ne_zero_iff, show [0x00#8] = [] ++ [0x00#8] from rfl, concat_suffix_concat_iff, eq_comm]
    simp

/-- The counter is 2 when the last two bytes are zero. -/
theorem foldl_zNext_eq_two_iff (L : List Byte) : L.foldl zNext 0#2 = 2#2 ↔ [0x00#8, 0x00#8] <:+ L := by
  obtain rfl | ⟨L, b, rfl⟩ := L.eq_nil_or_concat'
  · simp
  · rw [List.foldl_concat, zNext_eq_two_iff, foldl_zNext_ne_zero_iff, eq_comm]
    exact (concat_suffix_concat_iff [0x00#8] L 0x00#8 b).symm

/-- The detector matches on the byte that completes a terminator (R151). -/
theorem zMatch_foldl_iff (L : List Byte) (v : Byte) : zMatch (L.foldl zNext 0#2) v = true ↔ term <:+ L ++ [v] := by
  rw [zMatch, Bool.and_eq_true, beq_iff_eq, beq_iff_eq, foldl_zNext_eq_two_iff, and_comm, eq_comm]
  exact (concat_suffix_concat_iff [0x00#8, 0x00#8] L 0x03#8 v).symm

/-- The state after the byte steps of a sequence (R146). -/
def afterBytes (L : List Byte) (s : State) : State := L.foldl (fun t b => byteStep b t) s

theorem afterBytes_concat (L : List Byte) (v : Byte) (s : State) :
    afterBytes (L ++ [v]) s = byteStep v (afterBytes L s) := List.foldl_concat ..

theorem afterBytes_bytes (L : List Byte) (s : State) :
    (afterBytes L s).obuf ++ queueOf (afterBytes L s) = s.obuf ++ queueOf s ++ L := by
  induction L using List.reverseRecOn with
  | nil => simp [afterBytes]
  | append_singleton L v ih => rw [afterBytes_concat, byteStep_bytes, ih, List.append_assoc]

theorem queueOf_length (s : State) : (queueOf s).length = s.qlen.toNat := by
  rw [queueOf, List.length_take]
  exact Nat.min_eq_left (Nat.le_of_lt_succ s.qlen.isLt)

theorem afterBytes_queue_length {s : State} (L : List Byte) (h : s.qlen = 0#2) :
    (queueOf (afterBytes L s)).length = min L.length 3 := by
  rw [queueOf_length]
  induction L using List.reverseRecOn with
  | nil => simp [afterBytes, h]
  | append_singleton L v ih =>
    rw [afterBytes_concat, byteStep_qlen, ih, List.length_append, List.length_singleton]
    omega

/-- From an empty queue the queue holds the last three bytes of what was pushed (R142). -/
theorem afterBytes_queue_suffix {s : State} (L : List Byte) (h : s.qlen = 0#2) : queueOf (afterBytes L s) <:+ L := by
  have hempty : queueOf s = [] := by simp [queueOf, h]
  have hbytes := afterBytes_bytes L s
  rw [hempty, List.append_nil] at hbytes
  refine List.suffix_of_suffix_length_le (hbytes ▸ List.suffix_append _ _) (List.suffix_append s.obuf L) ?_
  rw [afterBytes_queue_length L h]
  exact Nat.min_le_left _ _

/-- The queue holds the terminator when the bytes pushed end in it. -/
theorem found_afterBytes_iff {s : State} (L : List Byte) (h : s.qlen = 0#2) :
    found (afterBytes L s) = true ↔ term <:+ L := by
  rw [found_iff_queue]
  have hsuffix := afterBytes_queue_suffix L h
  constructor
  · intro hterm
    rwa [hterm] at hsuffix
  · intro hterm
    have h3 : 3 ≤ L.length := hterm.length_le
    have hlen : (queueOf (afterBytes L s)).length = term.length := by
      rw [afterBytes_queue_length L h, Nat.min_eq_right h3]
      rfl
    exact (List.suffix_of_suffix_length_le hsuffix hterm hlen.le).eq_of_length hlen

/-- The detector, started at Z = 0, matches at index `t` of `L` (R151). -/
def ZMatchAt (L : List Byte) (t : Nat) : Prop := ∃ v, L[t]? = some v ∧ zMatch ((L.take t).foldl zNext 0#2) v = true

/-- The detector matches at the last byte of each occurrence of the terminator. -/
theorem zMatchAt_iff (L : List Byte) (t : Nat) : ZMatchAt L t ↔ 2 ≤ t ∧ termAt L (t - 2) := by
  by_cases ht : t < L.length
  · have hget := List.getElem?_eq_getElem ht
    have hmatch : ZMatchAt L t ↔ zMatch ((L.take t).foldl zNext 0#2) L[t] = true := by simp [ZMatchAt, hget]
    have htake : L.take t ++ [L[t]] = L.take (t + 1) := by rw [List.take_add_one, hget, Option.toList_some]
    have hqueue : (L.take (t + 1)).drop ((L.take (t + 1)).length - term.length) = queueAfter L (t + 1) := by
      rw [List.length_take, Nat.min_eq_left ht]
      rfl
    rw [hmatch, zMatch_foldl_iff, htake, List.suffix_iff_eq_drop, hqueue, eq_comm, queueAfter_eq_term L t ht]
  · have hnone : L[t]? = none := List.getElem?_eq_none (Nat.le_of_not_lt ht)
    refine iff_of_false (by simp [ZMatchAt, hnone]) fun ⟨h2, hterm⟩ => ?_
    have := termAt_length hterm
    omega

theorem zMatchAt_append_cons (pre rest : List Byte) (v : Byte) :
    ZMatchAt (pre ++ v :: rest) pre.length ↔ zMatch (pre.foldl zNext 0#2) v = true := by
  simp [ZMatchAt]

/-- From Z after the bytes `pre` on, the first match is the least index from there at which the detector matches. -/
theorem zFirst_foldl_eq_some_iff (pre rest : List Byte) (t : Nat) :
    zFirst (pre.foldl zNext 0#2) pre.length rest = some t ↔
      pre.length ≤ t ∧ ZMatchAt (pre ++ rest) t ∧ ∀ i, pre.length ≤ i → i < t → ¬ ZMatchAt (pre ++ rest) i := by
  induction rest generalizing pre with
  | nil =>
    refine iff_of_false nofun fun ⟨hle, ⟨v, hv, _⟩, _⟩ => ?_
    rw [List.append_nil, List.getElem?_eq_none hle] at hv
    cases hv
  | cons v rest ih =>
    have hhead := zMatchAt_append_cons pre rest v
    have htail := ih (pre ++ [v])
    rw [List.foldl_concat, List.length_append, List.length_singleton, List.append_assoc, List.singleton_append] at htail
    rw [zFirst]
    split
    · rename_i hmatch
      have hnow := hhead.2 hmatch
      constructor
      · intro h
        cases h
        exact ⟨le_rfl, hnow, fun i hle hlt => absurd hlt (Nat.not_lt.2 hle)⟩
      · rintro ⟨hle, -, hmin⟩
        by_contra hne
        exact hmin pre.length le_rfl (lt_of_le_of_ne hle fun h => hne (congrArg some h)) hnow
    · rename_i hmatch
      have hnot := mt hhead.1 hmatch
      rw [htail]
      constructor
      · rintro ⟨hle, hat, hmin⟩
        refine ⟨by omega, hat, fun i hi hlt => ?_⟩
        rcases Nat.eq_or_lt_of_le hi with rfl | hi
        · exact hnot
        · exact hmin i hi hlt
      · rintro ⟨hle, hat, hmin⟩
        have hne : pre.length ≠ t := fun h => hnot (h ▸ hat)
        exact ⟨by omega, hat, fun i hi => hmin i (by omega)⟩

/-- The detector first matches at the last byte of the first occurrence of the terminator. -/
theorem zFirst_eq_some_iff (L : List Byte) (t : Nat) :
    zFirst 0#2 0 L = some t ↔ 2 ≤ t ∧ termAt L (t - 2) ∧ ∀ j, j < t - 2 → ¬ termAt L j := by
  have h := zFirst_foldl_eq_some_iff [] L t
  simp only [List.foldl_nil, List.length_nil, List.nil_append, zMatchAt_iff, Nat.zero_le, true_and, forall_const] at h
  rw [h, and_assoc]
  refine and_congr_right fun h2 => and_congr_right fun _ => ⟨fun hmin j hj hterm => ?_, fun hmin i hi hterm => ?_⟩
  · exact hmin (j + 2) (by omega) ⟨by omega, hterm⟩
  · exact hmin (i - 2) (by omega) hterm.2

/-- The queue's scan ends where the detector first matches, with the bytes before the terminator (R141, R151). -/
theorem scan_eq_zFirst (L : List Byte) : scan [] [] L = (zFirst 0#2 0 L).map fun t => L.take (t - 2) := by
  cases h : zFirst 0#2 0 L with
  | some t =>
    obtain ⟨-, hterm, hmin⟩ := (zFirst_eq_some_iff L t).1 h
    exact scan_found L (t - 2) hterm hmin
  | none =>
    refine scan_none L fun k hk => ?_
    classical
    have hex : ∃ k, termAt L k := ⟨k, hk⟩
    have hfirst := (zFirst_eq_some_iff L (Nat.find hex + 2)).2
      ⟨Nat.le_add_left 2 _, Nat.find_spec hex, fun j => Nat.find_min hex⟩
    rw [h] at hfirst
    cases hfirst

/-- Settles O19: queue and counter both look for a sequence that ends in the terminator. -/
theorem zeroCounterDetectorAgreesWithQueue : Obligations.ZeroCounterDetectorAgreesWithQueue := by
  refine ⟨fun s stream v hq => ?_, fun stream => ⟨scan_eq_zFirst stream, zFirst_eq_some_iff stream⟩⟩
  have hfound := found_afterBytes_iff (stream ++ [v]) hq
  rw [afterBytes_concat] at hfound
  exact Bool.eq_iff_iff.2 (hfound.trans (zMatch_foldl_iff stream v).symm)

/-! ### The steps of the scan (R145 to R148, R165) -/

theorem scan_command {op : BitVec 4} (h : op = 0x6#4 ∨ op = 0x8#4) : ∃ i, (i = .extract ∨ i = .reveal) ∧ op = opOf i := by
  rcases h with h | h
  · exact ⟨.extract, .inl rfl, h⟩
  · exact ⟨.reveal, .inr rfl, h⟩

/-- Settles O55: the pixel step of either command is that of the detector, which keeps the invariants of R148. -/
theorem detectorPixelStepKeepsScanInvariant : Obligations.DetectorPixelStepKeepsScanInvariant := by
  intro s hph hop hok hf hn
  obtain ⟨i, hi, hopl⟩ := scan_command hop
  obtain ⟨t, ht⟩ := pixelIn_of_lt hn
  obtain ⟨-, -, -, -, -, hgrid, hph', hopl', hn', -⟩ := pixelIn_frame ht
  exact ⟨t, ((coreStep_scan hph hi hopl hf).trans (if_pos hn)).trans ht, hph'.trans hph, hopl', hn', hgrid,
    pixelIn_scanOk hok hf ht⟩

theorem extractStep_found {s : State} (hf : found s = true) : extractStep s = .next (succeed s) := if_pos hf

theorem revealStep_found_noKey {s : State} (hf : found s = true) (hk : s.klen = 0) :
    revealStep s = .next (toDone .obuf .invalidKey s) := (if_pos hf).trans (if_pos hk)

theorem revealStep_found_key {s : State} (hf : found s = true) (hk : s.klen ≠ 0) :
    revealStep s = .next { s with ph := .run2, i := 0, kidx := 0 } := (if_pos hf).trans (if_neg hk)

/-- The scan stops at the terminator's last bit: on `found` N is at a byte boundary, with the output and the queue's three
bytes read (R147, R148). -/
theorem scanOk_n_of_found {s : State} (h : ScanOk s) (hf : found s = true) : s.n = 8 * (s.olen + 3) := by
  obtain ⟨h3, hterm⟩ := (scanOk_found_iff h).1 hf
  have hboundary : ¬ 8 * (s.n / 8 - 3 + 3) < s.n := fun hlt => h.no_match_before _ hlt hterm
  have holen : s.olen = s.n / 8 - 3 := by
    have hn := h.n_le
    rw [State.olen, (scanOk_split h h3).1, List.length_take, byteStream_length]
    omega
  omega

/-- Settles O56: on `found` the row of each command, and with every pixel read the row both share. -/
theorem detectorScanEndsByTheTable : Obligations.DetectorScanEndsByTheTable := by
  intro s hph hop hok
  refine ⟨fun hf => ⟨extractFn_of_found hok hf, scanOk_n_of_found hok hf, fun hopl => ?extract, fun hopl hkey => ?noKey,
    fun hopl hkey => ?key⟩, fun hf hn => ⟨extractFn_of_exhausted hok hf hn.ge, ?exhausted⟩⟩
  case extract => exact (coreStep_of_opl .extract hph hopl).trans (extractStep_found hf)
  case noKey =>
    exact (coreStep_of_opl .reveal hph hopl).trans (revealStep_found_noKey hf (congrArg List.length hkey))
  case key =>
    have hk := klen_ne_zero hkey
    exact ⟨(coreStep_of_opl .reveal hph hopl).trans (revealStep_found_key hf hk), run2Ok_of_found hok hf hopl hk⟩
  case exhausted =>
    obtain ⟨i, hi, hopl⟩ := scan_command hop
    exact (coreStep_scan hph hi hopl hf).trans (if_neg hn.not_lt)

end Sys2Proof.Machine

/-!
SUPPORT. Proofs of the statements of the message codec (45_message_codec.md): which payload HIDE leaves in the grid and which
bytes REVEAL deciphers, what REVEAL gives back after HIDE, and which pixels are written when a reset cuts HIDE short.
-/

namespace Sys2Proof.Machine

/-! ### The payload and the grid that holds it (R140, R160) -/

/-- The bytes of HIDE's payload in one equation: the ciphertext, then the terminator. -/
theorem payload_getD (m p : List Byte) (j : Nat) :
    (payload m p).getD j 0x00#8 =
      if j < m.length then m.getD j 0x00#8 ^^^ p.getD (j % p.length) 0x00#8
      else if j = m.length + 2 then 0x03#8 else 0x00#8 := by
  by_cases hj : j < m.length
  · rw [if_pos hj, payload_getD_of_lt p hj]
  · rw [if_neg hj, payload_getD_of_ge p (Nat.le_of_not_lt hj)]

/-- A byte of the payload is read back from the LSBs it was embedded in. -/
theorem streamByte_embedFn_of_lt (g : Grid) {p : List Byte} {j : Nat} (hj : j < p.length) :
    streamByte { g with blue := embedFn g p } j = p.getD j 0x00#8 := by
  refine (streamByte_unique fun k hk => ?_).symm
  rw [blueLsb, embedFn_read, if_pos (by omega), lsbWrite_getLsbD_zero, show (8 * j + k) / 8 = j by omega,
    show (8 * j + k) % 8 = k by omega]

/-- The byte stream of a grid begins with the payload that was embedded in it. -/
theorem prefix_byteStream_embedFn {g : Grid} {p : List Byte} (hfits : 8 * p.length ≤ g.pixCount) :
    p <+: byteStream { g with blue := embedFn g p } := by
  refine List.prefix_iff_getElem?.2 fun j hj => ?_
  have hpix : j < g.pixCount / 8 := by omega
  calc (byteStream { g with blue := embedFn g p })[j]? = some (streamByte { g with blue := embedFn g p } j) :=
        byteStream_getElem? _ j hpix
    _ = some p[j] := by rw [streamByte_embedFn_of_lt g hj, List.getD_eq_getElem p _ hj]

/-! ### HIDE (R161) -/

theorem precheck_hide_noKey {s : State} (hk : s.klen = 0) : precheck .hide s = some .invalidKey := if_pos hk

theorem precheck_hide_over {s : State} (hk : s.klen ≠ 0) (hover : s.grid.pixCount < 8 * (s.ilen + 3)) :
    precheck .hide s = some .capacity :=
  (if_neg hk).trans (if_pos ((overCapacity_iff _ _).2 hover))

theorem precheck_hide_passes {s : State} (hk : s.klen ≠ 0) (hfits : 8 * (s.ilen + 3) ≤ s.grid.pixCount) :
    precheck .hide s = none :=
  (if_neg hk).trans (if_neg (Bool.eq_false_iff.1 ((overCapacity_false_iff _ _).2 hfits)))

/-- What HIDE leaves where it succeeds. -/
def afterHide (s : State) : State := finish .ok (setBlue (embedFn s.grid (payload s.ibuf s.key)) s)

theorem exec_hide_of_fits {s : State} (hk : s.klen ≠ 0) (hfits : 8 * (s.ilen + 3) ≤ s.grid.pixCount) :
    exec .hide s = .next (afterHide s) := by
  rw [afterHide, exec_hide_key hk, embedResult, payload_length, (overCapacity_false_iff _ _).2 hfits, if_neg Bool.false_ne_true]

/-- Settles O21: the two errors are those CHECK tests in turn, and otherwise the blue channel is that of `EmbedFn` for the
payload. -/
theorem hideEmbedsCiphertextThenTerminator : Obligations.HideEmbedsCiphertextThenTerminator := by
  refine ⟨decode_encode .hide, fun s => ⟨fun hkey => ?noKey, fun hkey hover => ?overCapacity, fun hkey hfits => ?fits⟩⟩
  case noKey => exact exec_of_precheck (precheck_hide_noKey (congrArg List.length hkey))
  case overCapacity => exact exec_of_precheck (precheck_hide_over (klen_ne_zero hkey) hover)
  case fits =>
    refine ⟨embedFn s.grid (payload s.ibuf s.key), exec_hide_of_fits (klen_ne_zero hkey) hfits, ?_⟩
    rintro n p rfl
    rw [embedFn_read, payload_length, payload_getD, lsbWrite_eq]

/-- Settles O35: HIDE passes CHECK, and `k` bits of its payload are embedded when the reset comes. -/
theorem resetDuringHideLeavesAPrefix : Obligations.ResetDuringHideLeavesAPrefix := by
  intro s k hc hb hkey hk hfits hs
  have hp : precheck .hide s = none := precheck_hide_passes (klen_ne_zero hkey) hfits
  have hk' : k ≤ 8 * (payload s.ibuf s.key).length := payload_length s.ibuf s.key ▸ hk
  refine ⟨_, reset_leaves_pixel_prefix hc hb (.inr ⟨rfl, rfl⟩) hp hk' hs, ?_⟩
  rintro n p rfl
  exact payload_getD s.ibuf s.key (n / 8) ▸ embedPrefix_read s.grid hk' n

/-! ### REVEAL (R162) -/

theorem xorStream_map_range (B : Nat → Byte) (p : List Byte) (len : Nat) :
    xorStream ((List.range len).map B) p = (List.range len).map fun k => B k ^^^ p.getD (k % p.length) 0x00#8 := by
  apply List.ext_getElem?
  intro k
  rw [xorStream_getElem?]
  by_cases hk : k < len
  · simp [hk]
  · simp [hk]

/-- Settles O22: the scan gives the bytes before the first window, or none; only then is the password tested. -/
theorem revealDeciphersTheExtractedBytes : Obligations.RevealDeciphersTheExtractedBytes := by
  refine ⟨decode_encode .reveal, fun s B hB => ?_⟩
  obtain rfl := eq_streamByte_of_isStream hB
  refine ⟨fun hnone => exec_reveal_none (extractFn_of_noWindow hnone), fun t ht => ?_⟩
  have hscan := extractFn_of_firstWindow ht
  refine ⟨fun hkey => exec_reveal_noKey hscan (congrArg List.length hkey), fun hkey => ?_⟩
  rw [exec_reveal_some hscan (klen_ne_zero hkey), xorStream_map_range]
  rfl

/-! ### REVEAL after HIDE (R163, R164) -/

/-- An EXTRACT without an error shows in OBUF what the scan gives. -/
theorem extractFn_of_exec_extract {s t : State} (h : exec .extract s = .next t) (herr : t.err = 0#3) :
    extractFn s.grid = some t.obuf := by
  cases hx : extractFn s.grid with
  | none =>
    obtain rfl : raiseErr .obuf .terminatorNotFound s = t := Host.Outcome.next.inj ((exec_extract_none hx).symm.trans h)
    exact absurd herr (raiseErr_err_ne_zero (by decide) _ _)
  | some out =>
    obtain rfl : finish .ok (setObuf out s) = t := Host.Outcome.next.inj ((exec_extract_some hx).symm.trans h)
    rfl

/-- The scan after HIDE stops at the payload's own terminator, or at the first one inside the ciphertext (R149). -/
theorem extractFn_afterHide {s : State} (hfits : 8 * (s.ilen + 3) ≤ s.grid.pixCount) :
    ((∀ k, ¬ termAt (xorStream s.ibuf s.key) k) → extractFn (afterHide s).grid = some (xorStream s.ibuf s.key)) ∧
    ∀ k, termAt (xorStream s.ibuf s.key) k → (∀ j, j < k → ¬ termAt (xorStream s.ibuf s.key) j) →
      extractFn (afterHide s).grid = some ((xorStream s.ibuf s.key).take k) := by
  have hprefix : payload s.ibuf s.key <+: byteStream (afterHide s).grid :=
    prefix_byteStream_embedFn (payload_length s.ibuf s.key ▸ hfits)
  obtain ⟨tail, hstream⟩ := hprefix
  obtain ⟨whole, truncated⟩ := extractTruncatesAtFirstTermInside (afterHide s) (xorStream s.ibuf s.key) tail hstream.symm
  exact ⟨fun hnone => extractFn_of_exec_extract (whole hnone) rfl,
    fun k hterm hmin => extractFn_of_exec_extract (truncated k hterm hmin).1 rfl⟩

/-- REVEAL after HIDE deciphers what the scan gives with the password KEY then holds. -/
theorem exec_reveal_afterHide {s : State} {p out : List Byte} (hscan : extractFn (afterHide s).grid = some out)
    (hp : p ≠ []) :
    exec .reveal { afterHide s with key := p } = .next
      { afterHide s with key := p, obuf := xorStream out p, status := 0x00#8, ph := .idle } :=
  exec_reveal_some (s := { afterHide s with key := p }) hscan (mt List.length_eq_zero_iff.1 hp)

/-- A terminator inside a ciphertext begins before the end of the message. -/
theorem lt_length_of_termAt_xorStream {m p : List Byte} {k : Nat} (h : termAt (xorStream m p) k) : k < m.length := by
  have hlen := termAt_length h
  rw [xorStream_length] at hlen
  omega

/-- Settles O23: REVEAL finds the ciphertext, or its bytes before the first terminator, and the keystream applied twice
cancels. -/
theorem revealAfterHideRoundTrip : Obligations.RevealAfterHideRoundTrip := by
  intro s hkey hfits
  obtain ⟨whole, truncated⟩ := extractFn_afterHide hfits
  refine ⟨afterHide s, exec_hide_of_fits (klen_ne_zero hkey) hfits, finish_err _ _, fun hnone => ?whole,
    fun k hterm hmin => ⟨?truncated, fun heq => ?shorter⟩⟩
  case whole =>
    have hreveal := exec_reveal_afterHide (whole hnone) hkey
    rwa [xorStream_xorStream] at hreveal
  case truncated =>
    have hreveal := exec_reveal_afterHide (truncated k hterm hmin) hkey
    rwa [← xorStream_take, xorStream_xorStream] at hreveal
  case shorter =>
    exact (lt_length_of_termAt_xorStream hterm).not_ge ((List.take_eq_self_iff s.ibuf).1 heq)

/-- Settles O24: the scan does not read KEY, so REVEAL deciphers the whole ciphertext with the password it is given. -/
theorem wrongPasswordRevealsSilently : Obligations.WrongPasswordRevealsSilently := by
  intro s p hkey hp hfits hnone
  have hscan := (extractFn_afterHide hfits).1 hnone
  exact ⟨afterHide s, exec_hide_of_fits (klen_ne_zero hkey) hfits, exec_reveal_afterHide hscan hp,
    by rw [xorStream_length, xorStream_length]⟩

end Sys2Proof.Machine

/-!
SUPPORT. Proofs of the statements of the command interface (46_command_interface.md): what the issue of a byte latches, where
CHECK and DONE lead, and within how many steps an issued command is complete.
-/

namespace Sys2Proof.Machine

/-! ### Completion at the command level (R170, R171) -/

theorem exec_keepsOperands {i : Instr} {s t : State} (h : exec i s = .next t) : KeepsOperands s t := by
  obtain ⟨e, u, hexec, shape⟩ := exec_shape i s
  cases hexec.symm.trans h
  rcases shape with ⟨-, o, rfl, -⟩ | ⟨-, -, rfl⟩ | ⟨-, -, p, -, rfl⟩ | ⟨-, -, rfl⟩ <;>
    exact ⟨rfl, rfl, rfl, rfl, rfl, rfl, rfl, rfl, rfl⟩

theorem finish_idle (e : ErrCode) (s : State) : Idle (finish e s) := ⟨finish_busy e s, rfl⟩

/-- A byte written to CMD is a whole command: the machine is idle again, and holds what the issue gave it but for the
destination, STATUS and PH (R171). -/
theorem runCommand_completes (c : Byte) (s : State) :
    ∃ t, runCommand c s = .next t ∧ KeepsOperands (issue c s) t ∧ Idle t := by
  rcases runCommand_shape c s with ⟨i, -, hrun⟩ | ⟨why, -, hrun⟩
  · obtain ⟨e, u, hexec, -⟩ := exec_shape i (issue c s)
    exact ⟨_, hrun.trans hexec, exec_keepsOperands hexec, finish_idle e u⟩
  · exact ⟨_, hrun, ⟨rfl, rfl, rfl, rfl, rfl, rfl, rfl, rfl, rfl⟩, finish_idle _ _⟩

/-- Two states with one architectural view show the host the same CMD, BUSY and script (R18, R20). -/
theorem archView_eq_agrees {u t : State} (h : archView u = archView t) :
    u.cmd = t.cmd ∧ u.busy = t.busy ∧ u.script = t.script := by
  have hcmd := congrArg State.cmd h
  have hbusy := congrArg State.busy h
  have hscript := congrArg State.script h
  exact ⟨hcmd, hbusy, hscript⟩

/-- Settles O59: the sequencer's loops are bounded from the issue on (`issue_runsTo`) and end in the view of the state that the
command level completes with; the issue is the one step before them. -/
theorem issuedCommandCompletesWithinBound : Obligations.IssuedCommandCompletesWithinBound := by
  intro s c hc hb
  have hu : Undisturbed { s with script := [] } := ⟨hc, rfl⟩
  have hissue : step { s with script := [.issue c] } = .next (issue c { s with script := [] }) :=
    step_issue (s := { s with script := [.issue c] }) hc hb rfl
  obtain ⟨t, hcommand, k, u, hk, hrun, hidle, hview⟩ := issue_runsTo hu c
  obtain ⟨t', hcommand', hkeep, hbusy, -⟩ := runCommand_completes c { s with script := [] }
  obtain rfl : t = t' := Host.Outcome.next.inj (hcommand.symm.trans hcommand')
  obtain ⟨ucmd, ubusy, uscript⟩ := archView_eq_agrees hview
  exact ⟨k + 1, u, Nat.le_add_left 1 k, Nat.succ_le_succ hk, (run_next k hissue).trans hrun, hidle, ubusy.trans hbusy,
    ucmd.trans hkeep.cmd, uscript.trans hkeep.script⟩

/-- Settles O5: the step-level write is the issue itself, and the command-level write keeps what the issue latched. -/
theorem issueLatchesAndCommandCompletes : Obligations.IssueLatchesAndCommandCompletes := by
  intro s c rest hc hb
  refine ⟨fun hs => ?issue, fun hs => ?command⟩
  case issue =>
    exact ⟨_, step_issue hc hb hs, rfl, issue_err _ _, issue_busy _ _, rfl, rfl, rfl, rfl, rfl, rfl, rfl, rfl, rfl, rfl, rfl,
      rfl, rfl, rfl, rfl, rfl⟩
  case command =>
    obtain ⟨t, hrun, hkeep, hbusy, hph⟩ := runCommand_completes c { s with script := rest }
    exact ⟨t, (step_writeCmd hc hb hs).trans hrun, hkeep.cmd, hkeep.opl, hbusy, hph, hkeep.ibuf, hkeep.key, hkeep.script,
      hkeep.seen⟩

/-! ### The rows CHECK and DONE (R172, R186) -/

theorem coreStep_check {s : State} (h : s.ph = .check) : coreStep s = .next (checkStep s) := by simp only [coreStep, h]

theorem coreStep_done {s : State} (h : s.ph = .done) : coreStep s = .next (doneStep s) := by simp only [coreStep, h]

theorem coreStep_check_illegal {s : State} {why : Illegal} (hph : s.ph = .check) (hd : decode s.cmd = .illegal why) :
    coreStep s = .next (toDone .nowhere .illegalOperation s) := by
  rw [coreStep_check hph, checkStep, hd]

theorem coreStep_check_fails {i : Instr} {d : Dest} {e : ErrCode} {s : State} (hph : s.ph = .check)
    (hd : decode s.cmd = .command i) (hdest : destOf i = d) (hp : precheck i s = some e) :
    coreStep s = .next (toDone d e s) := by
  simp only [coreStep_check hph, checkStep, hd, hp, hdest]

theorem coreStep_check_passes {i : Instr} {d : Dest} {s : State} (hph : s.ph = .check) (hd : decode s.cmd = .command i)
    (hdest : destOf i = d) (hp : precheck i s = none) : coreStep s = .next { clearResult d s with ph := .run } := by
  rw [coreStep_check hph, checkStep_of_precheck hd hp, startRun, hdest]

theorem precheck_cipher {i : Instr} (hi : i = .encrypt ∨ i = .decrypt) (s : State) :
    precheck i s = if s.klen = 0 then some .invalidKey else none := by
  rcases hi with rfl | rfl <;> rfl

theorem precheck_embed_over {s : State} (hover : s.grid.pixCount < 8 * s.ilen) : precheck .embed s = some .capacity :=
  if_pos ((overCapacity_iff _ _).2 hover)

theorem precheck_embed_passes {s : State} (hfits : 8 * s.ilen ≤ s.grid.pixCount) : precheck .embed s = none :=
  if_neg (Bool.eq_false_iff.1 ((overCapacity_false_iff _ _).2 hfits))

/-- Settles O51: what CHECK does is settled by the decoder and `precheck`, whose answer each row's premise determines. -/
theorem checkAndDonePhases : Obligations.CheckAndDonePhases := by
  intro s
  refine ⟨fun hph why hd => coreStep_check_illegal hph hd, fun hph i hd hi => ?cipher,
    fun hph hd => coreStep_check_passes hph hd rfl rfl, fun hph hd => ?bits2b, fun hph hd => ?embed, fun hph hd => ?hide,
    fun hph hd => ?scan, fun hph => ?done⟩
  case cipher =>
    have hdest : destOf i = .obuf := by rcases hi with rfl | rfl <;> rfl
    have hp := precheck_cipher hi s
    exact ⟨fun hkey => coreStep_check_fails hph hd hdest (hp.trans (if_pos (congrArg List.length hkey))),
      fun hkey => coreStep_check_passes hph hd hdest (hp.trans (if_neg (klen_ne_zero hkey)))⟩
  case bits2b =>
    exact ⟨fun hb => coreStep_check_fails hph hd rfl (if_neg hb), fun hb => coreStep_check_passes hph hd rfl (if_pos hb)⟩
  case embed =>
    exact ⟨fun hover => coreStep_check_fails hph hd rfl (precheck_embed_over hover),
      fun hfits => coreStep_check_passes hph hd rfl (precheck_embed_passes hfits)⟩
  case hide =>
    exact ⟨fun hkey => coreStep_check_fails hph hd rfl (precheck_hide_noKey (congrArg List.length hkey)),
      fun hkey hover => coreStep_check_fails hph hd rfl (precheck_hide_over (klen_ne_zero hkey) hover),
      fun hkey hfits => coreStep_check_passes hph hd rfl (precheck_hide_passes (klen_ne_zero hkey) hfits)⟩
  case scan =>
    rcases hd with hd | hd <;> exact coreStep_check_passes hph hd rfl rfl
  case done => exact ⟨_, coreStep_done hph, rfl, doneStep_busy s, doneStep_err s, rfl, rfl, rfl⟩

end Sys2Proof.Machine

/-!
SUPPORT. Proofs of the statements of the exceptions (60_exceptions.md): what a command that reports an error leaves, and which
error each command reports when.
-/

namespace Sys2Proof.Machine

/-! ### What a failed command leaves (R184, R192) -/

/-- A command that reports an error has raised it: the state at issue with the destination treated by kind. -/
theorem eq_raiseErr_of_exec {i : Instr} {s t : State} (h : exec i s = .next t) (herr : t.err ≠ 0#3) :
    ∃ e, t = raiseErr (destOf i) e s := by
  obtain ⟨e, u, hexec, shape⟩ := exec_shape i s
  obtain rfl : finish e u = t := Host.Outcome.next.inj (hexec.symm.trans h)
  have hfailed : e ≠ .ok := by
    rintro rfl
    exact herr (finish_err _ _)
  refine ⟨e, congrArg (finish e) ?_⟩
  rcases shape with ⟨hdest, o, rfl, hempty⟩ | ⟨-, hok, -⟩ | ⟨-, hok, -⟩ | ⟨hdest, -, rfl⟩
  case inl => rw [hdest, clearDest_obuf, hempty hfailed]
  case inr.inl => exact absurd hok hfailed
  case inr.inr.inl => exact absurd hok hfailed
  case inr.inr.inr => rw [hdest, clearDest_grid]

/-- Settles O28: a failed command leaves `raiseErr`'s state, which differs from the state at issue in OBUF alone, and there
only where OBUF is the destination. -/
theorem failedCommandLeavesNoPartialResult : Obligations.FailedCommandLeavesNoPartialResult := by
  intro i s
  refine ⟨commandResult i s, exec_eq_commandResult i s, fun herr => ?_⟩
  obtain ⟨e, hraised⟩ := eq_raiseErr_of_exec (exec_eq_commandResult i s) herr
  rw [hraised]
  have hobuf : (raiseErr (destOf i) e s).obuf = if destOf i = .obuf then [] else s.obuf := clearDest_obuf_eq (destOf i) s
  refine ⟨clearDest_keeps_grid _ _, clearDest_keeps_bbuf _ _, fun hi => hobuf.trans (if_pos ?_),
    fun hi => hobuf.trans (if_neg ?_)⟩
  · rcases hi with rfl | rfl | rfl | rfl | rfl <;> rfl
  · rcases hi with rfl | rfl <;> decide

/-! ### Where the scan finds nothing (R142, R183) -/

/-- A stream that has a window has a first one. -/
theorem noWindow_or_firstWindow (g : Grid) (B : Nat → Byte) : NoWindow g B ∨ ∃ t, FirstWindow g B t := by
  classical
  by_cases hex : ∃ t, 2 ≤ t ∧ t < g.pixCount / 8 ∧ WindowAt B t
  · obtain ⟨h2, hlt, hwindow⟩ := Nat.find_spec hex
    exact .inr ⟨Nat.find hex, h2, hlt, hwindow, fun j hj hbefore hw => Nat.find_min hex hbefore ⟨hj, hbefore.trans hlt, hw⟩⟩
  · exact .inl fun t h2 hlt hw => hex ⟨t, h2, hlt, hw⟩

theorem extractFn_eq_none_iff (g : Grid) : extractFn g = none ↔ NoWindow g (streamByte g) := by
  refine ⟨fun hnone => (noWindow_or_firstWindow g _).resolve_right ?_, extractFn_of_noWindow⟩
  rintro ⟨t, ht⟩
  exact nomatch hnone.symm.trans (extractFn_of_firstWindow ht)

theorem extractFn_ne_none_iff (g : Grid) : extractFn g ≠ none ↔ ∃ t, FirstWindow g (streamByte g) t := by
  refine ⟨fun hfound => (noWindow_or_firstWindow g _).resolve_left (mt extractFn_of_noWindow hfound), ?_⟩
  rintro ⟨t, ht⟩
  simp [extractFn_of_firstWindow ht]

/-! ### The code each command reports (R180 to R183, R185, R186) -/

theorem commandResult_err {i : Instr} {s t : State} {e : ErrCode} (h : exec i s = .next (finish e t)) :
    (commandResult i s).err = errNumber e := by
  rw [commandResult_of_exec h, finish_err]

theorem commandResult_err_of_precheck {i : Instr} {s : State} {e : ErrCode} (h : precheck i s = some e) :
    (commandResult i s).err = errNumber e :=
  commandResult_err (exec_of_precheck h)

theorem cipher_err {i : Instr} (hi : i = .encrypt ∨ i = .decrypt) (s : State) :
    (commandResult i s).err = if s.key = [] then 1#3 else 0#3 := by
  have hexec : exec i s = cipherBuffer s := by rcases hi with rfl | rfl <;> rfl
  by_cases hkey : s.key = []
  · rw [if_pos hkey]
    exact commandResult_err (hexec.trans (cipherBuffer_noKey (congrArg List.length hkey)))
  · rw [if_neg hkey]
    exact commandResult_err (hexec.trans (exec_cipher (klen_ne_zero hkey)))

theorem bits2b_err (s : State) : (commandResult .bits2b s).err = if s.bbuf.length = 8 then 0#3 else 4#3 := by
  by_cases hb : s.bbuf.length = 8
  · rw [if_pos hb]
    exact commandResult_err (exec_bits2b hb)
  · rw [if_neg hb]
    exact commandResult_err_of_precheck (i := .bits2b) (e := .illegalOperation) (if_neg hb)

theorem embed_err (s : State) :
    (commandResult .embed s).err = if s.grid.w * s.grid.h < 8 * s.ibuf.length then 2#3 else 0#3 := by
  by_cases hover : s.grid.w * s.grid.h < 8 * s.ibuf.length
  · rw [if_pos hover]
    exact commandResult_err (exec_embed_of_over hover)
  · rw [if_neg hover]
    exact commandResult_err (exec_embed_of_fits (Nat.le_of_not_lt hover))

theorem hide_err (s : State) :
    (commandResult .hide s).err = if s.key = [] then 1#3
      else if s.grid.w * s.grid.h < 8 * (s.ibuf.length + 3) then 2#3 else 0#3 := by
  by_cases hkey : s.key = []
  · rw [if_pos hkey]
    exact commandResult_err_of_precheck (precheck_hide_noKey (congrArg List.length hkey))
  · rw [if_neg hkey]
    by_cases hover : s.grid.w * s.grid.h < 8 * (s.ibuf.length + 3)
    · rw [if_pos hover]
      exact commandResult_err_of_precheck (precheck_hide_over (klen_ne_zero hkey) hover)
    · rw [if_neg hover]
      exact commandResult_err (exec_hide_of_fits (klen_ne_zero hkey) (Nat.le_of_not_lt hover))

theorem extract_err (s : State) :
    (commandResult .extract s).err = if extractFn s.grid = none then 3#3 else 0#3 := by
  cases hx : extractFn s.grid with
  | none => exact commandResult_err (exec_extract_none hx)
  | some out => exact commandResult_err (exec_extract_some hx)

theorem extract_err_eq_three_iff (s : State) : (commandResult .extract s).err = 3#3 ↔ extractFn s.grid = none := by
  simp [extract_err]

theorem extract_err_eq_zero_iff (s : State) : (commandResult .extract s).err = 0#3 ↔ extractFn s.grid ≠ none := by
  simp [extract_err]

/-- The scan comes first, and the password is tested only when it has found a terminator (R186, D15). -/
theorem reveal_err (s : State) :
    (commandResult .reveal s).err =
      if extractFn s.grid = none then 3#3 else if s.key = [] then 1#3 else 0#3 := by
  cases hx : extractFn s.grid with
  | none => exact commandResult_err (exec_reveal_none hx)
  | some out =>
    rw [if_neg (Option.some_ne_none out)]
    by_cases hkey : s.key = []
    · rw [if_pos hkey]
      exact commandResult_err (exec_reveal_noKey hx (congrArg List.length hkey))
    · rw [if_neg hkey]
      exact commandResult_err (exec_reveal_some hx (klen_ne_zero hkey))

/-- Settles O29: each command's code in one equation, and the scan fails exactly where the stream has no window. -/
theorem errorKindsAndPriorities : Obligations.ErrorKindsAndPriorities := by
  intro s
  have answers (i : Instr) := exec_eq_commandResult i s
  refine ⟨_, _, _, _, _, _, _, _, answers .encrypt, answers .decrypt, answers .b2bits, answers .bits2b, answers .embed,
    answers .extract, answers .hide, answers .reveal, cipher_err (.inl rfl) s, cipher_err (.inr rfl) s,
    commandResult_err (i := .b2bits) rfl, bits2b_err s, embed_err s, fun B hB => ?windows, ?codes, hide_err s, ?reveal⟩
  case windows =>
    obtain rfl := eq_streamByte_of_isStream hB
    exact ⟨(extract_err_eq_three_iff s).trans (extractFn_eq_none_iff _),
      (extract_err_eq_zero_iff s).trans (extractFn_ne_none_iff _)⟩
  case codes =>
    rw [extract_err_eq_zero_iff, extract_err_eq_three_iff]
    exact (em _).symm
  case reveal => simp only [extract_err_eq_three_iff, reveal_err]

end Sys2Proof.Machine

/-!
SUPPORT. Proof of the statement of the hazards (70_reset_and_hazards.md): what the host may not do between issue and completion.
-/

namespace Sys2Proof.Machine

/-! ### The host during a command (R206, U1) -/

theorem whileIdle_of_busy {s : State} (o : Host.Outcome State Fault Refusal) (h : s.busy = true) :
    whileIdle s o = .refused .hostMoveWhileBusy := if_pos h

/-- Settles O39: a read of a register other than STATUS is refused by the rule of register reads (O38), and every other move
but waiting and a reset is one the host may make only while the machine is idle. -/
theorem hostMoveDuringCommandIsRefused : Obligations.HostMoveDuringCommandIsRefused := by
  intro s m rest hc hb hs hstatus hwait hreset
  cases m with
  | wait => exact absurd rfl hwait
  | reset => exact absurd rfl hreset
  | readReg r =>
    obtain ⟨-, -, refused⟩ := registerReadsReturnCurrentValues s rest r hc hs
    exact refused hb fun hr => hstatus (congrArg HostMove.readReg hr)
  | _ => exact (step_cons hc hs).trans (whileIdle_of_busy (s := { s with script := rest }) _ hb)

end Sys2Proof.Machine
